-- ==== Sys2Proof/Word.lean ====
section
/-! DEFINITION. The word type of the command port and of the datapath, and the plain containers that hold one
value per channel or per filter site (00_scope.md R3, R11, R13; 10_state.md R32, R49). -/

namespace Sys2Proof

/-- A 32-bit word: a command word, a data or result word, or the bit pattern of a binary32 value (R11, R13, R82). -/
abbrev Word := BitVec 32

/-- One stored byte of the delay buffer memory. -/
abbrev Byte := BitVec 8

/-- A non-negative rational `num / den`: the form in which the model takes the real-valued parameters of R7. -/
structure Ratio where
  num : Nat
  den : Nat
deriving DecidableEq, Repr

/-- The two channels of R3: `c0` is the source's channel 1 (left), `c1` its channel 2 (right). -/
inductive Chan where
  | c0
  | c1
deriving DecidableEq, Repr

/-- One value per channel. -/
structure Pair (α : Type) where
  c0 : α
  c1 : α
deriving DecidableEq, Repr

/-- The value of channel `ch`. -/
def Pair.get {α : Type} (p : Pair α) : Chan → α
  | .c0 => p.c0
  | .c1 => p.c1

/-- The pair with channel `ch`'s value replaced. -/
def Pair.set {α : Type} (p : Pair α) (ch : Chan) (v : α) : Pair α :=
  match ch with
  | .c0 => { p with c0 := v }
  | .c1 => { p with c1 := v }

/-- The four filter sites of R32 and R239: 0 input high-cut, 1 input low-cut, 2 feedback high-cut,
3 feedback low-cut. -/
inductive Site where
  | ihc
  | ilc
  | fhc
  | flc
deriving DecidableEq, Repr

/-- One value per filter site. -/
structure Sites (α : Type) where
  ihc : α
  ilc : α
  fhc : α
  flc : α
deriving DecidableEq, Repr

/-- The value of site `s`. -/
def Sites.get {α : Type} (t : Sites α) : Site → α
  | .ihc => t.ihc
  | .ilc => t.ilc
  | .fhc => t.fhc
  | .flc => t.flc

/-- The table with site `s`'s value replaced. -/
def Sites.set {α : Type} (t : Sites α) (s : Site) (v : α) : Sites α :=
  match s with
  | .ihc => { t with ihc := v }
  | .ilc => { t with ilc := v }
  | .fhc => { t with fhc := v }
  | .flc => { t with flc := v }

end Sys2Proof
end

