-- ==== Sys2Proof/Config.lean ====
section
/-! DEFINITION. What an implementation fixes: the parameters of 00_scope.md R7 with their defaults, and the free
values (constants with no body) for what the spec leaves open: SIN, COS and POW (R17, D3), the bit pattern of a NaN
result (R14), unspecified buffer words (R52), and results the rules do not state outside their ranges (R16, R153). -/

namespace Sys2Proof

/-- Which law turns FEEDBACK and CROSSFEED into gains (R7 `FB_LAW`, R196). -/
inductive FbLaw where
  | percent
  | db
deriving DecidableEq, Repr

/-- Whether the commit clears the buffer (R7 `CLEAR_POLICY`, R174). -/
inductive ClearPolicy where
  | clear
  | keep
deriving DecidableEq, Repr

/-- The parameters of R7, all but `NUMERICS`. A real-valued parameter is a rational (log entry 3). -/
structure Params where
  /-- `BUF_WORDS` -/
  bufWords : Nat
  /-- `MAX_DELAY_S` -/
  maxDelayS : Ratio
  /-- `TEMPO_MIN_BPM` -/
  tempoMinBpm : Word
  /-- `DIV_TABLE` -/
  divTable : List Word
  /-- `FADE_MS` -/
  fadeMs : Ratio
  /-- `K_GAIN` -/
  kGain : Word
  /-- `K_DELAY` -/
  kDelay : Word
  /-- `DB_CEIL` -/
  dbCeil : Word
  /-- `DB_FLOOR` -/
  dbFloor : Word
  /-- `FB_LAW` -/
  fbLaw : FbLaw
  /-- `CLEAR_POLICY` -/
  clearPolicy : ClearPolicy
  /-- `PP_GAIN` -/
  ppGain : Word
  /-- `LIM_ATT_MS` -/
  limAttMs : Ratio
  /-- `LIM_REL_MS` -/
  limRelMs : Ratio
  /-- `LIM_MARGIN` -/
  limMargin : Nat
  /-- `DEPTH_MAX_MS` -/
  depthMaxMs : Word
  /-- `RATE_MIN_HZ` -/
  rateMinHz : Word
  /-- `RATE_MAX_HZ` -/
  rateMaxHz : Word
  /-- `FILT_F_MIN_HZ` -/
  filtFMinHz : Word
  /-- `FILT_F_MAX_RATIO` -/
  filtFMaxRatio : Word
  /-- `Q_MIN` -/
  qMin : Word
  /-- `Q_MAX` -/
  qMax : Word
  /-- `FLAG_THRESHOLD` -/
  flagThreshold : Word
deriving DecidableEq, Repr

/-- The default divider table of R205, in its index order. -/
def defaultDivTable : List Word :=
  [ 0x40800000#32   -- 0 whole note, 4.0 beats
  , 0x40000000#32   -- 1 half note, 2.0
  , 0x3F800000#32   -- 2 quarter note, 1.0
  , 0x3F000000#32   -- 3 eighth note, 0.5
  , 0x3E800000#32   -- 4 sixteenth note, 0.25
  , 0x3FC00000#32   -- 5 dotted quarter, 1.5
  , 0x3F400000#32   -- 6 dotted eighth, 0.75
  , 0x3EC00000#32   -- 7 dotted sixteenth, 0.375
  , 0x3F2AAAAB#32   -- 8 quarter triplet, f32(2/3)
  , 0x3EAAAAAB#32   -- 9 eighth triplet, f32(1/3)
  , 0x3E2AAAAB#32 ] -- 10 sixteenth triplet, f32(1/6)

/-- The default column of R7's table. -/
def Params.default : Params where
  bufWords := 1048576
  maxDelayS := ⟨4, 1⟩
  tempoMinBpm := 0x3F800000#32
  divTable := defaultDivTable
  fadeMs := ⟨50, 1⟩
  kGain := 0x3C23D70A#32
  kDelay := 0x3A83126F#32
  dbCeil := 0x41400000#32
  dbFloor := 0xC2C00000#32
  fbLaw := .percent
  clearPolicy := .clear
  ppGain := 0x3F000000#32
  limAttMs := ⟨10, 1⟩
  limRelMs := ⟨10, 1⟩
  limMargin := 0
  depthMaxMs := 0x40A00000#32
  rateMinHz := 0x3C23D70A#32
  rateMaxHz := 0x41200000#32
  filtFMinHz := 0x41200000#32
  filtFMaxRatio := 0x3EE66666#32
  qMin := 0x3A83126F#32
  qMax := 0x3FB33333#32
  flagThreshold := 0x3F000000#32

/-- The four rounded operations of R14, as names for the free NaN results. -/
inductive FpOp where
  | add
  | sub
  | mul
  | div
deriving DecidableEq, Repr

/-- FREE VALUE. A candidate for `SIN(x)` (R17, D3); `Machine.fSin` keeps it within R17's properties. -/
opaque Config.sinBits : Word → Word

/-- FREE VALUE. A candidate for `COS(x)` (R17, D3); `Machine.fCos` keeps it within R17's properties. -/
opaque Config.cosBits : Word → Word

/-- FREE VALUE. A candidate for `POW(b, e)` (R17, D3); `Machine.fPow` keeps it within R17's properties. -/
opaque Config.powBits : Word → Word → Word

/-- FREE VALUE. A candidate for the NaN an operation returns (R14: IEEE 754 does not fix its sign and payload);
`Machine.fNaN` makes it a NaN. -/
opaque Config.nanBits : FpOp → Word → Word → Word

/-- FREE VALUE. What byte `a` of channel `ch` holds while the buffer is unspecified (R52 "unspec"), in the
`k`-th such period: period 0 begins at power-on, each TEARDOWN begins the next. -/
opaque Config.unspecByte : Nat → Chan → Nat → Byte

/-- FREE VALUE. `floor` and `ceil` of a value that is not finite: R16 defines them for finite values only. -/
opaque Config.intOfNonFinite : Word → Int

/-- FREE VALUE. The word read at a position that R153's wrap does not bring into [0, C): a non-finite position, or
one so large that the wrap makes no progress. R152 produces none of them (R154). -/
opaque Config.readOutOfRange : Chan → Word → Word

end Sys2Proof
end

