-- ==== Sys2Proof/Machine/Float.lean ====
section
/-! DEFINITION. Binary32 arithmetic on bit patterns (00_scope.md R13 to R16, R18). A non-NaN pattern stands for an
integer number of units of 2^-149; every operation computes its exact result and rounds it once, to nearest, ties to
even, keeping subnormals. -/

namespace Sys2Proof.Machine

/-- The sign bit: bit 31 (R82). -/
def fSign (w : Word) : Bool := w.msb

/-- The pattern without its sign bit. -/
def fBits (w : Word) : Nat := w.toNat % 2 ^ 31

def isNaN (w : Word) : Bool := decide (0x7F800000 < fBits w)
def isInf (w : Word) : Bool := decide (fBits w = 0x7F800000)
def isFinite (w : Word) : Bool := decide (fBits w < 0x7F800000)
def isZero (w : Word) : Bool := decide (fBits w = 0)

/-- The magnitude of a pattern in units of 2^-149. It is exact for a finite value; for an infinity it is 2^277,
above every finite value, so that `fVal` orders the infinities rightly. -/
def fMag (w : Word) : Nat :=
  let e := fBits w / 2 ^ 23
  let m := fBits w % 2 ^ 23
  if e = 0 then m else (2 ^ 23 + m) * 2 ^ (e - 1)

/-- The signed value of a pattern in units of 2^-149. -/
def fVal (w : Word) : Int := if fSign w then -(fMag w : Int) else (fMag w : Int)

/-- The magnitude bits of the binary32 value nearest to `n / d` units of 2^-149, ties to even, overflow to infinity
(R13 `f32`, R14). -/
def roundMag (n d : Nat) : Nat :=
  let shift := Nat.log2 (n / d) - 23
  let u := d * 2 ^ shift
  let m := n / u
  let r := n % u
  let m' := if u < 2 * r ∨ (2 * r = u ∧ m % 2 = 1) then m + 1 else m
  min (shift * 2 ^ 23 + m') 0x7F800000

/-- The pattern with sign `neg` and magnitude bits `bits`. -/
def fPack (neg : Bool) (bits : Nat) : Word := BitVec.ofNat 32 (if neg then 2 ^ 31 + bits else bits)

def fZero : Word := 0x00000000#32
def fNegZero : Word := 0x80000000#32
def fHalf : Word := 0x3F000000#32
def fOne : Word := 0x3F800000#32
def fTwo : Word := 0x40000000#32
def fTen : Word := 0x41200000#32
def fTwenty : Word := 0x41A00000#32
def fSixty : Word := 0x42700000#32
def fNinetyNine : Word := 0x42C60000#32
def fHundred : Word := 0x42C80000#32
def fThousand : Word := 0x447A0000#32
/-- `0.01f`, binary32(0.01) (R13). -/
def fHundredth : Word := 0x3C23D70A#32
/-- `TWO_PI` (R18). -/
def fTwoPi : Word := 0x40C90FDB#32

/-- The NaN that `op` returns for an invalid operation or a NaN operand: some NaN, its bits free (R14; DESIGN CHOICE,
log entry 6: one function of the operation and its operands). -/
def fNaN (op : FpOp) (a b : Word) : Word :=
  if isNaN (Config.nanBits op a b) then Config.nanBits op a b else 0x7FC00000#32

/-- `-x` flips the sign bit (R14). -/
def fNeg (x : Word) : Word := x ^^^ 0x80000000#32

/-- `abs(x)` clears the sign bit (R14). -/
def fAbs (x : Word) : Word := x &&& 0x7FFFFFFF#32

/-- The sum of two non-NaN patterns, infinities of opposite signs apart. An exact zero is -0.0 only when both
operands are negative (IEEE 754, round to nearest; PRESUMED, log entry 16). -/
def addNumbers (a b : Word) : Word :=
  if isInf a then a
  else if isInf b then b
  else if fVal a + fVal b = 0 then (if fSign a && fSign b then fNegZero else fZero)
  else fPack (decide (fVal a + fVal b < 0)) (roundMag (fVal a + fVal b).natAbs 1)

/-- `a + b` (R14). -/
def fAdd (a b : Word) : Word :=
  if isNaN a || isNaN b || (isInf a && isInf b && fSign a != fSign b) then fNaN .add a b
  else addNumbers a b

/-- `a - b` (R14). -/
def fSub (a b : Word) : Word :=
  if isNaN a || isNaN b || (isInf a && isInf b && fSign a == fSign b) then fNaN .sub a b
  else addNumbers a (fNeg b)

/-- `a * b` (R14). -/
def fMul (a b : Word) : Word :=
  if isNaN a || isNaN b || (isInf a && isZero b) || (isZero a && isInf b) then fNaN .mul a b
  else if isInf a || isInf b then fPack (fSign a != fSign b) 0x7F800000
  else fPack (fSign a != fSign b) (roundMag (fMag a * fMag b) (2 ^ 149))

/-- `a / b` (R14). -/
def fDiv (a b : Word) : Word :=
  if isNaN a || isNaN b || (isInf a && isInf b) || (isZero a && isZero b) then fNaN .div a b
  else if isInf a || isZero b then fPack (fSign a != fSign b) 0x7F800000
  else if isInf b then fPack (fSign a != fSign b) 0
  else fPack (fSign a != fSign b) (roundMag (fMag a * 2 ^ 149) (fMag b))

/-- `a < b`, false with a NaN operand (R15). -/
def fLt (a b : Word) : Bool := !isNaN a && !isNaN b && decide (fVal a < fVal b)

/-- `a ≤ b`, false with a NaN operand (R15). -/
def fLe (a b : Word) : Bool := !isNaN a && !isNaN b && decide (fVal a ≤ fVal b)

/-- `a > b` (R15). -/
def fGt (a b : Word) : Bool := fLt b a

/-- `a ≥ b` (R15). -/
def fGe (a b : Word) : Bool := fLe b a

/-- `a != b`: IEEE inequality, true with a NaN operand (R171 uses it on values that are never NaN; log
entry 16). -/
def fNe (a b : Word) : Bool := isNaN a || isNaN b || decide (fVal a ≠ fVal b)

/-- `max(a, b)` of R15. -/
def fMax (a b : Word) : Word := if fGt b a then b else a

/-- `min(a, b)` of R15. -/
def fMin (a b : Word) : Word := if fLt b a then b else a

/-- `clamp(v, lo, hi)` of R15. -/
def fClamp (v lo hi : Word) : Word := fMin (fMax v lo) hi

/-- `floor(v)` of a finite value (R16); free for any other (log entry 8). -/
def fFloor (v : Word) : Int :=
  if isFinite v then fVal v / (2 ^ 149 : Nat) else Config.intOfNonFinite v

/-- `ceil(v)` of a finite value (R16); free for any other (log entry 8). -/
def fCeil (v : Word) : Int :=
  if isFinite v then -((-fVal v) / (2 ^ 149 : Nat)) else Config.intOfNonFinite v

/-- `f32(n)` of a non-negative integer (R13, R16). -/
def fOfNat (n : Nat) : Word := fPack false (roundMag (n * 2 ^ 149) 1)

/-- `f32(n / d)` of a non-negative rational (R13). -/
def fOfRatio (n d : Nat) : Word := fPack false (roundMag (n * 2 ^ 149) d)

end Sys2Proof.Machine
end

