-- ==== Sys2Proof/Machine/Numerics.lean ====
section
/-! DEFINITION. SIN, COS and POW (00_scope.md R17, D3): free functions kept within the properties R17 gives them.
Every triple of functions with those properties is one that these three can be. -/

namespace Sys2Proof.Machine

/-- The value lies in [-1, 1]. -/
def inUnit (v : Word) : Bool := fLe (fNeg fOne) v && fLe v fOne

/-- A binary32 value in [-1, 1] made from a free one (R17). -/
def toUnit (v : Word) : Word := if inUnit v then v else fZero

/-- `SIN(x)`: total; `SIN(0) = 0`; in [-1, 1] for finite x (R17). Which zero `SIN(-0.0)` is stays free (log
entry 10). -/
def fSin (x : Word) : Word :=
  if x = fZero then fZero
  else if isZero x then (if isZero (Config.sinBits x) then Config.sinBits x else fZero)
  else if isFinite x then toUnit (Config.sinBits x)
  else Config.sinBits x

/-- `COS(x)`: total; `COS(0) = 1`; in [-1, 1] for finite x (R17). -/
def fCos (x : Word) : Word :=
  if isZero x then fOne
  else if isFinite x then toUnit (Config.cosBits x)
  else Config.cosBits x

/-- The exponent of the power of two at or below a finite positive value: `2^E ≤ v < 2^(E+1)`. -/
def exponentOf (v : Word) : Int := (Nat.log2 (fMag v) : Int) - 149

/-- `e * E` in units of 2^-149, a bound on `log2 (b^e)`: with `2^E ≤ b < 2^(E+1)`, `b^e` lies between the powers of two of
`e * E` and of `e * (E + 1)`. -/
def powBound (b e : Word) (above : Bool) : Int := fVal e * (exponentOf b + if above then 1 else 0)

/-- Both bounds show `b^e` in [2^-149, 2^127]. -/
def powSurelyIn (b e : Word) : Bool :=
  let lo := min (powBound b e false) (powBound b e true)
  let hi := max (powBound b e false) (powBound b e true)
  decide (-149 * 2 ^ 149 ≤ lo) && decide (hi ≤ 127 * 2 ^ 149)

/-- A bound shows `b^e` at least 2^128, or below 2^-149. -/
def powSurelyOut (b e : Word) : Bool :=
  let lo := min (powBound b e false) (powBound b e true)
  let hi := max (powBound b e false) (powBound b e true)
  decide (128 * 2 ^ 149 ≤ lo) || decide (hi < -149 * 2 ^ 149)

/-- `b^e` compared exactly with both ends of the binary32 range: with `|e| = p / q` and `b = m / k` (for a negative exponent
`k / m`) in lowest terms, both sides raised to the power q. -/
def powExactlyIn (b e : Word) : Bool :=
  let g := Nat.gcd (fMag e) (2 ^ 149)
  let h := Nat.gcd (fMag b) (2 ^ 149)
  let p := fMag e / g
  let q := 2 ^ 149 / g
  let m := fMag b / h
  let k := 2 ^ 149 / h
  let num := if fSign e then k ^ p else m ^ p
  let den := if fSign e then m ^ p else k ^ p
  decide (den ≤ 2 ^ (149 * q) * num) && decide (num ≤ ((2 ^ 24 - 1) * 2 ^ 104) ^ q * den)

/-- `b^e` lies in the binary32 range, from the smallest positive value 2^-149 to the largest finite one, for finite
b > 0 and finite e (R17; log entry 7). The two tests with exponents decide all but the powers near an end of the
range without the large integers of the exact one. -/
def powInRange (b e : Word) : Bool := powSurelyIn b e || (!powSurelyOut b e && powExactlyIn b e)

/-- A finite value greater than 0. -/
def isFinitePos (v : Word) : Bool := isFinite v && fLt fZero v

/-- `POW(b, e)`: total; `POW(b, 0) = 1` and `POW(b, 1) = b` for finite b > 0; finite and positive for finite b > 0 and
finite e with `b^e` in the binary32 range (R17). -/
def fPow (b e : Word) : Word :=
  if isFinitePos b && isZero e then fOne
  else if isFinitePos b && decide (e = fOne) then b
  else if isFinitePos b && isFinite e && powInRange b e then
    (if isFinitePos (Config.powBits b e) then Config.powBits b e else fOne)
  else Config.powBits b e

end Sys2Proof.Machine
end

