-- ==== Sys2Proof/Syntax.lean ====
section
/-! DEFINITION. The host commands of 30_encoding.md R101 and 48_commands.md R271 to R279, each with the data words
that follow its command word (R103) as operands. -/

namespace Sys2Proof

/-- One command with its data words. An index is an unsigned 8-bit number and a count an unsigned 16-bit number
(R106); `Instr.wf` says so. -/
inductive Instr where
  /-- R271 -/
  | nop
  /-- R272: the sample rate -/
  | config (rate : Word)
  /-- R273 -/
  | activate
  /-- R274: the parameter index and the value -/
  | wparam (idx : Nat) (value : Word)
  /-- R275: the register index -/
  | rparam (idx : Nat)
  /-- R276: the sample count of the block -/
  | process (n : Nat)
  /-- R277: the input pair -/
  | sample (x0 x1 : Word)
  /-- R278 -/
  | teardown
  /-- R279 -/
  | clrstat
deriving DecidableEq, Repr

/-- The defined opcodes of R101. -/
inductive Opcode where
  | nop
  | config
  | activate
  | wparam
  | rparam
  | process
  | sample
  | teardown
  | clrstat
deriving DecidableEq, Repr

end Sys2Proof
end

