-- ==== Sys2Proof/WellFormed.lean ====
section
/-! DEFINITION. Which commands have an encoding: IDX is 8 bits and N is 16 bits (30_encoding.md R100, R106). -/

namespace Sys2Proof

/-- A command whose operands fit their fields: IDX is an unsigned 8-bit index, N an unsigned 16-bit count (R106). -/
def Instr.wf : Instr → Bool
  | .nop => true
  | .config _ => true
  | .activate => true
  | .wparam idx _ => decide (idx < 256)
  | .rparam idx => decide (idx < 256)
  | .process n => decide (n < 65536)
  | .sample _ _ => true
  | .teardown => true
  | .clrstat => true

end Sys2Proof
end

