-- ==== Sys2Proof/Decode.lean ====
section
/-! DEFINITION. The command decoder of 30_encoding.md R100 to R106, total on any sequence of port words, and after it
the encoder, written from the same field table. -/

namespace Sys2Proof

/-- The OPC field of each opcode (R101). -/
def Opcode.bits : Opcode → BitVec 4
  | .nop => 0x0#4
  | .config => 0x1#4
  | .activate => 0x2#4
  | .wparam => 0x3#4
  | .rparam => 0x4#4
  | .process => 0x5#4
  | .sample => 0x6#4
  | .teardown => 0x7#4
  | .clrstat => 0x8#4

/-- The opcode of an OPC field; 0x9 to 0xF are reserved (R101). -/
def opcodeOf (b : BitVec 4) : Option Opcode :=
  match b.toNat with
  | 0 => some .nop
  | 1 => some .config
  | 2 => some .activate
  | 3 => some .wparam
  | 4 => some .rparam
  | 5 => some .process
  | 6 => some .sample
  | 7 => some .teardown
  | 8 => some .clrstat
  | _ => none

/-- How many data words follow a command word (R103). -/
def Opcode.dataWords : Opcode → Nat
  | .config => 1
  | .wparam => 1
  | .sample => 2
  | .nop | .activate | .rparam | .process | .teardown | .clrstat => 0

/-- How many result words answer a command word (R103). -/
def Opcode.resultWords : Opcode → Nat
  | .rparam => 1
  | .sample => 2
  | .nop | .config | .activate | .wparam | .process | .teardown | .clrstat => 0

/-- The opcode a command is written with. -/
def Instr.opcode : Instr → Opcode
  | .nop => .nop
  | .config _ => .config
  | .activate => .activate
  | .wparam _ _ => .wparam
  | .rparam _ => .rparam
  | .process _ => .process
  | .sample _ _ => .sample
  | .teardown => .teardown
  | .clrstat => .clrstat

/-- The fields of a command word (R100). -/
def opcField (cw : Word) : BitVec 4 := cw.extractLsb' 28 4
/-- Bits 27:24, reserved (R100). -/
def rsvField (cw : Word) : BitVec 4 := cw.extractLsb' 24 4
/-- Bits 23:16, the parameter index (R100). -/
def idxField (cw : Word) : BitVec 8 := cw.extractLsb' 16 8
/-- Bits 15:0, the sample count (R100). -/
def nField (cw : Word) : BitVec 16 := cw.extractLsb' 0 16

/-- What R104's `decode` answers for one command word. -/
inductive CmdWord where
  /-- `Reserved`: OPC 0x9 to 0xF -/
  | reserved
  /-- `Illegal(opc)`: a defined opcode with a non-zero must-be-zero field -/
  | illegal (opc : Opcode)
  /-- `Cmd(opc, idx, n)` -/
  | cmd (opc : Opcode) (idx n : Nat)
deriving DecidableEq, Repr

/-- `decode(cw)` of R104. -/
def decodeWord (cw : Word) : CmdWord :=
  match opcodeOf (opcField cw) with
  | none => .reserved
  | some opc =>
    if rsvField cw ≠ 0#4 then .illegal opc
    else if opc ≠ .wparam ∧ opc ≠ .rparam ∧ idxField cw ≠ 0#8 then .illegal opc
    else if opc ≠ .process ∧ nField cw ≠ 0#16 then .illegal opc
    else .cmd opc (idxField cw).toNat (nField cw).toNat

/-- What the words at the port begin with. -/
inductive Decoded where
  /-- no whole transaction has arrived yet: the block waits for the next word (R88, R331) -/
  | wait
  /-- rejected: a reserved opcode, which takes no data words (R104) -/
  | reserved (rest : List Word)
  /-- rejected: a non-zero must-be-zero field of `opc`, whose data words are taken (R104) -/
  | illegal (opc : Opcode) (rest : List Word)
  /-- a command with its data words -/
  | cmd (i : Instr) (rest : List Word)
deriving DecidableEq, Repr

/-- The words after the first `n`, if that many have arrived. -/
def dropWords : Nat → List Word → Option (List Word)
  | 0, ws => some ws
  | _ + 1, [] => none
  | n + 1, _ :: ws => dropWords n ws

/-- A decoded command word with the data words of R103 taken from `ws`. -/
def withData (opc : Opcode) (idx n : Nat) (ws : List Word) : Decoded :=
  match opc, ws with
  | .nop, ws => .cmd .nop ws
  | .config, r :: ws => .cmd (.config r) ws
  | .config, [] => .wait
  | .activate, ws => .cmd .activate ws
  | .wparam, v :: ws => .cmd (.wparam idx v) ws
  | .wparam, [] => .wait
  | .rparam, ws => .cmd (.rparam idx) ws
  | .process, ws => .cmd (.process n) ws
  | .sample, x0 :: x1 :: ws => .cmd (.sample x0 x1) ws
  | .sample, _ => .wait
  | .teardown, ws => .cmd .teardown ws
  | .clrstat, ws => .cmd .clrstat ws

/-- The transaction at the head of the words at the port (R103, R104, R270). -/
def decode : List Word → Decoded
  | [] => .wait
  | cw :: ws =>
    match decodeWord cw with
    | .reserved => .reserved ws
    | .illegal opc =>
      match dropWords opc.dataWords ws with
      | some rest => .illegal opc rest
      | none => .wait
    | .cmd opc idx n => withData opc idx n ws

/-- A command word from its fields, RSV being 0 (R100, R102). -/
def cmdWord (opc : Opcode) (idx n : Nat) : Word :=
  opc.bits ++ 0#4 ++ BitVec.ofNat 8 idx ++ BitVec.ofNat 16 n

/-- The command word and the data words of a command (R100, R101, R103). -/
def encode : Instr → List Word
  | .nop => [cmdWord .nop 0 0]
  | .config r => [cmdWord .config 0 0, r]
  | .activate => [cmdWord .activate 0 0]
  | .wparam idx v => [cmdWord .wparam idx 0, v]
  | .rparam idx => [cmdWord .rparam idx 0]
  | .process n => [cmdWord .process 0 n]
  | .sample x0 x1 => [cmdWord .sample 0 0, x0, x1]
  | .teardown => [cmdWord .teardown 0 0]
  | .clrstat => [cmdWord .clrstat 0 0]

/-- The port words of an instruction whose bits are `w`: the command word is bits 31..0, the data words its opcode
takes count on from bit 32, and every bit from `nbits` on is 0. -/
def tableWords (nbits w : Nat) : List Word :=
  let v := w % 2 ^ nbits
  let cw := BitVec.ofNat 32 v
  let count := match opcodeOf (opcField cw) with
    | some opc => opc.dataWords
    | none => 0
  cw :: [BitVec.ofNat 32 (v / 2 ^ 32), BitVec.ofNat 32 (v / 2 ^ 64)].take count

/-- The instruction the decoder reads from an instruction whose bits are `w`. -/
def decodeTableWord (nbits w : Nat) : Option Instr :=
  match decode (tableWords nbits w) with
  | .cmd i _ => some i
  | .wait => none
  | .reserved _ => none
  | .illegal _ _ => none

end Sys2Proof
end

