-- ==== Sys2Proof/Machine/State.lean ====
section
/-! DEFINITION. The state of the block as plain data (10_state.md R30 to R49), the reasons a step can stop, and the
state at power-on (R52, R332). -/

namespace Sys2Proof.Machine

/-- The faults of the machine: there are none. No behaviour of the block stops it or locks it
(93_implementation_defined.md, treatments; 60_exceptions.md R300, R308). -/
inductive Fault where
deriving DecidableEq, Repr

/-- The refusals of the machine. -/
inductive Refusal where
  /-- Raised by an arm of `exec` that has no meaning; no arm raises it. It is safe: nothing can be proved of the
  state after it. -/
  | notModelled (mnemonic : String)
deriving DecidableEq, Repr

/-- The crossfade states of R170. -/
inductive Fsm where
  | fadeOut
  | fadeOutDone
  | fillBuf
  | fadeIn
  | cycle
deriving DecidableEq, Repr

/-- The parameter register file `P0`..`P25` of R32, one bank. -/
abbrev Bank := Vector Word 26

/-- A bank of +0.0 (R52). -/
def Bank.zero : Bank := Vector.replicate 26 0#32

/-- What the words of the delay buffer that no entry lists hold. -/
inductive Fill where
  /-- +0.0, after `CLEAR_BUF` (R156) -/
  | zero
  /-- unspecified (R52), in the `epoch`-th unspecified period -/
  | unspec (epoch : Nat)
deriving DecidableEq, Repr

/-- The delay buffer memory of R46 and R80(c): one list of stored bytes per channel, word `i` at the four byte
addresses from `4 * i` (log entry 4), and what every other byte holds. -/
structure Memory where
  fill : Fill
  cells : Pair (List Host.Cell)
deriving DecidableEq, Repr

/-- The configuration registers of R42, all written by `CONFIG` from R8. -/
structure Constants where
  /-- `RATE` -/
  rate : Word
  /-- `C`, the capacity -/
  cap : Nat
  /-- `MOD_MARGIN` -/
  modMargin : Nat
  /-- `FADE_LEN` -/
  fadeLen : Nat
  /-- `ATT` -/
  att : Word
  /-- `REL` -/
  rel : Word
  /-- `FILT_F_MAX` -/
  filtFMax : Word
  /-- `D_MAX` -/
  dMax : Word
  /-- `OMK_GAIN` -/
  omkGain : Word
  /-- `OMK_DELAY` -/
  omkDelay : Word
deriving DecidableEq, Repr

/-- The configuration registers before a `CONFIG` and after `TEARDOWN` (R52). -/
def Constants.zero : Constants where
  rate := 0#32
  cap := 0
  modMargin := 0
  fadeLen := 0
  att := 0#32
  rel := 0#32
  filtFMax := 0#32
  dMax := 0#32
  omkGain := 0#32
  omkDelay := 0#32

/-- One value per smoother of R43. -/
structure Smoothers where
  dry : Word
  wet : Word
  inp : Word
  fb : Word
  cf : Word
  depth : Word
  rate : Word
  d : Pair Word
deriving DecidableEq, Repr

/-- Every smoother at +0.0 (R52). -/
def Smoothers.zero : Smoothers where
  dry := 0#32
  wet := 0#32
  inp := 0#32
  fb := 0#32
  cf := 0#32
  depth := 0#32
  rate := 0#32
  d := ⟨0#32, 0#32⟩

/-- The decoded snapshot of R44. -/
structure Snapshot where
  tempoC : Word
  divIdx : Pair Nat
  dRes : Pair Word
  fbLin : Word
  cfLin : Word
  dryLin : Word
  wetLin : Word
  on : Sites Bool
  f : Sites Word
  q : Sites Word
  modOn : Bool
  invIn : Bool
  en : Bool
  tr : Bool
  pp : Bool
  depthC : Word
  rateC : Word
deriving DecidableEq, Repr

/-- The decoded snapshot at 0 / false (R52). -/
def Snapshot.zero : Snapshot where
  tempoC := 0#32
  divIdx := ⟨0, 0⟩
  dRes := ⟨0#32, 0#32⟩
  fbLin := 0#32
  cfLin := 0#32
  dryLin := 0#32
  wetLin := 0#32
  on := ⟨false, false, false, false⟩
  f := ⟨0#32, 0#32, 0#32, 0#32⟩
  q := ⟨0#32, 0#32, 0#32, 0#32⟩
  modOn := false
  invIn := false
  en := false
  tr := false
  pp := false
  depthC := 0#32
  rateC := 0#32

/-- The committed snapshot of R45: `com_valid`, `com_tempo`, `com_div`, `com_pp`. -/
structure Committed where
  valid : Bool
  tempo : Word
  div : Pair Nat
  pp : Bool
deriving DecidableEq, Repr

/-- One biquad's history and warm-up counter (R49). -/
structure Biquad where
  x1 : Word
  x2 : Word
  y1 : Word
  y2 : Word
  fill : Nat
deriving DecidableEq, Repr

/-- A biquad after `CONFIG`, `ACTIVATE` and `TEARDOWN` (R52, R138). -/
def Biquad.zero : Biquad where
  x1 := 0#32
  x2 := 0#32
  y1 := 0#32
  y2 := 0#32
  fill := 0

/-- The engine state of R43 and R45 to R49 that `CONFIG`, `ACTIVATE` and `TEARDOWN` reset alike; the buffers and the
decoded snapshot stand apart. -/
structure Engine where
  /-- `cur_X` -/
  cur : Smoothers
  /-- `tgt_X` -/
  tgt : Smoothers
  fsm : Fsm
  /-- `fade_pos` -/
  fadePos : Nat
  /-- `fill_cnt` -/
  fillCnt : Nat
  com : Committed
  /-- `w`, the write index -/
  w : Nat
  phase : Word
  inc : Word
  /-- `inv_lat` -/
  invLat : Bool
  env : Pair Word
  /-- `F[s][ch]` -/
  filt : Sites (Pair Biquad)
deriving DecidableEq, Repr

/-- The engine's reset values: every row of R52's table from `w` on is the same in all four columns. -/
def Engine.reset : Engine where
  cur := Smoothers.zero
  tgt := Smoothers.zero
  fsm := .fillBuf
  fadePos := 0
  fillCnt := 0
  com := ⟨false, 0#32, ⟨0, 0⟩, false⟩
  w := 0
  phase := 0#32
  inc := 0#32
  invLat := false
  env := ⟨0#32, 0#32⟩
  filt := ⟨⟨.zero, .zero⟩, ⟨.zero, .zero⟩, ⟨.zero, .zero⟩, ⟨.zero, .zero⟩⟩

/-- The whole state of the block, with the two queues of its command port. -/
structure State where
  /-- The parameters of R7. No command writes them (log entry 2). -/
  params : Params
  /-- Words the host has sent and the block has not taken, oldest first (R80(a); log entry 1). -/
  inq : List Word
  /-- Result words the block has returned, oldest first (R80(a); log entry 1). -/
  outq : List Word
  /-- `Pend[0..25]` (R33) -/
  pend : Bank
  /-- `P[0..25]`, the active bank (R33) -/
  active : Bank
  /-- STATUS.CFG (R39) -/
  cfg : Bool
  /-- STATUS.ACT (R39) -/
  act : Bool
  /-- STATUS.ERR, bits 14:8: bit `code - 1` here is STATUS bit `7 + code` (R39) -/
  err : BitVec 7
  /-- STATUS.LAST_ERR, bits 19:16 (R39) -/
  lastErr : BitVec 4
  /-- `BLOCK_REMAIN` (R31) -/
  blockRemain : BitVec 16
  /-- `TEMPO_OUT` (R41) -/
  tempoOut : Word
  /-- The configuration registers (R42) -/
  const : Constants
  /-- The decoded snapshot (R44) -/
  snap : Snapshot
  /-- The engine state (R43, R45 to R49) -/
  eng : Engine
  /-- `Buf[0]` and `Buf[1]` (R46) -/
  mem : Memory
  /-- The MODEL's own counter of unspecified periods of the buffer, from which the next takes its free contents
  (R52 "unspec"; log entry 5). -/
  epoch : Nat
deriving DecidableEq, Repr

/-- The state at power-on with the parameters `p` (R52's power-on column, R332), no word at the port. -/
def State.resetWith (p : Params) : State where
  params := p
  inq := []
  outq := []
  pend := Bank.zero
  active := Bank.zero
  cfg := false
  act := false
  err := 0#7
  lastErr := 0#4
  blockRemain := 0#16
  tempoOut := 0#32
  const := Constants.zero
  snap := Snapshot.zero
  eng := Engine.reset
  mem := ⟨.unspec 0, ⟨[], []⟩⟩
  epoch := 1

/-- The machine right after power-on, with R7's default parameters. -/
def State.reset : State := State.resetWith Params.default

end Sys2Proof.Machine
end

