-- ==== Sys2Proof/Machine/Flags.lean ====
section
/-! DEFINITION. The STATUS register (10_state.md R39, R40): its word is composed from the state that its fields show,
and the error codes of 60_exceptions.md R301. -/

namespace Sys2Proof.Machine

/-- The error codes of R301. -/
inductive ErrCode where
  | illegalCmd
  | badIndex
  | notConfigured
  | notActive
  | sequence
  | configFail
  | paramNan
deriving DecidableEq, Repr

/-- The number of an error code (R301): 1 to 7. -/
def ErrCode.code : ErrCode → Nat
  | .illegalCmd => 1
  | .badIndex => 2
  | .notConfigured => 3
  | .notActive => 4
  | .sequence => 5
  | .configFail => 6
  | .paramNan => 7

/-- The 3-bit code of a crossfade state (R170). -/
def Fsm.code : Fsm → BitVec 3
  | .fadeOut => 0#3
  | .fadeOutDone => 1#3
  | .fillBuf => 2#3
  | .fadeIn => 3#3
  | .cycle => 4#3

/-- STATUS.BLK: a block is open (R39). -/
def State.blk (s : State) : Bool := decide (s.blockRemain ≠ 0#16)

/-- The STATUS word, from bit 31 down: reserved 31:20, LAST_ERR 19:16, reserved 15, ERR 14:8, reserved 7, FSM 6:4,
reserved 3, BLK 2, ACT 1, CFG 0 (R39). -/
def State.status (s : State) : Word :=
  0#12 ++ s.lastErr ++ 0#1 ++ s.err ++ 0#1 ++ s.eng.fsm.code ++ 0#1
    ++ BitVec.ofBool s.blk ++ BitVec.ofBool s.act ++ BitVec.ofBool s.cfg

/-- ERR with the sticky bit of `e` set: STATUS bit `7 + code`, bit `code - 1` of the field (R39, R304). -/
def setErrBit (err : BitVec 7) (e : ErrCode) : BitVec 7 := err ||| (1#7 <<< (e.code - 1))

end Sys2Proof.Machine
end

