-- ==== Sys2Proof/Machine/Ops.lean ====
section
/-! DEFINITION. The named operations over memory, the command port and the status fields: the delay buffer's bytes
and words (20_memory.md R80 to R84, 42_delay_buffer.md R150, R156), result words, recording an error and failing a
command (60_exceptions.md R304, R305). -/

namespace Sys2Proof.Machine

/-- The byte listed at an address. -/
def cellAt : List Host.Cell → Nat → Option Byte
  | [], _ => none
  | (b, v) :: t, a => if a = b then some v else cellAt t a

/-- The list with byte `v` at address `a`, in canonical form: rising addresses, nothing listed that equals `u`, what
address `a` holds when unlisted. -/
def putCell (u : Byte) (a : Nat) (v : Byte) : List Host.Cell → List Host.Cell
  | [] => if v = u then [] else [(a, v)]
  | (b, x) :: t =>
    if a < b then (if v = u then (b, x) :: t else (a, v) :: (b, x) :: t)
    else if a = b then (if v = u then t else (a, v) :: t)
    else (b, x) :: putCell u a v t

/-- Addresses rise strictly, from `lo` on. -/
def risingFrom : Nat → List Host.Cell → Bool
  | _, [] => true
  | lo, (a, _) :: t => decide (lo ≤ a) && risingFrom (a + 1) t

/-- What byte `a` of channel `ch` holds when nothing lists it: +0.0 after `CLEAR_BUF` (R156), free while the buffer is
unspecified (R52). -/
def unlistedByte (f : Fill) (ch : Chan) (a : Nat) : Byte :=
  match f with
  | .zero => 0#8
  | .unspec k => Config.unspecByte k ch a

/-- Byte `a` of channel `ch`. -/
def Memory.readByte (m : Memory) (ch : Chan) (a : Nat) : Byte :=
  match cellAt (m.cells.get ch) a with
  | some v => v
  | none => unlistedByte m.fill ch a

/-- The memory with byte `a` of channel `ch` replaced. -/
def Memory.writeByte (m : Memory) (ch : Chan) (a : Nat) (v : Byte) : Memory :=
  { m with cells := m.cells.set ch (putCell (unlistedByte m.fill ch a) a v (m.cells.get ch)) }

/-- `Buf[ch][i]`: word `i` is the bytes from `4 * i`, least significant first (R82; log entry 4). -/
def Memory.readWord (m : Memory) (ch : Chan) (i : Nat) : Word :=
  m.readByte ch (4 * i + 3) ++ m.readByte ch (4 * i + 2) ++ m.readByte ch (4 * i + 1) ++ m.readByte ch (4 * i)

/-- `Buf[ch][i] <- v`. -/
def Memory.writeWord (m : Memory) (ch : Chan) (i : Nat) (v : Word) : Memory :=
  (((m.writeByte ch (4 * i) (v.extractLsb' 0 8)).writeByte ch (4 * i + 1) (v.extractLsb' 8 8)).writeByte
    ch (4 * i + 2) (v.extractLsb' 16 8)).writeByte ch (4 * i + 3) (v.extractLsb' 24 8)

/-- `CLEAR_BUF`: every word of both buffers is +0.0 (R156). -/
def Memory.cleared : Memory := ⟨.zero, ⟨[], []⟩⟩

/-- Both buffers unspecified, in the period `k` (R52). -/
def Memory.unspecified (k : Nat) : Memory := ⟨.unspec k, ⟨[], []⟩⟩

/-- One channel's list is canonical: rising addresses, no entry equal to the unlisted byte. -/
def cellsWf (f : Fill) (ch : Chan) (l : List Host.Cell) : Bool :=
  risingFrom 0 l && l.all (fun c => decide (c.2 ≠ unlistedByte f ch c.1))

/-- The memory's canonical form, which makes equal buffers equal data. -/
def Memory.wf (m : Memory) : Bool := cellsWf m.fill .c0 m.cells.c0 && cellsWf m.fill .c1 m.cells.c1

/-- The state whose unread port words are `ws` (R12 `in()`). -/
def State.withIn (s : State) (ws : List Word) : State := { s with inq := ws }

/-- `out <- v` for each result word in turn (R12). The words stay in `outq` (log entry 13). -/
def State.emit (s : State) (vs : List Word) : State := { s with outq := s.outq ++ vs }

/-- `raise Error(code)`: TAKING AN EXCEPTION on this block. The sticky bit and LAST_ERR, nothing else (R304); control
goes nowhere and there is no return (R308). -/
def State.raise (s : State) (e : ErrCode) : State :=
  { s with err := setErrBit s.err e, lastErr := BitVec.ofNat 4 e.code }

/-- A command suppressed with error `e`: the error recorded and every result word of the command 0x00000000
(R270, R305). -/
def State.fail (s : State) (e : ErrCode) (results : Nat) : State :=
  (s.raise e).emit (List.replicate results 0#32)

end Sys2Proof.Machine
end

