-- ==== Sys2Proof/Machine/Operands.lean ====
section
/-! DEFINITION. The operand forms: the parameter index space (10_state.md R32, R38; 20_memory.md R86), the snapshot's
NaN substitution (R36) and flag decoding (R37). -/

namespace Sys2Proof.Machine

/-- The pending register of an index, where the index names one: 0 to 25 (R86). -/
def pendIndex (idx : Nat) : Option (Fin 26) :=
  if h : idx < 26 then some ⟨idx, h⟩ else none

/-- What `RPARAM` returns for an index; none where the index is unassigned (R38, R86, R275). A
constant above 32 bits returns its low word (DESIGN CHOICE, log entry 17). -/
def State.readReg (s : State) (idx : Nat) : Option Word :=
  match pendIndex idx with
  | some i => some s.pend[i]
  | none =>
    if idx = 0x40 then some s.tempoOut
    else if idx = 0x41 then some s.status
    else if idx = 0x42 then some (BitVec.ofNat 32 s.const.cap)
    else if idx = 0x43 then some (BitVec.ofNat 32 s.const.fadeLen)
    else if idx = 0x44 then some (s.blockRemain.setWidth 32)
    else if idx = 0x45 then some (BitVec.ofNat 32 s.const.modMargin)
    else if idx = 0x46 then some s.const.rate
    else none

/-- The pending bank with register `i` replaced (R34, R274). -/
def State.writePend (s : State) (i : Fin 26) (v : Word) : State := { s with pend := s.pend.set i v }

/-- What the snapshot takes from a pending register: +0.0 for a NaN (R36). -/
def substNaN (v : Word) : Word := if isNaN v then fZero else v

/-- The active bank that `PROCESS` takes from the pending bank (R33, R36). -/
def snapshotBank (b : Bank) : Bank := b.map substNaN

/-- Some register of the bank holds a NaN (R36, R303). -/
def bankHasNaN (b : Bank) : Bool := b.toList.any isNaN

/-- `FLAG(v)` (R37). -/
def flagOf (p : Params) (v : Word) : Bool := fGe v p.flagThreshold

/-- The index of site `s`'s on register: `7 + 3s` (R139). -/
def onIndex : Site → Fin 26
  | .ihc => 7
  | .ilc => 10
  | .fhc => 13
  | .flc => 16

/-- The index of site `s`'s frequency register: `8 + 3s` (R139). -/
def freqIndex : Site → Fin 26
  | .ihc => 8
  | .ilc => 11
  | .fhc => 14
  | .flc => 17

/-- The index of site `s`'s Q register: `9 + 3s` (R139). -/
def qIndex : Site → Fin 26
  | .ihc => 9
  | .ilc => 12
  | .fhc => 15
  | .flc => 18

/-- The index of channel `ch`'s divider register: `1 + ch` (R205). -/
def divIndex : Chan → Fin 26
  | .c0 => 1
  | .c1 => 2

/-- One value per site, from a function of the site. -/
def perSite {α : Type} (f : Site → α) : Sites α := ⟨f .ihc, f .ilc, f .fhc, f .flc⟩

/-- One value per channel, from a function of the channel. -/
def perChan {α : Type} (f : Chan → α) : Pair α := ⟨f .c0, f .c1⟩

/-- The other channel, `o = 1 - ch` (R241). -/
def otherChan : Chan → Chan
  | .c0 => .c1
  | .c1 => .c0

end Sys2Proof.Machine
end

