-- ==== Sys2Proof/Machine/Biquad.lean ====
section
/-! DEFINITION. The biquad filter and its two chains (41_biquad.md R130 to R140, 46_mixer_limiter.md R238, R239). -/

namespace Sys2Proof.Machine

/-- The five normalised coefficients of R135. -/
structure Coeffs where
  c0 : Word
  c1 : Word
  c2 : Word
  d1 : Word
  d2 : Word
deriving DecidableEq, Repr

/-- The variant of a site: sites 0 and 2 are high-cut, 1 and 3 low-cut (R130, R239). -/
def isHighCut : Site → Bool
  | .ihc => true
  | .ilc => false
  | .fhc => true
  | .flc => false

/-- `b0` from `cs = COS(w0)`; `b2 = b0` (R133, R134). -/
def numer0 (highCut : Bool) (cs : Word) : Word :=
  if highCut then fDiv (fSub fOne cs) fTwo else fDiv (fAdd fOne cs) fTwo

/-- `b1` from `cs = COS(w0)` (R133, R134). -/
def numer1 (highCut : Bool) (cs : Word) : Word :=
  if highCut then fSub fOne cs else fNeg (fAdd fOne cs)

/-- The coefficients from `cs = COS(w0)`, `sn = SIN(w0)` and q (R135). -/
def coeffsOf (highCut : Bool) (cs sn q : Word) : Coeffs :=
  let alpha := fDiv sn (fMul fTwo q)
  let a0 := fAdd fOne alpha
  let a1 := fMul (fNeg fTwo) cs
  let a2 := fSub fOne alpha
  let b0 := numer0 highCut cs
  let b1 := numer1 highCut cs
  { c0 := fDiv b0 a0, c1 := fDiv b1 a0, c2 := fDiv b0 a0, d1 := fDiv a1 a0, d2 := fDiv a2 a0 }

/-- `w0 = (TWO_PI * f) / RATE` (R135). -/
def omega0 (f rate : Word) : Word := fDiv (fMul fTwoPi f) rate

/-- `coeffs(s)` of R135: a pure function of the site's frequency, its Q, RATE and the variant (R137). -/
def siteCoeffs (c : Constants) (sn : Snapshot) (s : Site) : Coeffs :=
  let w0 := omega0 (sn.f.get s) c.rate
  coeffsOf (isHighCut s) (fCos w0) (fSin w0) (sn.q.get s)

/-- `BQ_EQ(F, x, coeffs)` (R136). -/
def biquadEq (k : Coeffs) (F : Biquad) (x : Word) : Word :=
  fSub (fSub (fAdd (fAdd (fMul k.c0 x) (fMul k.c1 F.x1)) (fMul k.c2 F.x2)) (fMul k.d1 F.y1)) (fMul k.d2 F.y2)

/-- The output of one call: the input during the three warm-up calls, the difference equation after (R132). -/
def biquadOut (k : Coeffs) (F : Biquad) (x : Word) : Word :=
  if F.fill < 3 then x else biquadEq k F x

/-- The instance after a call with input x and output y: the history shifted, the warm-up counted (R132). -/
def biquadNext (F : Biquad) (x y : Word) : Biquad :=
  { x1 := x, x2 := F.x1, y1 := y, y2 := F.y1, fill := if F.fill < 3 then F.fill + 1 else F.fill }

/-- `F[s][ch]` replaced. -/
def Engine.setFilt (e : Engine) (s : Site) (ch : Chan) (F : Biquad) : Engine :=
  { e with filt := e.filt.set s ((e.filt.get s).set ch F) }

/-- The value that leaves site `s` for channel `ch`: `BQ(s, ch, x)` if the site is on, x itself if it is off
(R132, R238, R239). -/
def siteOut (c : Constants) (sn : Snapshot) (s : Site) (ch : Chan) (e : Engine) (x : Word) : Word :=
  if sn.on.get s then biquadOut (siteCoeffs c sn s) ((e.filt.get s).get ch) x else x

/-- The engine after site `s` has seen x on channel `ch`; an off site's instance is held (R138, R239). -/
def siteNext (c : Constants) (sn : Snapshot) (s : Site) (ch : Chan) (e : Engine) (x : Word) : Engine :=
  if sn.on.get s then e.setFilt s ch (biquadNext ((e.filt.get s).get ch) x (siteOut c sn s ch e x)) else e

/-- Two sites in a row: the engine after both and the value that leaves the second. -/
def chain (c : Constants) (sn : Snapshot) (s1 s2 : Site) (ch : Chan) (e : Engine) (x : Word) : Engine × Word :=
  let u := siteOut c sn s1 ch e x
  let e1 := siteNext c sn s1 ch e x
  (siteNext c sn s2 ch e1 u, siteOut c sn s2 ch e1 u)

/-- `INFILT(ch, x)` (R238). -/
def inputFilter (c : Constants) (sn : Snapshot) (ch : Chan) (e : Engine) (x : Word) : Engine × Word :=
  chain c sn .ihc .ilc ch e x

/-- `FBFILT(ch, l)` (R239). -/
def feedbackFilter (c : Constants) (sn : Snapshot) (ch : Chan) (e : Engine) (l : Word) : Engine × Word :=
  chain c sn .fhc .flc ch e l

end Sys2Proof.Machine
end

