-- ==== Sys2Proof/Machine/Crossfade.lean ====
section
/-! DEFINITION. The crossfade state machine (43_crossfade_fsm.md R170 to R182). -/

namespace Sys2Proof.Machine

/-- `change` (R171). -/
def changed (sn : Snapshot) (com : Committed) : Bool :=
  !com.valid || fNe sn.tempoC com.tempo || decide (sn.divIdx.c0 ≠ com.div.c0) || decide (sn.divIdx.c1 ≠ com.div.c1)
    || decide (sn.pp ≠ com.pp)

/-- `mute` (R172). -/
def muted (sn : Snapshot) : Bool := !sn.en && !sn.tr

/-- The forced fade-out (R173). -/
def forcedFsm (sn : Snapshot) (com : Committed) (f : Fsm) : Fsm :=
  match f with
  | .fillBuf | .fadeIn | .cycle => if changed sn com || muted sn then .fadeOut else f
  | .fadeOut | .fadeOutDone => f

/-- The engine after a commit (R174). -/
def commitEngine (sn : Snapshot) (e : Engine) : Engine :=
  { e with
    com := ⟨true, sn.tempoC, sn.divIdx, sn.pp⟩
    tgt := { e.tgt with d := sn.dRes }
    w := 0
    fillCnt := 0
    fsm := .fillBuf }

/-- The buffers after a commit: cleared under CLEAR_POLICY = CLEAR (R156, R174). -/
def commitMemory (p : Params) (m : Memory) : Memory :=
  match p.clearPolicy with
  | .clear => Memory.cleared
  | .keep => m

/-- `thr` of R176. -/
def fillThreshold (p : Params) (c : Constants) (e : Engine) : Int :=
  min (c.cap : Int) (fCeil (fMax e.tgt.d.c0 e.tgt.d.c1) + c.modMargin + p.limMargin)

/-- The FADE_OUT action (R175). -/
def fadeOutAction (e : Engine) : Engine :=
  { e with fadePos := e.fadePos - 1, fsm := if e.fadePos - 1 = 0 then .fadeOutDone else .fadeOut }

/-- The FADE_OUT_DONE action: hold while muted, else commit (R174). -/
def fadeOutDoneAction (sn : Snapshot) (e : Engine) : Engine :=
  if muted sn then e else commitEngine sn e

/-- The FILL_BUF action (R176). -/
def fillBufAction (p : Params) (c : Constants) (e : Engine) : Engine :=
  { e with fadePos := 0, fsm := if fillThreshold p c e ≤ (e.fillCnt : Int) then .fadeIn else .fillBuf }

/-- The FADE_IN action (R177). -/
def fadeInAction (c : Constants) (e : Engine) : Engine :=
  { e with fadePos := e.fadePos + 1, fsm := if e.fadePos + 1 = c.fadeLen then .cycle else .fadeIn }

/-- The CYCLE action (R178). -/
def cycleAction (c : Constants) (e : Engine) : Engine := { e with fadePos := c.fadeLen }

/-- The engine after one `FSM_STEP` (R179): the forced fade-out, then the one action of the state then held. -/
def fsmEngine (p : Params) (c : Constants) (sn : Snapshot) (e : Engine) : Engine :=
  match forcedFsm sn e.com e.fsm with
  | .fadeOut => fadeOutAction { e with fsm := .fadeOut }
  | .fadeOutDone => fadeOutDoneAction sn { e with fsm := .fadeOutDone }
  | .fillBuf => fillBufAction p c { e with fsm := .fillBuf }
  | .fadeIn => fadeInAction c { e with fsm := .fadeIn }
  | .cycle => cycleAction c { e with fsm := .cycle }

/-- Whether this `FSM_STEP` commits: FADE_OUT_DONE and not muted (R174). -/
def commits (sn : Snapshot) (e : Engine) : Bool := decide (e.fsm = .fadeOutDone) && !muted sn

/-- The buffers after one `FSM_STEP`: only a commit touches them (R174, R179). -/
def fsmMemory (p : Params) (sn : Snapshot) (e : Engine) (m : Memory) : Memory :=
  if commits sn e then commitMemory p m else m

/-- The fade coefficient after the action (R178). -/
def fadeOf (c : Constants) (e : Engine) : Word := fDiv (fOfNat e.fadePos) (fOfNat c.fadeLen)

end Sys2Proof.Machine
end

