-- ==== Sys2Proof/Machine/Delay.lean ====
section
/-! DEFINITION. The delay buffer: write, interpolated read and advance (42_delay_buffer.md R150 to R160). -/

namespace Sys2Proof.Machine

/-- `BufWrite(ch, i, v)` (R150); with C = 0, where no step runs, `i mod C` is i (log entry 11). -/
def bufWrite (c : Constants) (m : Memory) (ch : Chan) (i : Nat) (v : Word) : Memory :=
  m.writeWord ch (i % c.cap) v

/-- The read position `(f32(w) - cur_d) + m` (R152). -/
def readPosition (w : Nat) (d offset : Word) : Word := fAdd (fSub (fOfNat w) d) offset

/-- How many times the loops of R153 may run. No finite position needs more: 2^25 wraps of C bring any position that
a wrap still moves into [0, C) (log entry 9). -/
def wrapFuel : Nat := 2 ^ 27

/-- `while q < 0.0: q = q + f32(C)` (R153). -/
def wrapUp : Nat → Word → Word → Word
  | 0, _, q => q
  | n + 1, capF, q => if fLt q fZero then wrapUp n capF (fAdd q capF) else q

/-- `while q >= f32(C): q = q - f32(C)` (R153). -/
def wrapDown : Nat → Word → Word → Word
  | 0, _, q => q
  | n + 1, capF, q => if fGe q capF then wrapDown n capF (fSub q capF) else q

/-- The wrapped position of R153. -/
def wrapPosition (c : Constants) (p : Word) : Word :=
  wrapDown wrapFuel (fOfNat c.cap) (wrapUp wrapFuel (fOfNat c.cap) p)

/-- The interpolation of R153 at a wrapped position q. -/
def interpolate (c : Constants) (m : Memory) (ch : Chan) (q : Word) : Word :=
  let k := (fFloor q).toNat
  let frac := fSub q (fOfNat k)
  let i := k % c.cap
  let j := (i + 1) % c.cap
  let a := m.readWord ch i
  let b := m.readWord ch j
  fAdd a (fMul frac (fSub b a))

/-- `READ(ch, p)` (R153); where the wrap does not reach [0, C), which no position of R152 causes (R154), the word read
is free (log entry 9). -/
def readInterp (c : Constants) (m : Memory) (ch : Chan) (p : Word) : Word :=
  let q := wrapPosition c p
  if fLe fZero q && fLt q (fOfNat c.cap) then interpolate c m ch q else Config.readOutOfRange ch p

/-- The end of a sample step: `w` and `fill_cnt` advance (R155). -/
def advance (c : Constants) (e : Engine) : Engine :=
  { e with w := (e.w + 1) % c.cap, fillCnt := min (e.fillCnt + 1) c.cap }

end Sys2Proof.Machine
end

