-- ==== Sys2Proof/Machine/Lfo.lean ====
section
/-! DEFINITION. The modulation oscillator (45_lfo.md R220 to R228). -/

namespace Sys2Proof.Machine

/-- The depth in samples, `(cur_depth / 1000.0) * RATE` (R224). -/
def lfoAmp (c : Constants) (e : Engine) : Word := fMul (fDiv e.cur.depth fThousand) c.rate

/-- `m[0]` and `m[1]`, from the phase before the advance (R221). -/
def lfoOffsets (c : Constants) (e : Engine) : Pair Word :=
  let off := fMul (lfoAmp c e) (fSin e.phase)
  ⟨off, if e.invLat then fNeg off else off⟩

/-- The increment `(TWO_PI * cur_rate) / RATE` (R223). -/
def lfoInc (c : Constants) (e : Engine) : Word := fDiv (fMul fTwoPi e.cur.rate) c.rate

/-- The engine after the phase advance, its wrap and the inversion latch (R221, R222). -/
def lfoEngine (c : Constants) (sn : Snapshot) (e : Engine) : Engine :=
  let inc := lfoInc c e
  let ph := fAdd e.phase inc
  if fGe ph fTwoPi then { e with inc := inc, phase := fSub ph fTwoPi, invLat := sn.invIn }
  else { e with inc := inc, phase := ph }

end Sys2Proof.Machine
end

