-- ==== Sys2Proof/Machine/Mixer.lean ====
section
/-! DEFINITION. The peak limiter, the fade gate, the feedback / crossfeed mixer and the output
(46_mixer_limiter.md R235 to R246). -/

namespace Sys2Proof.Machine

/-- The envelope after tap x: ATT while the tap's magnitude exceeds the envelope, else REL (R235). -/
def limiterEnv (c : Constants) (env x : Word) : Word :=
  let ax := fAbs x
  let coef := if fGt ax env then c.att else c.rel
  fAdd (fMul coef (fSub env ax)) ax

/-- The limited tap, from the updated envelope (R235). -/
def limiterOut (env' x : Word) : Word := if fGt env' fOne then fDiv x env' else x

/-- The words to write in normal mode (R241). -/
def mixNormal (cur : Smoothers) (fin tg : Pair Word) : Pair Word :=
  perChan (fun ch =>
    fAdd (fAdd (fMul cur.inp (fin.get ch)) (fMul (tg.get ch) cur.fb)) (fMul (tg.get (otherChan ch)) cur.cf))

/-- The words to write in ping-pong mode (R242). -/
def mixPingPong (p : Params) (cur : Smoothers) (fin tg : Pair Word) : Pair Word where
  c0 := fAdd (fAdd (fMul cur.inp (fMul p.ppGain (fAdd fin.c0 fin.c1))) (fMul tg.c0 cur.fb)) (fMul tg.c1 cur.cf)
  c1 := fAdd (fMul tg.c1 cur.fb) (fMul tg.c0 cur.cf)

/-- `MIX(fin, tg)`: R241 if not `pp`, R242 if `pp` (R255 step 6). -/
def mix (p : Params) (sn : Snapshot) (cur : Smoothers) (fin tg : Pair Word) : Pair Word :=
  if sn.pp then mixPingPong p cur fin tg else mixNormal cur fin tg

/-- `y[ch] = (x[ch] * cur_dry) + (tg[ch] * cur_wet)` (R243). -/
def outputs (cur : Smoothers) (x tg : Pair Word) : Pair Word :=
  perChan (fun ch => fAdd (fMul (x.get ch) cur.dry) (fMul (tg.get ch) cur.wet))

end Sys2Proof.Machine
end

