-- ==== Sys2Proof/Machine/Smoothing.lean ====
section
/-! DEFINITION. Smoothers, gain laws, targets and the tempo / delay-time resolver (44_smoothing.md R190 to R210). -/

namespace Sys2Proof.Machine

/-- One update of one smoother, `(tgt * K) + (cur * OMK)` (R190). -/
def smooth (k omk tgt cur : Word) : Word := fAdd (fMul tgt k) (fMul cur omk)

/-- `SMOOTH` of all nine smoothers, with the coefficients of R43 (R190, R191). -/
def smoothAll (p : Params) (c : Constants) (tgt cur : Smoothers) : Smoothers where
  dry := smooth p.kGain c.omkGain tgt.dry cur.dry
  wet := smooth p.kGain c.omkGain tgt.wet cur.wet
  inp := smooth p.kGain c.omkGain tgt.inp cur.inp
  fb := smooth p.kGain c.omkGain tgt.fb cur.fb
  cf := smooth p.kGain c.omkGain tgt.cf cur.cf
  depth := smooth p.kGain c.omkGain tgt.depth cur.depth
  rate := smooth p.kGain c.omkGain tgt.rate cur.rate
  d := perChan (fun ch => smooth p.kDelay c.omkDelay (tgt.d.get ch) (cur.d.get ch))

/-- `DB2LIN(v)` (R194). -/
def dbToLin (p : Params) (v : Word) : Word :=
  if fLt v p.dbFloor then fZero
  else if fGt v p.dbCeil then fPow fTen (fDiv p.dbCeil fTwenty)
  else fPow fTen (fDiv v fTwenty)

/-- `PCT2LIN(v)` (R195). -/
def pctToLin (v : Word) : Word :=
  if fGt v fNinetyNine then fOne
  else if fGt v fZero then fDiv v fHundred
  else fZero

/-- `FBLAW(v)` (R196). -/
def feedbackLaw (p : Params) (v : Word) : Word :=
  match p.fbLaw with
  | .percent => pctToLin v
  | .db => dbToLin p v

/-- `div_idx`: `floor(clamp(v, 0.0, f32(K - 1)))` (R205). -/
def dividerIndex (p : Params) (v : Word) : Nat :=
  (fFloor (fClamp v fZero (fOfNat (p.divTable.length - 1)))).toNat

/-- The beat count of a divider index, `DIV_TABLE[i]` (R205); 0 past the table, which no index of R205 is (log
entry 12). -/
def beatsOf (p : Params) (i : Nat) : Word := p.divTable.getD i fZero

/-- `tempo_c` (R206). -/
def clampTempo (p : Params) (v : Word) : Word := fMax v p.tempoMinBpm

/-- `d_res` of a clamped tempo and a divider index (R207). -/
def resolveDelay (p : Params) (c : Constants) (tempoC : Word) (idx : Nat) : Word :=
  fClamp (fMul (fMul (fDiv fSixty tempoC) (beatsOf p idx)) c.rate) fZero c.dMax

/-- The decoding of the active bank `b` into the snapshot of R44 (R35, R276). -/
def decodeSnapshot (p : Params) (c : Constants) (b : Bank) : Snapshot where
  tempoC := clampTempo p b[0]
  divIdx := perChan (fun ch => dividerIndex p b[divIndex ch])
  dRes := perChan (fun ch => resolveDelay p c (clampTempo p b[0]) (dividerIndex p b[divIndex ch]))
  fbLin := feedbackLaw p b[3]
  cfLin := feedbackLaw p b[4]
  dryLin := dbToLin p b[5]
  wetLin := dbToLin p b[6]
  on := perSite (fun s => flagOf p b[onIndex s])
  f := perSite (fun s => fClamp b[freqIndex s] p.filtFMinHz c.filtFMax)
  q := perSite (fun s => fClamp b[qIndex s] p.qMin p.qMax)
  modOn := flagOf p b[19]
  invIn := flagOf p b[22]
  en := flagOf p b[23]
  tr := flagOf p b[24]
  pp := flagOf p b[25]
  depthC := fClamp b[20] fZero p.depthMaxMs
  rateC := fClamp b[21] p.rateMinHz p.rateMaxHz

/-- The targets `PROCESS` sets from a snapshot; the delay targets keep what the commit wrote (R197 to R204). -/
def processTargets (sn : Snapshot) (tgt : Smoothers) : Smoothers where
  dry := if sn.en then sn.dryLin else fZero
  wet := sn.wetLin
  inp := if sn.en then fOne else fZero
  fb := if sn.pp then fZero else sn.fbLin
  cf := sn.cfLin
  depth := if sn.modOn then sn.depthC else fZero
  rate := sn.rateC
  d := tgt.d

end Sys2Proof.Machine
end

