-- ==== Sys2Proof/Machine/SampleStep.lean ====
section
/-! DEFINITION. The sample step that SAMPLE runs once (47_sample_step.md R255 to R261). -/

namespace Sys2Proof.Machine

/-- Step 1: the nine smoothers (R191, R255). -/
def smoothEngine (p : Params) (c : Constants) (e : Engine) : Engine := { e with cur := smoothAll p c e.tgt e.cur }

/-- Step 4 for one channel: read, limit, filter; the engine after it and the gated tap `tg[ch]` (R255, R240). -/
def tapStage (c : Constants) (sn : Snapshot) (fade : Word) (m : Memory) (ch : Chan) (pos : Word) (e : Engine) :
    Engine × Word :=
  let r := readInterp c m ch pos
  let env' := limiterEnv c (e.env.get ch) r
  let t := feedbackFilter c sn ch { e with env := e.env.set ch env' } (limiterOut env' r)
  (t.1, fMul t.2 fade)

/-- What one sample step leaves and returns. -/
structure StepResult where
  eng : Engine
  mem : Memory
  y : Pair Word
deriving DecidableEq, Repr

/-- Steps 1 and 2 of R255: the engine after the smoothers and the state machine. -/
def stepControl (p : Params) (c : Constants) (sn : Snapshot) (e : Engine) : Engine :=
  fsmEngine p c sn (smoothEngine p c e)

/-- Steps 4 to 9 of R255, from the engine `e` after step 3, the buffers `m` after step 2, the fade and the LFO
offsets. -/
def stepAudio (p : Params) (c : Constants) (sn : Snapshot) (e : Engine) (m : Memory) (fade : Word)
    (off : Pair Word) (x : Pair Word) : StepResult :=
  let pos := perChan (fun ch => readPosition e.w (e.cur.d.get ch) (off.get ch))
  let t0 := tapStage c sn fade m .c0 pos.c0 e
  let t1 := tapStage c sn fade m .c1 pos.c1 t0.1
  let tg : Pair Word := ⟨t0.2, t1.2⟩
  let i0 := inputFilter c sn .c0 t1.1 x.c0
  let i1 := inputFilter c sn .c1 i0.1 x.c1
  let v := mix p sn e.cur ⟨i0.2, i1.2⟩ tg
  { eng := advance c i1.1
    mem := bufWrite c (bufWrite c m .c0 e.w v.c0) .c1 e.w v.c1
    y := outputs e.cur x tg }

/-- `STEP(x[0], x[1])` (R255). -/
def sampleStep (p : Params) (c : Constants) (sn : Snapshot) (e : Engine) (m : Memory) (x : Pair Word) : StepResult :=
  let e2 := stepControl p c sn e
  stepAudio p c sn (lfoEngine c sn e2) (fsmMemory p sn (smoothEngine p c e) m) (fadeOf c e2) (lfoOffsets c e2) x

end Sys2Proof.Machine
end

