-- ==== Sys2Proof/Machine/Commands.lean ====
section
/-! DEFINITION. NOP, WPARAM, RPARAM, PROCESS, SAMPLE and CLRSTAT (48_commands.md R271, R274 to R277, R279). -/

namespace Sys2Proof.Machine

/-- NOP (R271): nothing. -/
def execNop (s : State) : Host.Outcome State Fault Refusal := .next s

/-- WPARAM i, v (R274): BAD_INDEX for an index above 25, one outside the IDX field included (log entry 15). -/
def execWparam (idx : Nat) (v : Word) (s : State) : Host.Outcome State Fault Refusal :=
  match pendIndex idx with
  | some i => .next (s.writePend i v)
  | none => .next (s.fail .badIndex 0)

/-- RPARAM i (R275): the register's word, or BAD_INDEX and a zero word. -/
def execRparam (idx : Nat) (s : State) : Host.Outcome State Fault Refusal :=
  match s.readReg idx with
  | some v => .next (s.emit [v])
  | none => .next (s.fail .badIndex 1)

/-- The state after `PROCESS N` before PARAM_NAN is recorded: the snapshot, its decoding, the targets, TEMPO_OUT and
BLOCK_REMAIN (R276, R33, R41). -/
def State.blockOpened (s : State) (n : Nat) : State :=
  let bank := snapshotBank s.pend
  let sn := decodeSnapshot s.params s.const bank
  { s with
    active := bank
    snap := sn
    eng := { s.eng with tgt := processTargets sn s.eng.tgt }
    tempoOut := sn.tempoC
    blockRemain := BitVec.ofNat 16 n }

/-- PROCESS N (R276): SEQUENCE inside a block, NOT_CONFIGURED while CFG = 0, NOT_ACTIVE while ACT = 0; PARAM_NAN is
recorded after the effects and undoes none (R303). -/
def execProcess (n : Nat) (s : State) : Host.Outcome State Fault Refusal :=
  if s.blk then .next (s.fail .sequence 0)
  else if !s.cfg then .next (s.fail .notConfigured 0)
  else if !s.act then .next (s.fail .notActive 0)
  else if bankHasNaN s.pend then .next ((s.blockOpened n).raise .paramNan)
  else .next (s.blockOpened n)

/-- The sample step of `s` on the input pair (R255). -/
def State.stepOf (s : State) (x0 x1 : Word) : StepResult :=
  sampleStep s.params s.const s.snap s.eng s.mem ⟨x0, x1⟩

/-- The state after a SAMPLE that runs (R277). -/
def State.sampled (s : State) (x0 x1 : Word) : State :=
  { s with
    eng := (s.stepOf x0 x1).eng
    mem := (s.stepOf x0 x1).mem
    blockRemain := s.blockRemain - 1#16
    outq := s.outq ++ [(s.stepOf x0 x1).y.c0, (s.stepOf x0 x1).y.c1] }

/-- SAMPLE x0, x1 (R277): SEQUENCE and two zero words outside a block. -/
def execSample (x0 x1 : Word) (s : State) : Host.Outcome State Fault Refusal :=
  if s.blk then .next (s.sampled x0 x1) else .next (s.fail .sequence 2)

/-- CLRSTAT (R279): ERR and LAST_ERR become 0. -/
def execClrstat (s : State) : Host.Outcome State Fault Refusal := .next { s with err := 0#7, lastErr := 0#4 }

end Sys2Proof.Machine
end

