-- ==== Sys2Proof/Machine/Lifecycle.lean ====
section
/-! DEFINITION. CONFIG, ACTIVATE and TEARDOWN (48_commands.md R272, R273, R278) and the constants CONFIG derives
(00_scope.md R8, R9). -/

namespace Sys2Proof.Machine

/-- `ceil(n / d)` of a non-negative rational, exactly (R8, R11). -/
def ceilDiv (n d : Nat) : Nat := (n + d - 1) / d

/-- `MOD_MARGIN = ceil(DEPTH_MAX_MS * RATE / 1000) + 2`, exactly (R8). -/
def modMarginOf (p : Params) (rate : Word) : Nat :=
  ceilDiv (fMag p.depthMaxMs * fMag rate) (2 ^ 298 * 1000) + 2

/-- `C = ceil(MAX_DELAY_S * RATE) + MOD_MARGIN`, exactly (R8; a real parameter is a ratio, log entry 3). -/
def capacityOf (p : Params) (rate : Word) : Nat :=
  ceilDiv (p.maxDelayS.num * fMag rate) (p.maxDelayS.den * 2 ^ 149) + modMarginOf p rate

/-- `FADE_LEN = max(1, floor(FADE_MS * RATE / 1000 + 1/2))`, exactly (R8). -/
def fadeLenOf (p : Params) (rate : Word) : Nat :=
  max 1 ((2 * (p.fadeMs.num * fMag rate) + p.fadeMs.den * 2 ^ 149 * 1000) / (2 * (p.fadeMs.den * 2 ^ 149 * 1000)))

/-- `POW(0.01f, f32(1000 / (ms * RATE)))`, the limiter coefficient of a time in milliseconds (R8, R236). -/
def limiterCoef (ms : Ratio) (rate : Word) : Word :=
  fPow fHundredth (fOfRatio (1000 * (ms.den * 2 ^ 149)) (ms.num * fMag rate))

/-- Every constant of R8, from RATE = `rate`. -/
def constantsOf (p : Params) (rate : Word) : Constants where
  rate := rate
  cap := capacityOf p rate
  modMargin := modMarginOf p rate
  fadeLen := fadeLenOf p rate
  att := limiterCoef p.limAttMs rate
  rel := limiterCoef p.limRelMs rate
  filtFMax := fMul p.filtFMaxRatio rate
  dMax := fOfNat (capacityOf p rate - modMarginOf p rate)
  omkGain := fSub fOne p.kGain
  omkDelay := fSub fOne p.kDelay

/-- `CONFIG` accepts the rate (R9): finite, above 2 * RATE_MAX_HZ, at least 1.0, and the capacity fits BUF_WORDS. -/
def rateAccepted (p : Params) (rate : Word) : Bool :=
  isFinite rate && fGt rate (fMul fTwo p.rateMaxHz) && fGe rate fOne && decide (capacityOf p rate ≤ p.bufWords)

/-- The state after a successful `CONFIG` (R272, R52). -/
def State.configured (s : State) (rate : Word) : State :=
  { s with
    const := constantsOf s.params rate
    mem := Memory.cleared
    eng := Engine.reset
    snap := Snapshot.zero
    pend := Bank.zero
    active := Bank.zero
    tempoOut := fZero
    cfg := true
    act := false
    blockRemain := 0#16 }

/-- The state after `ACTIVATE` (R273, R52). -/
def State.activated (s : State) : State :=
  { s with
    mem := Memory.cleared
    eng := Engine.reset
    snap := Snapshot.zero
    tempoOut := fZero
    act := true }

/-- The state after `TEARDOWN` (R278, R52): the buffers become unspecified, in a period of their own. -/
def State.tornDown (s : State) : State :=
  { s with
    const := Constants.zero
    mem := Memory.unspecified s.epoch
    epoch := s.epoch + 1
    eng := Engine.reset
    snap := Snapshot.zero
    tempoOut := fZero
    cfg := false
    act := false
    blockRemain := 0#16 }

/-- CONFIG r (R272): SEQUENCE inside a block, CONFIG_FAIL for a rate that R9 does not accept. -/
def execConfig (rate : Word) (s : State) : Host.Outcome State Fault Refusal :=
  if s.blk then .next (s.fail .sequence 0)
  else if rateAccepted s.params rate then .next (s.configured rate)
  else .next (s.fail .configFail 0)

/-- ACTIVATE (R273): SEQUENCE inside a block, NOT_CONFIGURED while CFG = 0. -/
def execActivate (s : State) : Host.Outcome State Fault Refusal :=
  if s.blk then .next (s.fail .sequence 0)
  else if s.cfg then .next s.activated
  else .next (s.fail .notConfigured 0)

/-- TEARDOWN (R278): SEQUENCE inside a block. -/
def execTeardown (s : State) : Host.Outcome State Fault Refusal :=
  if s.blk then .next (s.fail .sequence 0) else .next s.tornDown

end Sys2Proof.Machine
end

