-- ==== Sys2Proof/Machine/Dispatch.lean ====
section
/-! DEFINITION. One arm per command (48_commands.md section 2). -/

namespace Sys2Proof.Machine

-- The words of the transaction have been taken; a meaning changes the rest of the state.
def exec (i : Instr) (s : State) : Host.Outcome State Fault Refusal :=
  match i with
  | .nop => Sys2Proof.Machine.execNop s
  | .config rate => Sys2Proof.Machine.execConfig rate s
  | .activate => Sys2Proof.Machine.execActivate s
  | .wparam idx value => Sys2Proof.Machine.execWparam idx value s
  | .rparam idx => Sys2Proof.Machine.execRparam idx s
  | .process n => Sys2Proof.Machine.execProcess n s
  | .sample x0 x1 => Sys2Proof.Machine.execSample x0 x1 s
  | .teardown => Sys2Proof.Machine.execTeardown s
  | .clrstat => Sys2Proof.Machine.execClrstat s

end Sys2Proof.Machine
end

