-- ==== Sys2Proof/Machine/Port.lean ====
section
/-! DEFINITION. What the block does with the words at its command port (48_commands.md R270, R280). -/

namespace Sys2Proof.Machine

/-- One command of the port: `EXEC(cw)` of R270. While no whole transaction has arrived the block waits and holds its
state (R318, R331); a reserved or illegal word raises ILLEGAL_CMD (R280). -/
def State.serve (s : State) : Host.Outcome State Fault Refusal :=
  match decode s.inq with
  | .wait => .next s
  | .reserved rest => .next ((s.withIn rest).fail .illegalCmd 0)
  | .illegal opc rest => .next ((s.withIn rest).fail .illegalCmd opc.resultWords)
  | .cmd i rest => exec i (s.withIn rest)

/-- `s` with the words of one transaction sent to the port ahead of any other. -/
def State.sendFirst (s : State) (ws : List Word) : State := s.withIn (ws ++ s.inq)

end Sys2Proof.Machine
end

