-- ==== Sys2Proof/Machine/Step.lean ====
section
/-! DEFINITION. The step of the machine: one command of the port (20_memory.md R88, 48_commands.md R270). -/

namespace Sys2Proof.Machine

/-- One step: the next command of the port, start to finish (R88). -/
def step (s : State) : Host.Outcome State Fault Refusal := s.serve

/-- `s` with the instruction whose bits are `w` at the head of the port, where `step` takes its next command. -/
def State.withFetchWord (s : State) (nbits w : Nat) : State := s.sendFirst (tableWords nbits w)

end Sys2Proof.Machine
end

