-- ==== Sys2Proof/Safety.lean ====
section
/-! DEFINITION. The terms the claims use: legal parameters (R7), the value of a pattern as a rational (R13), the
machine's invariants (R53, R54, R281, R301), the legality table (R281), runs of commands, and the durations of the
crossfade (R181). -/

namespace Sys2Proof.Machine

/-- The rational value of a finite pattern. -/
def fRat (w : Word) : ℚ := (fVal w : ℚ) / 2 ^ 149

/-- The rational value of a ratio parameter. -/
def ratioRat (r : Ratio) : ℚ := (r.num : ℚ) / (r.den : ℚ)

/-- A positive ratio. -/
def ratioPos (r : Ratio) : Bool := decide (0 < r.num) && decide (0 < r.den)

/-- The parameters have the types of R7's table. DESIGN CHOICE (log entry 19): a parameter that R7 types 'binary32' or
'positive binary32' with no bound on its size (`TEMPO_MIN_BPM`, `DIV_TABLE`'s entries, `DB_CEIL`, `DB_FLOOR`, `PP_GAIN`,
`DEPTH_MAX_MS`, `RATE_MIN_HZ`, `RATE_MAX_HZ`, `FILT_F_MIN_HZ`, `Q_MIN`, `Q_MAX`, `FLAG_THRESHOLD`) is taken to be finite. -/
def paramsOk (p : Params) : Bool :=
  decide (2 ≤ p.bufWords) && decide (p.bufWords ≤ 2 ^ 24)
    && ratioPos p.maxDelayS && ratioPos p.fadeMs && ratioPos p.limAttMs && ratioPos p.limRelMs
    && isFinitePos p.tempoMinBpm
    && !p.divTable.isEmpty && p.divTable.all isFinitePos
    && isFinitePos p.kGain && fLe p.kGain fOne && isFinitePos p.kDelay && fLe p.kDelay fOne
    && isFinite p.dbCeil && isFinite p.dbFloor && isFinite p.ppGain
    && isFinite p.depthMaxMs && fLe fZero p.depthMaxMs
    && isFinite p.rateMinHz && fLe fZero p.rateMinHz && isFinite p.rateMaxHz && fLe p.rateMinHz p.rateMaxHz
    && isFinitePos p.filtFMinHz && isFinitePos p.filtFMaxRatio && fLt p.filtFMaxRatio fHalf
    && isFinite p.qMin && isFinite p.qMax && isFinite p.flagThreshold

/-- What every command keeps of the block's structure: the buffers' canonical form; an open block is active, an active
block configured (R281); while configured the index and counter ranges of R54 and a buffer of +0.0 wherever nothing
was written (R53); while not active the engine at its reset value (R52). -/
structure State.Inv (s : State) : Prop where
  memWf : s.mem.wf = true
  blkAct : s.blk = true → s.act = true
  actCfg : s.act = true → s.cfg = true
  idle : s.act = false → s.eng = Engine.reset
  unconfigured : s.cfg = false → s.const = Constants.zero
  memZero : s.cfg = true → s.mem.fill = .zero
  cap : s.cfg = true → 2 ≤ s.const.cap
  fadeLen : s.cfg = true → 1 ≤ s.const.fadeLen
  writeIndex : s.cfg = true → s.eng.w < s.const.cap
  fadePos : s.cfg = true → s.eng.fadePos ≤ s.const.fadeLen
  fadeInPos : s.cfg = true → s.eng.fsm = .fadeIn → s.eng.fadePos < s.const.fadeLen
  fillCnt : s.cfg = true → s.eng.fillCnt ≤ s.const.cap
  warmUp : ∀ t ch, ((s.eng.filt.get t).get ch).fill ≤ 3
  inBuffer : s.cfg = true → ∀ ch a, 4 * s.const.cap ≤ a → cellAt (s.mem.cells.get ch) a = none

/-- What every command keeps of the numeric ranges of R54, for parameters that R7 allows and at most 2^24 dividers (log
entries 12, 19). While configured: the constants are those of R8 for a rate that CONFIG accepts (R9, R42);
`0 ≤ d_res[ch] ≤ D_MAX`; `0 ≤ phase < TWO_PI` while `phase` is finite. The bounds of `tgt_rate` (R203) and of `cur_rate`
keep the increment below 2 * TWO_PI - `phase`; the second is looser than R227(a)'s RATE_MAX_HZ 'up to rounding'. -/
structure State.RangeInv (s : State) : Prop where
  params : paramsOk s.params = true
  dividers : s.params.divTable.length ≤ 2 ^ 24
  constants : s.cfg = true → rateAccepted s.params s.const.rate = true ∧ s.const = constantsOf s.params s.const.rate
  delays : s.cfg = true → ∀ ch, fLe fZero (s.snap.dRes.get ch) = true ∧ fLe (s.snap.dRes.get ch) s.const.dMax = true
  rateTarget : s.cfg = true → fLe fZero s.eng.tgt.rate = true ∧ fLe s.eng.tgt.rate s.params.rateMaxHz = true
  rateNow : s.cfg = true → fLe fZero s.eng.cur.rate = true ∧ fLe s.eng.cur.rate (fMul 0x3F600000#32 s.const.rate) = true
  phase : s.cfg = true → isFinite s.eng.phase = true → fLe fZero s.eng.phase = true ∧ fLt s.eng.phase fTwoPi = true

/-- What every command keeps of the error fields (R301, R304): LAST_ERR is 0 or a code 1 to 7 whose sticky bit is set,
and it is 0 exactly when no sticky bit is set. -/
structure State.ErrInv (s : State) : Prop where
  code : s.lastErr.toNat ≤ 7
  sticky : s.lastErr ≠ 0#4 → s.err.getLsbD (s.lastErr.toNat - 1) = true
  none_iff : s.lastErr = 0#4 ↔ s.err = 0#7

/-- R281's check lists: the first condition that holds, none where the command is allowed. -/
def firstError (s : State) : Instr → Option ErrCode
  | .nop => none
  | .config r =>
    if s.blockRemain ≠ 0#16 then some .sequence
    else if rateAccepted s.params r then none else some .configFail
  | .activate =>
    if s.blockRemain ≠ 0#16 then some .sequence else if s.cfg then none else some .notConfigured
  | .wparam idx _ => if 25 < idx then some .badIndex else none
  | .rparam idx => if idx ≤ 25 ∨ (0x40 ≤ idx ∧ idx ≤ 0x46) then none else some .badIndex
  | .process _ =>
    if s.blockRemain ≠ 0#16 then some .sequence
    else if s.cfg = false then some .notConfigured
    else if s.act = false then some .notActive else none
  | .sample _ _ => if s.blockRemain = 0#16 then some .sequence else none
  | .teardown => if s.blockRemain ≠ 0#16 then some .sequence else none
  | .clrstat => none

/-- The commands of a list in order, stopping at the first that does not answer a next state. -/
def execAll : List Instr → State → Host.Outcome State Fault Refusal
  | [], s => .next s
  | i :: is, s =>
    match exec i s with
    | .next t => execAll is t
    | .fault f => .fault f
    | .refused r => .refused r

/-- SAMPLE commands for a list of input pairs. -/
def samples (xs : List (Word × Word)) : List Instr := xs.map (fun x => .sample x.1 x.2)

/-- A command is a SAMPLE. -/
def isSample : Instr → Bool
  | .sample _ _ => true
  | .nop | .config _ | .activate | .wparam _ _ | .rparam _ | .process _ | .teardown | .clrstat => false

/-- A command is an RPARAM. -/
def isRparam : Instr → Bool
  | .rparam _ => true
  | .nop | .config _ | .activate | .wparam _ _ | .process _ | .sample _ _ | .teardown | .clrstat => false

/-- The commands that succeed while a block is open: SAMPLE, WPARAM, RPARAM, NOP and CLRSTAT (R281). -/
def isBlockTraffic : Instr → Bool
  | .nop | .wparam _ _ | .rparam _ | .sample _ _ | .clrstat => true
  | .config _ | .activate | .process _ | .teardown => false

/-- A safe run: `k` steps from `s` all answer a next state (R300). -/
def SafeRun (k : Nat) (s : State) : Prop := ∃ t, Host.Core.run Sys2Proof.core k s = .next t

/-- R181's sequence: the crossfade state and `fade_pos` after `n` samples from a change first seen in CYCLE, with fade
length `L` and fill threshold `T`. -/
def phaseAt (L T n : Nat) : Fsm × Nat :=
  if n = 0 then (.cycle, L)
  else if n < L then (.fadeOut, L - n)
  else if n = L then (.fadeOutDone, 0)
  else if n < L + 1 + T then (.fillBuf, 0)
  else if n < 2 * L + 1 + T then (.fadeIn, n - (L + 1 + T))
  else (.cycle, L)

end Sys2Proof.Machine
end

