-- ==== Sys2Proof/Certificates/Slice0/Obligations.lean ====
section
/-! DEFINITION. The statements for the provers, each about the machine the spec describes. -/

open Sys2Proof Sys2Proof.Machine

/-! ### The command port and the encoding -/

/-- R271's effect: NOP changes nothing. -/
def Obligations.NopChangesNothing : Prop := ∀ s : State, exec .nop s = .next s

/-- A step runs the command at the head of the port: with the words of a well-formed command taken, it is `exec` of
that command (R88, R270). The port as a list of words is the model's (log entry 1). -/
def Obligations.StepRunsDecodedCommand : Prop :=
  ∀ (s : State) (i : Instr) (rest : List Word), decode s.inq = .cmd i rest → i.wf = true →
    step s = exec i { s with inq := rest }

/-- Sending the words of a well-formed command makes the next step run that command (R88, R103, R270; the port is log entry 1's). -/
def Obligations.StepRunsEncodedCommand : Prop :=
  ∀ (s : State) (i : Instr) (ws : List Word), i.wf = true → s.inq = encode i ++ ws →
    step s = exec i { s with inq := ws }

/-- R280: a reserved word takes no data words and returns none; a word with a non-zero must-be-zero field takes its
opcode's data words and returns zero result words; both record ILLEGAL_CMD and run no body. -/
def Obligations.MalformedWordsRaiseIllegalCmd : Prop :=
  (∀ (s : State) (cw : Word) (rest : List Word), s.inq = cw :: rest → 9 ≤ (cw.extractLsb' 28 4).toNat →
    step s = .next { s with inq := rest, err := s.err ||| 1#7, lastErr := 1#4 }) ∧
  (∀ (s : State) (cw : Word) (opc : Opcode) (data rest : List Word), s.inq = cw :: (data ++ rest) →
    cw.extractLsb' 28 4 = opc.bits → data.length = opc.dataWords →
    (cw.extractLsb' 24 4 ≠ 0#4 ∨ (opc ≠ .wparam ∧ opc ≠ .rparam ∧ cw.extractLsb' 16 8 ≠ 0#8) ∨
      (opc ≠ .process ∧ cw.extractLsb' 0 16 ≠ 0#16)) →
    step s = .next { s with
      inq := rest, err := s.err ||| 1#7, lastErr := 1#4, outq := s.outq ++ List.replicate opc.resultWords 0#32 })

/-- THE MODEL'S CHOICE (log entry 1): while the words of a whole transaction have not arrived, a step changes nothing,
whether the command word is well formed or has a non-zero must-be-zero field, and this is so exactly when no word or
too few data words of a defined opcode stand at the port. It rests on R318 and R331: between commands the block holds
its state and waits. -/
def Obligations.StepWaitsForWholeTransaction : Prop :=
  (∀ s : State, decode s.inq = .wait → step s = .next s) ∧
  (∀ ws : List Word, decode ws = .wait ↔ ws = [] ∨ ∃ cw ds opc, ws = cw :: ds ∧ cw.extractLsb' 28 4 = Opcode.bits opc ∧
    ds.length < opc.dataWords) ∧
  (∀ (s : State) (i : Instr) (n : Nat), i.wf = true → s.inq = (encode i).take n → n < (encode i).length →
    step s = .next s)

/-- R300: no error stops the block: every step answers a next state. -/
def Obligations.EveryStepAnswersNext : Prop := ∀ s : State, ∃ t, step s = .next t

/-- R111's examples, encoded and decoded. -/
def Obligations.SpecExampleWordsDecode : Prop :=
  decode [0x50000100#32] = .cmd (.process 256) [] ∧
  decode [0x30030000#32, 0x42480000#32] = .cmd (.wparam 3 0x42480000#32) [] ∧
  decode [0x40410000#32] = .cmd (.rparam 0x41) [] ∧
  decode [0x60000000#32, 0x3F800000#32, 0x00000000#32] = .cmd (.sample 0x3F800000#32 0x00000000#32) [] ∧
  decode [0x90000000#32] = .reserved [] ∧
  decode [0x20000001#32] = .illegal .activate [] ∧
  encode (.process 256) = [0x50000100#32] ∧
  encode (.wparam 3 0x42480000#32) = [0x30030000#32, 0x42480000#32] ∧
  encode (.rparam 0x41) = [0x40410000#32] ∧
  encode (.sample 0x3F800000#32 0x00000000#32) = [0x60000000#32, 0x3F800000#32, 0x00000000#32]

/-- Decoding the words of a well-formed command, whatever follows them, gives the command back and leaves what follows
(R100 to R104). -/
def Obligations.DecodeOfEncodeIsTheCommand : Prop :=
  ∀ (i : Instr) (ws : List Word), i.wf = true → decode (encode i ++ ws) = .cmd i ws

/-- Every transaction that decodes to a command is that command's encoding, and the command is well formed: each
command has one spelling (R100 to R105). -/
def Obligations.DecodedCommandHasOneSpelling : Prop :=
  ∀ (ws rest : List Word) (i : Instr), decode ws = .cmd i rest → i.wf = true ∧ ws = encode i ++ rest

/-- The decoder gives each opcode on exactly the words of its match and mask columns in the opcode table, with the IDX and
N fields of the word, and the reserved words are exactly those of OPC 0x9 to 0xF (R100, R101, R102, R105). -/
def Obligations.DecoderMatchesOpcodeTable : Prop :=
  ∀ cw : Word,
    ((∃ i n, decodeWord cw = .cmd .nop i n) ↔ cw = 0x00000000#32) ∧
    ((∃ i n, decodeWord cw = .cmd .config i n) ↔ cw = 0x10000000#32) ∧
    ((∃ i n, decodeWord cw = .cmd .activate i n) ↔ cw = 0x20000000#32) ∧
    ((∃ i n, decodeWord cw = .cmd .wparam i n) ↔ cw &&& 0xFF00FFFF#32 = 0x30000000#32) ∧
    ((∃ i n, decodeWord cw = .cmd .rparam i n) ↔ cw &&& 0xFF00FFFF#32 = 0x40000000#32) ∧
    ((∃ i n, decodeWord cw = .cmd .process i n) ↔ cw &&& 0xFFFF0000#32 = 0x50000000#32) ∧
    ((∃ i n, decodeWord cw = .cmd .sample i n) ↔ cw = 0x60000000#32) ∧
    ((∃ i n, decodeWord cw = .cmd .teardown i n) ↔ cw = 0x70000000#32) ∧
    ((∃ i n, decodeWord cw = .cmd .clrstat i n) ↔ cw = 0x80000000#32) ∧
    (∀ opc i n, decodeWord cw = .cmd opc i n →
      i = (cw.extractLsb' 16 8).toNat ∧ n = (cw.extractLsb' 0 16).toNat) ∧
    (decodeWord cw = .reserved ↔ 0x90000000 ≤ cw.toNat)

/-! ### Errors and STATUS -/

/-- R304: recording an error sets the sticky STATUS bit 7 + code and LAST_ERR, and nothing else, in the STATUS word
and in the whole state. -/
def Obligations.RaiseRecordsStickyBitAndLastErr : Prop :=
  ∀ (s : State) (e : ErrCode),
    (s.raise e).status.getLsbD (7 + e.code) = true ∧
    (s.raise e).status.extractLsb' 16 4 = BitVec.ofNat 4 e.code ∧
    (∀ k, k ≠ 7 + e.code → ¬ (16 ≤ k ∧ k ≤ 19) → (s.raise e).status.getLsbD k = s.status.getLsbD k) ∧
    s.raise e = { s with err := (s.raise e).err, lastErr := (s.raise e).lastErr }

/-- The STATUS word, field by field and bit by bit (R39's table), with the codes of the FSM field (R170's table). -/
def Obligations.StatusWordLayout : Prop :=
  ∀ s : State,
    s.status.getLsbD 0 = s.cfg ∧ s.status.getLsbD 1 = s.act ∧
    (s.status.getLsbD 2 = true ↔ 0 < s.blockRemain.toNat) ∧ s.status.getLsbD 3 = false ∧
    s.status.extractLsb' 4 3 = (match s.eng.fsm with
      | .fadeOut => 0#3
      | .fadeOutDone => 1#3
      | .fillBuf => 2#3
      | .fadeIn => 3#3
      | .cycle => 4#3) ∧
    s.status.getLsbD 7 = false ∧
    s.status.extractLsb' 8 7 = s.err ∧ s.status.getLsbD 15 = false ∧
    s.status.extractLsb' 16 4 = s.lastErr ∧ s.status.extractLsb' 20 12 = 0#12

/-- R310: only CLRSTAT clears ERR and LAST_ERR; a CONFIG, ACTIVATE or TEARDOWN that is not suppressed keeps both. -/
def Obligations.OnlyClrstatClearsErrors : Prop :=
  (∀ s t : State, step s = .next t → (∀ rest, decode s.inq ≠ .cmd .clrstat rest) →
    (∀ k, s.err.getLsbD k = true → t.err.getLsbD k = true) ∧ (s.lastErr ≠ 0#4 → t.lastErr ≠ 0#4)) ∧
  (∀ (s t : State) (i : Instr), exec i s = .next t → firstError s i = none →
    ((∃ r, i = .config r) ∨ i = .activate ∨ i = .teardown) → t.err = s.err ∧ t.lastErr = s.lastErr)

/-- R281's table, for every command that a word carries: each command fails with the first error of its check list, all
its result words zero and no other effect; a command whose check list is empty of errors records none, PARAM_NAN
apart. -/
def Obligations.LegalityTable : Prop :=
  (∀ (s : State) (i : Instr) (e : ErrCode), i.wf = true → firstError s i = some e →
    exec i s = .next { s with
      err := s.err ||| (1#7 <<< (e.code - 1))
      lastErr := BitVec.ofNat 4 e.code
      outq := s.outq ++ List.replicate i.opcode.resultWords 0#32 }) ∧
  (∀ (s : State) (i : Instr), i.wf = true → firstError s i = none → i ≠ .clrstat →
    (∀ n, i = .process n → ∀ k : Fin 26, isNaN s.pend[k] = false) →
    ∃ t, exec i s = .next t ∧ t.err = s.err ∧ t.lastErr = s.lastErr)

/-- CLRSTAT clears ERR and LAST_ERR and changes nothing else; STATUS keeps CFG, ACT, BLK and FSM (R279, R40). -/
def Obligations.ClrstatClearsErrorFieldsOnly : Prop :=
  ∀ s : State, exec .clrstat s = .next { s with err := 0#7, lastErr := 0#4 } ∧
    ∀ t, exec .clrstat s = .next t → t.status = s.status &&& 0x00000077#32

/-- R332: the registers after power-on, as a host reads them. -/
def Obligations.PowerOnRegisters : Prop :=
  State.reset.status = 0x00000020#32 ∧
  (∀ idx, idx < 26 → State.reset.readReg idx = some 0#32) ∧
  (∀ idx, 0x40 ≤ idx → idx ≤ 0x46 → idx ≠ 0x41 → State.reset.readReg idx = some 0#32) ∧
  State.reset.readReg 0x41 = some 0x00000020#32 ∧
  State.reset.cfg = false ∧ State.reset.act = false ∧ State.reset.blockRemain = 0#16 ∧
  State.reset.eng.fsm = .fillBuf ∧ State.reset.err = 0#7 ∧ State.reset.lastErr = 0#4

/-! ### CONFIG, ACTIVATE, TEARDOWN -/

/-- R9: outside a block CONFIG accepts a rate exactly when it is finite, above 2 * RATE_MAX_HZ, at least 1 and its
capacity fits BUF_WORDS, compared as exact real numbers; otherwise CONFIG_FAIL and nothing else changes. RATE_MAX_HZ is
at least 0, as R7 has it. -/
def Obligations.ConfigAcceptsExactlyLegalRates : Prop :=
  ∀ (s : State) (r : Word), fLe fZero s.params.rateMaxHz = true → s.blockRemain = 0#16 →
    ((isFinite r = true ∧ 2 * fRat s.params.rateMaxHz < fRat r ∧ 1 ≤ fRat r ∧
        capacityOf s.params r ≤ s.params.bufWords) →
      exec (.config r) s = .next (s.configured r)) ∧
    (¬ (isFinite r = true ∧ 2 * fRat s.params.rateMaxHz < fRat r ∧ 1 ≤ fRat r ∧
        capacityOf s.params r ≤ s.params.bufWords) →
      exec (.config r) s = .next { s with err := s.err ||| 0x20#7, lastErr := 6#4 })

/-- What a successful CONFIG leaves (R272, R52): the constants of R8, cleared buffers, the engine, the snapshot and both
parameter banks at their reset values, configured and not active; the error fields, the parameters and the port are
kept. -/
def Obligations.ConfigResetsEverythingButErrors : Prop :=
  ∀ (s : State) (r : Word), s.blockRemain = 0#16 → rateAccepted s.params r = true →
    ∃ t, exec (.config r) s = .next t ∧
      t.const = constantsOf s.params r ∧ t.const.rate = r ∧ (∀ ch i, t.mem.readWord ch i = 0#32) ∧
      (∀ ch a, t.mem.readByte ch a = 0#8) ∧ t.eng = Engine.reset ∧ t.snap = Snapshot.zero ∧
      (∀ k : Fin 26, t.pend[k] = 0#32) ∧ (∀ k : Fin 26, t.active[k] = 0#32) ∧ t.tempoOut = 0#32 ∧
      t.cfg = true ∧ t.act = false ∧ t.blockRemain = 0#16 ∧
      t.err = s.err ∧ t.lastErr = s.lastErr ∧ t.params = s.params ∧ t.inq = s.inq ∧ t.outq = s.outq ∧
      t.epoch = s.epoch

/-- The constants of R8: the integer ones are the exact ceilings and the exact floor of the real products; ATT and REL are
`POW(0.01f, f32(1000 / (ms * RATE)))`, whatever fraction n / d writes the real quotient that `f32` rounds; FILT_F_MAX,
OMK_GAIN and OMK_DELAY are one binary32 operation each, and D_MAX is `f32(C - MOD_MARGIN)`. -/
def Obligations.IntegerConstantsAreExact : Prop :=
  ∀ (p : Params) (r : Word), paramsOk p = true → isFinite r = true → 1 ≤ fRat r →
    ((constantsOf p r).modMargin : ℤ) = ⌈fRat p.depthMaxMs * fRat r / 1000⌉ + 2 ∧
    ((constantsOf p r).cap : ℤ) = ⌈ratioRat p.maxDelayS * fRat r⌉ + (constantsOf p r).modMargin ∧
    ((constantsOf p r).fadeLen : ℤ) = max 1 ⌊ratioRat p.fadeMs * fRat r / 1000 + 1 / 2⌋ ∧
    (∀ n d : Nat, 0 < d → (n : ℚ) / d = 1000 / (ratioRat p.limAttMs * fRat r) →
      (constantsOf p r).att = fPow 0x3C23D70A#32 (fOfRatio n d)) ∧
    (∀ n d : Nat, 0 < d → (n : ℚ) / d = 1000 / (ratioRat p.limRelMs * fRat r) →
      (constantsOf p r).rel = fPow 0x3C23D70A#32 (fOfRatio n d)) ∧
    (constantsOf p r).filtFMax = fMul p.filtFMaxRatio r ∧
    (constantsOf p r).dMax = fOfNat ((constantsOf p r).cap - (constantsOf p r).modMargin) ∧
    (constantsOf p r).omkGain = fSub 0x3F800000#32 p.kGain ∧
    (constantsOf p r).omkDelay = fSub 0x3F800000#32 p.kDelay

/-- What ACTIVATE leaves in a configured block outside a block of samples (R273, R52): cleared buffers, the engine and
the snapshot at their reset values, active; configuration, parameter banks and error fields are kept. -/
def Obligations.ActivateResetsEngineKeepsParameters : Prop :=
  ∀ s : State, s.blockRemain = 0#16 → s.cfg = true →
    exec .activate s = .next { s with
      mem := Memory.cleared, eng := Engine.reset, snap := Snapshot.zero, tempoOut := 0#32, act := true } ∧
    ∀ t, exec .activate s = .next t → (∀ ch i, t.mem.readWord ch i = 0#32) ∧ t.eng.fsm = .fillBuf ∧
      t.pend = s.pend ∧ t.active = s.active ∧ t.const = s.const

/-- What TEARDOWN leaves outside a block (R278, R52): the configuration constants 0, not configured, not active, the
engine and the snapshot at their reset values; the parameter banks and the error fields are kept. The statement says
nothing of the buffers' words, which are unspecified. -/
def Obligations.TeardownReleasesConfiguration : Prop :=
  ∀ s : State, s.blockRemain = 0#16 →
    ∃ t, exec .teardown s = .next t ∧ t.const = Constants.zero ∧ t.cfg = false ∧ t.act = false ∧
      t.blockRemain = 0#16 ∧ t.eng = Engine.reset ∧ t.snap = Snapshot.zero ∧ t.tempoOut = 0#32 ∧
      t.pend = s.pend ∧ t.active = s.active ∧ t.err = s.err ∧ t.lastErr = s.lastErr ∧ t.params = s.params ∧
      t.inq = s.inq ∧ t.outq = s.outq

/-! ### Parameter registers -/

/-- WPARAM with an index 0 to 25 writes that pending register with all 32 bits and changes nothing else, no byte of the
buffers among it; it is legal in every state (R274, R34). -/
def Obligations.WparamWritesOnePendingRegister : Prop :=
  ∀ (s : State) (i : Fin 26) (v : Word),
    ∃ t, exec (.wparam i v) s = .next t ∧ t.pend[i] = v ∧ (∀ k : Fin 26, k ≠ i → t.pend[k] = s.pend[k]) ∧
      t = { s with pend := t.pend } ∧ ∀ ch a, t.mem.readByte ch a = s.mem.readByte ch a

/-- RPARAM returns the pending register, or the read-only register of R38, and changes nothing else; every other index
returns a zero word and records BAD_INDEX (R275, R86). Two clauses reach beyond those rules by the MODEL'S CHOICE: the
CAPACITY, FADELEN and MODMARGIN clauses give the low 32 bits where a constant needs more (log entry 17, DESIGN CHOICE),
and the last clause takes in indices above 255, which no command word carries (log entry 15, DESIGN CHOICE). -/
def Obligations.RparamReturnsTheRegister : Prop :=
  ∀ s : State,
    (∀ i : Fin 26, exec (.rparam i) s = .next { s with outq := s.outq ++ [s.pend[i]] }) ∧
    exec (.rparam 0x40) s = .next { s with outq := s.outq ++ [s.tempoOut] } ∧
    exec (.rparam 0x41) s = .next { s with outq := s.outq ++ [s.status] } ∧
    exec (.rparam 0x42) s = .next { s with outq := s.outq ++ [BitVec.ofNat 32 s.const.cap] } ∧
    exec (.rparam 0x43) s = .next { s with outq := s.outq ++ [BitVec.ofNat 32 s.const.fadeLen] } ∧
    exec (.rparam 0x44) s = .next { s with outq := s.outq ++ [BitVec.ofNat 32 s.blockRemain.toNat] } ∧
    exec (.rparam 0x45) s = .next { s with outq := s.outq ++ [BitVec.ofNat 32 s.const.modMargin] } ∧
    exec (.rparam 0x46) s = .next { s with outq := s.outq ++ [s.const.rate] } ∧
    (∀ idx, ((26 ≤ idx ∧ idx ≤ 63) ∨ 0x47 ≤ idx) →
      exec (.rparam idx) s = .next { s with err := s.err ||| 2#7, lastErr := 2#4, outq := s.outq ++ [0#32] })

/-- The pending bank is written by WPARAM and by CONFIG only, the active bank by PROCESS and CONFIG only, the decoded
snapshot and TEMPO_OUT by PROCESS and the resets only (R33, R34, R41, R44, R52). -/
def Obligations.ParameterBanksHaveOneWriter : Prop :=
  ∀ (i : Instr) (s t : State), exec i s = .next t →
    (t.pend ≠ s.pend → (∃ k v, i = .wparam k v) ∨ ∃ r, i = .config r) ∧
    (t.active ≠ s.active → (∃ n, i = .process n) ∨ ∃ r, i = .config r) ∧
    (t.snap ≠ s.snap ∨ t.tempoOut ≠ s.tempoOut →
      (∃ n, i = .process n) ∨ (∃ r, i = .config r) ∨ i = .activate ∨ i = .teardown)

/-- Only CONFIG writes the configuration registers, from R8, and TEARDOWN sets them to 0; no other command changes
them (R42). That none changes the parameters of R7 either is read from R7, which makes them arguments of the model
(log entry 2, DEDUCED). -/
def Obligations.OnlyConfigAndTeardownWriteConstants : Prop :=
  ∀ (i : Instr) (s t : State), exec i s = .next t →
    t.params = s.params ∧
    (t.const = s.const ∨ (∃ r, i = .config r ∧ t.const = constantsOf s.params r) ∨
      (i = .teardown ∧ t.const = Constants.zero))

/-! ### PROCESS -/

/-- PROCESS in an active block outside a block of samples takes the snapshot: each active register is the pending one,
+0.0 for a NaN; the snapshot is decoded from it; the seven targets are set and the delay targets kept; TEMPO_OUT and
BLOCK_REMAIN are written; PARAM_NAN is recorded exactly when a pending register is a NaN; the pending bank, the rest
of the engine, every buffer byte and the configuration are unchanged (R276, R36, R303, R204). -/
def Obligations.ProcessTakesTheSnapshot : Prop :=
  ∀ (s : State) (n : Nat), s.blockRemain = 0#16 → s.cfg = true → s.act = true → n < 65536 →
    ∃ t, exec (.process n) s = .next t ∧
      (∀ k : Fin 26, t.active[k] = if isNaN s.pend[k] then 0#32 else s.pend[k]) ∧
      t.snap = decodeSnapshot s.params s.const t.active ∧ t.tempoOut = t.snap.tempoC ∧ t.blockRemain.toNat = n ∧
      t.eng.tgt.dry = (if t.snap.en then t.snap.dryLin else 0#32) ∧ t.eng.tgt.wet = t.snap.wetLin ∧
      t.eng.tgt.inp = (if t.snap.en then 0x3F800000#32 else 0#32) ∧
      t.eng.tgt.fb = (if t.snap.pp then 0#32 else t.snap.fbLin) ∧ t.eng.tgt.cf = t.snap.cfLin ∧
      t.eng.tgt.depth = (if t.snap.modOn then t.snap.depthC else 0#32) ∧ t.eng.tgt.rate = t.snap.rateC ∧
      t.eng = { s.eng with tgt := { t.eng.tgt with d := s.eng.tgt.d } } ∧
      ((∃ k : Fin 26, isNaN s.pend[k] = true) → t.err = s.err ||| 0x40#7 ∧ t.lastErr = 7#4) ∧
      ((∀ k : Fin 26, isNaN s.pend[k] = false) → t.err = s.err ∧ t.lastErr = s.lastErr) ∧
      (∀ ch a, t.mem.readByte ch a = s.mem.readByte ch a) ∧
      t = { s with
        active := t.active, snap := t.snap, tempoOut := t.tempoOut, blockRemain := t.blockRemain, eng := t.eng
        err := t.err, lastErr := t.lastErr }

/-- What PROCESS decodes from each active register, by its index: the clamped tempo (R206), the divider indices and
delays (R205, R207), the gains (R194 to R196), the filter sites (R139), the flags (R37) and the modulation (R202,
R203), as R32 lists them. A NaN register counts as +0.0 (R36). -/
def Obligations.ProcessDecodesEachRegister : Prop :=
  ∀ (s : State) (n : Nat), s.blockRemain = 0#16 → s.cfg = true → s.act = true →
    let p := s.params
    let a : Fin 26 → Word := fun k => if isNaN s.pend[k] then 0#32 else s.pend[k]
    let flag : Fin 26 → Bool := fun k => fGe (a k) p.flagThreshold
    let divider : Fin 26 → Nat := fun k => (fFloor (fClamp (a k) 0#32 (fOfNat (p.divTable.length - 1)))).toNat
    let tempo := if fGt p.tempoMinBpm (a 0) then p.tempoMinBpm else a 0
    let delay : Nat → Word := fun i =>
      fClamp (fMul (fMul (fDiv 0x42700000#32 tempo) (p.divTable.getD i 0#32)) s.const.rate) 0#32 s.const.dMax
    let freq : Fin 26 → Word := fun k => fClamp (a k) p.filtFMinHz s.const.filtFMax
    let q : Fin 26 → Word := fun k => fClamp (a k) p.qMin p.qMax
    ∃ t, exec (.process n) s = .next t ∧ (∀ k : Fin 26, t.active[k] = a k) ∧
      t.tempoOut = tempo ∧ t.snap.tempoC = tempo ∧
      t.snap.divIdx = ⟨divider 1, divider 2⟩ ∧ t.snap.dRes = ⟨delay (divider 1), delay (divider 2)⟩ ∧
      (p.fbLaw = .percent → t.snap.fbLin = pctToLin (a 3) ∧ t.snap.cfLin = pctToLin (a 4)) ∧
      (p.fbLaw = .db → t.snap.fbLin = dbToLin p (a 3) ∧ t.snap.cfLin = dbToLin p (a 4)) ∧
      t.snap.dryLin = dbToLin p (a 5) ∧ t.snap.wetLin = dbToLin p (a 6) ∧
      t.snap.on.ihc = flag 7 ∧ t.snap.f.ihc = freq 8 ∧ t.snap.q.ihc = q 9 ∧
      t.snap.on.ilc = flag 10 ∧ t.snap.f.ilc = freq 11 ∧ t.snap.q.ilc = q 12 ∧
      t.snap.on.fhc = flag 13 ∧ t.snap.f.fhc = freq 14 ∧ t.snap.q.fhc = q 15 ∧
      t.snap.on.flc = flag 16 ∧ t.snap.f.flc = freq 17 ∧ t.snap.q.flc = q 18 ∧
      t.snap.modOn = flag 19 ∧ t.snap.depthC = fClamp (a 20) 0#32 p.depthMaxMs ∧
      t.snap.rateC = fClamp (a 21) p.rateMinHz p.rateMaxHz ∧ t.snap.invIn = flag 22 ∧
      t.snap.en = flag 23 ∧ t.snap.tr = flag 24 ∧ t.snap.pp = flag 25

/-- A second PROCESS with no WPARAM between, for every count that a command word carries, re-decodes the same snapshot and
so changes only BLOCK_REMAIN, whatever the pending bank holds, a NaN included: no target cache is observable (R85,
R208). -/
def Obligations.RepeatedProcessChangesOnlyBlockCount : Prop :=
  ∀ (s t : State) (n : Nat), s.blockRemain = 0#16 → s.cfg = true → s.act = true → n < 65536 →
    exec (.process 0) s = .next t →
    exec (.process n) t = .next { t with blockRemain := BitVec.ofNat 16 n }

/-- R195: the percentage law. -/
def Obligations.PercentageLaw : Prop :=
  ∀ v : Word,
    (fGt v 0x42C60000#32 = true → pctToLin v = 0x3F800000#32) ∧
    (fGt v 0x42C60000#32 = false → fGt v 0#32 = true → pctToLin v = fDiv v 0x42C80000#32) ∧
    (fGt v 0x42C60000#32 = false → fGt v 0#32 = false → pctToLin v = 0#32)

/-- R194: the decibel law; with the properties of POW it is 1 at 0 dB of either sign (R17). -/
def Obligations.DecibelLaw : Prop :=
  ∀ (p : Params) (v : Word), isNaN v = false →
    (fLt v p.dbFloor = true → dbToLin p v = 0#32) ∧
    (fLt v p.dbFloor = false → fGt v p.dbCeil = true →
      dbToLin p v = fPow 0x41200000#32 (fDiv p.dbCeil 0x41A00000#32)) ∧
    (fLt v p.dbFloor = false → fGt v p.dbCeil = false → dbToLin p v = fPow 0x41200000#32 (fDiv v 0x41A00000#32)) ∧
    (fLt v p.dbFloor = false → fGt v p.dbCeil = false → isZero v = true → dbToLin p v = 0x3F800000#32)

/-- R205: the divider index lies in the table, for every register value that is not a NaN, the infinities included. -/
def Obligations.DividerIndexLiesInTable : Prop :=
  ∀ (p : Params) (v : Word), isNaN v = false → 1 ≤ p.divTable.length → p.divTable.length ≤ 2 ^ 24 →
    dividerIndex p v < p.divTable.length

/-- The resolved delay is a number in [0, D_MAX] for every clamped tempo, a tempo of +inf included, and every positive
finite beat count (R54, R207). -/
def Obligations.ResolvedDelayLiesInRange : Prop :=
  ∀ (p : Params) (c : Constants) (tempo : Word) (i : Nat),
    fLt fZero tempo = true → isFinitePos (beatsOf p i) = true → isFinitePos c.rate = true → fLe fZero c.dMax = true →
    fLe fZero (resolveDelay p c tempo i) = true ∧ fLe (resolveDelay p c tempo i) c.dMax = true

/-! ### SAMPLE -/

/-- SAMPLE inside a block runs one step of R255. Each channel's raw tap is read after the state machine and the
oscillator; its envelope takes the limiter's update (R235); its input goes through the two input sites and its limited
tap through the two feedback sites, each site that is on leaving its instance as one biquad call does and each site
that is off holding it (R132, R238, R239), whatever the other channel does; the fade gates the filtered tap (R240). The
two outputs are returned in order; the word of MIX lands at the write index of each channel and no other byte of the
buffers changes but by a commit, which clears both buffers under CLEAR_POLICY = CLEAR and touches no byte under KEEP
(R156, R174); the block counter goes down by one; no parameter, snapshot, constant or
error field changes (R255, R257, R277). -/
def Obligations.SampleRunsOneStep : Prop :=
  ∀ (s : State) (x0 x1 : Word), s.blockRemain ≠ 0#16 →
    let p := s.params
    let c := s.const
    let e1 := { s.eng with cur := smoothAll p c s.eng.tgt s.eng.cur }
    let e2 := fsmEngine p c s.snap e1
    let e3 := lfoEngine c s.snap e2
    let m2 := fsmMemory p s.snap e1 s.mem
    let off := lfoOffsets c e2
    let x : Chan → Word := fun ch => Pair.get ⟨x0, x1⟩ ch
    let F : Site → Chan → Biquad := fun st ch => (s.eng.filt.get st).get ch
    let out : Site → Chan → Word → Word := fun st ch u =>
      if s.snap.on.get st then biquadOut (siteCoeffs c s.snap st) (F st ch) u else u
    let next : Site → Chan → Word → Biquad := fun st ch u =>
      if s.snap.on.get st then biquadNext (F st ch) u (out st ch u) else F st ch
    let raw : Chan → Word := fun ch => readInterp c m2 ch (readPosition e2.w (e2.cur.d.get ch) (off.get ch))
    let env : Chan → Word := fun ch => limiterEnv c (s.eng.env.get ch) (raw ch)
    let lim : Chan → Word := fun ch => limiterOut (env ch) (raw ch)
    let tap : Chan → Word := fun ch => fMul (out .flc ch (out .fhc ch (lim ch))) (fadeOf c e2)
    let fin : Pair Word := ⟨out .ilc .c0 (out .ihc .c0 x0), out .ilc .c1 (out .ihc .c1 x1)⟩
    let v := mix p s.snap e1.cur fin ⟨tap .c0, tap .c1⟩
    let at0 := e2.w % c.cap
    ∃ t, exec (.sample x0 x1) s = .next t ∧
      t.outq = s.outq ++ [fAdd (fMul x0 e1.cur.dry) (fMul (tap .c0) e1.cur.wet),
        fAdd (fMul x1 e1.cur.dry) (fMul (tap .c1) e1.cur.wet)] ∧
      t.blockRemain.toNat + 1 = s.blockRemain.toNat ∧
      t.eng.cur = e1.cur ∧ t.eng.tgt = e2.tgt ∧ t.eng.fsm = e2.fsm ∧ t.eng.fadePos = e2.fadePos ∧
      t.eng.com = e2.com ∧ t.eng.w = (e2.w + 1) % c.cap ∧ t.eng.fillCnt = min (e2.fillCnt + 1) c.cap ∧
      t.eng.phase = e3.phase ∧ t.eng.inc = e3.inc ∧ t.eng.invLat = e3.invLat ∧
      (∀ ch, t.eng.env.get ch = env ch) ∧
      (∀ ch, (t.eng.filt.get .ihc).get ch = next .ihc ch (x ch) ∧
        (t.eng.filt.get .ilc).get ch = next .ilc ch (out .ihc ch (x ch)) ∧
        (t.eng.filt.get .fhc).get ch = next .fhc ch (lim ch) ∧
        (t.eng.filt.get .flc).get ch = next .flc ch (out .fhc ch (lim ch))) ∧
      (s.mem.wf = true → ∀ ch, t.mem.readWord ch at0 = v.get ch) ∧
      (∀ ch a, (a < 4 * at0 ∨ 4 * at0 + 4 ≤ a) → t.mem.readByte ch a = m2.readByte ch a) ∧
      (commits s.snap s.eng = false → m2 = s.mem) ∧
      (s.eng.fsm = .fadeOutDone → muted s.snap = false →
        (p.clearPolicy = .clear → m2 = Memory.cleared) ∧ (p.clearPolicy = .keep → m2 = s.mem)) ∧
      t = { s with eng := t.eng, mem := t.mem, blockRemain := t.blockRemain, outq := t.outq }

/-- R192: a current value changes only by the smoother update of a sample or by a reset to +0.0. -/
def Obligations.CurrentValuesNeverJump : Prop :=
  ∀ (i : Instr) (s t : State), exec i s = .next t →
    t.eng.cur = s.eng.cur ∨
    ((∃ x0 x1, i = .sample x0 x1) ∧ t.eng.cur = smoothAll s.params s.const s.eng.tgt s.eng.cur) ∨
    (((∃ r, i = .config r) ∨ i = .activate ∨ i = .teardown) ∧ t.eng.cur = Smoothers.zero)

/-- R204: only a commit (a SAMPLE in FADE_OUT_DONE that is not muted) and the resets write the delay targets, and a
commit takes them from the resolved delays. -/
def Obligations.OnlyCommitWritesDelayTargets : Prop :=
  ∀ (i : Instr) (s t : State), exec i s = .next t →
    t.eng.tgt.d = s.eng.tgt.d ∨
    ((∃ x0 x1, i = .sample x0 x1) ∧ s.eng.fsm = .fadeOutDone ∧ muted s.snap = false ∧ t.eng.tgt.d = s.snap.dRes) ∨
    (((∃ r, i = .config r) ∨ i = .activate ∨ i = .teardown) ∧ t.eng.tgt.d = ⟨0#32, 0#32⟩)

/-- The two channels of step 4, and the two of step 5, may run in either order: the engine and the values are the same
(R256). That two equal operations return NaNs of equal bits is the MODEL'S CHOICE (log entry 6, DESIGN CHOICE, unsafe
where hardware returns different NaNs). -/
def Obligations.ChannelOrderDoesNotMatter : Prop :=
  ∀ (c : Constants) (sn : Snapshot) (fade : Word) (m : Memory) (e : Engine) (pos x : Pair Word),
    let a0 := tapStage c sn fade m .c0 pos.c0 e
    let a1 := tapStage c sn fade m .c1 pos.c1 a0.1
    let b1 := tapStage c sn fade m .c1 pos.c1 e
    let b0 := tapStage c sn fade m .c0 pos.c0 b1.1
    let f0 := inputFilter c sn .c0 e x.c0
    let f1 := inputFilter c sn .c1 f0.1 x.c1
    let g1 := inputFilter c sn .c1 e x.c1
    let g0 := inputFilter c sn .c0 g1.1 x.c0
    a1.1 = b0.1 ∧ a0.2 = b0.2 ∧ a1.2 = b1.2 ∧ f1.1 = g0.1 ∧ f0.2 = g0.2 ∧ f1.2 = g1.2

/-- Parameter traffic inside a block does not reach its audio: a list of samples, NOPs, WPARAMs, RPARAMs and CLRSTATs
leaves the engine, the buffers, the snapshot and the block counter that its samples alone leave, and where it holds no
RPARAM, whose words stand among the outputs, it returns the same words (R89, R258, R335). That two equal operations
return NaNs of equal bits is the MODEL'S CHOICE (log entry 6, DESIGN CHOICE, unsafe where hardware returns different
NaNs). -/
def Obligations.ParameterTrafficDoesNotReachTheBlock : Prop :=
  ∀ (l : List Instr) (s : State), l.all isBlockTraffic = true →
    ∃ t u, execAll l s = .next t ∧ execAll (l.filter isSample) s = .next u ∧
      (l.any isRparam = false → t.outq = u.outq) ∧ t.eng = u.eng ∧ t.mem = u.mem ∧ t.blockRemain = u.blockRemain ∧ t.snap = u.snap

/-! ### The invariants -/

/-- Every step keeps the buffers' canonical form, so that equal buffers are equal data. The list of stored bytes is the
model's own representation (log entry 4). -/
def Obligations.StepKeepsMemoryCanonical : Prop :=
  ∀ s t : State, s.mem.wf = true → step s = .next t → t.mem.wf = true

/-- Every step keeps the machine's invariant: the index and counter ranges of R54, that an open block is active and an
active block configured (R281), and that a configured block's buffer is nowhere unspecified (R53). R54's ranges of
`d_res` and `phase` are in StepKeepsNumericRanges. -/
def Obligations.StepKeepsMachineInvariant : Prop := ∀ s t : State, s.Inv → step s = .next t → t.Inv

/-- Every step keeps the numeric ranges of R54: `0 ≤ d_res[ch] ≤ D_MAX`, and `0 ≤ phase < TWO_PI` while `phase` is finite
(R227), with the bounds on the constants, `tgt_rate` and `cur_rate` that make them last. It holds for parameters that
R7 allows; that those are finite and the dividers at most 2^24 is the MODEL'S CHOICE (log entries 12, 19). -/
def Obligations.StepKeepsNumericRanges : Prop := ∀ s t : State, s.RangeInv → step s = .next t → t.RangeInv

/-- The machine's invariant holds at power-on, and the numeric ranges for every legal set of parameters (log entries
12, 19). -/
def Obligations.PowerOnMeetsMachineInvariant : Prop :=
  (∀ p : Params, (State.resetWith p).Inv) ∧
  (∀ p : Params, paramsOk p = true → p.divTable.length ≤ 2 ^ 24 → (State.resetWith p).RangeInv)

/-- Every step keeps the error fields' invariant: the codes 0 and 8 to 15 are never recorded, and LAST_ERR = 0 means no
error since the last CLRSTAT (R301). -/
def Obligations.StepKeepsErrorInvariant : Prop := ∀ s t : State, s.ErrInv → step s = .next t → t.ErrInv

/-- The error fields' invariant holds at power-on. -/
def Obligations.PowerOnMeetsErrorInvariant : Prop := ∀ p : Params, (State.resetWith p).ErrInv

/-- Any number of steps from power-on is a safe run (R300). -/
def Obligations.EveryRunIsSafe : Prop := ∀ (k : Nat) (s : State), SafeRun k s

/-! ### The crossfade state machine -/

/-- R181: a change first seen in CYCLE takes FADE_LEN samples of FADE_OUT, one commit, `thr` samples of FILL_BUF and
FADE_LEN samples of FADE_IN, whatever the audio, as long as no further change and no mute occurs (one block, one
snapshot, not muted). -/
def Obligations.DelayChangeRunsTheWholeCrossfade : Prop :=
  ∀ (s : State) (xs : List (Word × Word)) (T : Nat),
    s.eng.fsm = .cycle → s.eng.fadePos = s.const.fadeLen → 1 ≤ s.const.fadeLen →
    changed s.snap s.eng.com = true → muted s.snap = false → isNaN s.snap.tempoC = false →
    fillThreshold s.params s.const (commitEngine s.snap s.eng) = (T : Int) → 1 ≤ T →
    xs.length ≤ s.blockRemain.toNat →
    ∃ t, execAll (samples xs) s = .next t ∧ (t.eng.fsm, t.eng.fadePos) = phaseAt s.const.fadeLen T xs.length

/-- R180: from the crossfade state that ACTIVATE leaves (FILL_BUF, `fade_pos` 0, nothing committed), the first sample of
a block that is not muted goes to FADE_OUT_DONE, and the second commits the snapshot. -/
def Obligations.FirstTwoSamplesCommit : Prop :=
  ∀ (s : State) (a b : Word × Word), s.eng.fsm = .fillBuf → s.eng.fadePos = 0 → s.eng.com.valid = false →
    muted s.snap = false → 1 ≤ s.const.cap → 2 ≤ s.blockRemain.toNat →
    ∃ t u, execAll (samples [a]) s = .next t ∧ t.eng.fsm = .fadeOutDone ∧ t.eng.fadePos = 0 ∧
      execAll (samples [a, b]) s = .next u ∧ u.eng.fsm = .fillBuf ∧ u.eng.com.valid = true ∧
      u.eng.com.tempo = s.snap.tempoC ∧ u.eng.com.div = s.snap.divIdx ∧ u.eng.com.pp = s.snap.pp ∧
      u.eng.tgt.d = s.snap.dRes ∧ u.eng.w = 1 % s.const.cap ∧ u.eng.fillCnt = 1

/-- A muted block holds FADE_OUT_DONE: no sample commits, so the committed snapshot and the delay targets stay (R172,
R174, R246(b)). And what leads there: one sample in FILL_BUF, FADE_IN or CYCLE with a mute or a change, or in FADE_OUT
whatever the parameters, takes one from `fade_pos`, down to 0, and leaves FADE_OUT_DONE at 0 and FADE_OUT above (R173,
R175). -/
def Obligations.MuteHoldsFadeOutDone : Prop :=
  (∀ (s : State) (xs : List (Word × Word)), s.eng.fsm = .fadeOutDone → muted s.snap = true →
    xs.length ≤ s.blockRemain.toNat →
    ∃ t, execAll (samples xs) s = .next t ∧ t.eng.fsm = .fadeOutDone ∧ t.eng.com = s.eng.com ∧
      t.eng.tgt = s.eng.tgt ∧ t.eng.fadePos = s.eng.fadePos) ∧
  (∀ (s : State) (x0 x1 : Word), s.blockRemain ≠ 0#16 →
    s.eng.fsm = .fadeOut ∨
      ((s.eng.fsm = .fillBuf ∨ s.eng.fsm = .fadeIn ∨ s.eng.fsm = .cycle) ∧
        (muted s.snap = true ∨ changed s.snap s.eng.com = true)) →
    ∃ t, exec (.sample x0 x1) s = .next t ∧ t.eng.fadePos = s.eng.fadePos - 1 ∧
      t.eng.fsm = (if s.eng.fadePos ≤ 1 then .fadeOutDone else .fadeOut) ∧
      t.eng.com = s.eng.com ∧ t.eng.tgt = s.eng.tgt)

/-- The fade coefficient is monotone in `fade_pos`, 0 exactly at 0 and 1 exactly at FADE_LEN (R178, R182), for a fade
length whose conversion is exact (R16). -/
def Obligations.FadeCoefficientIsMonotoneAndExact : Prop :=
  ∀ (c : Constants) (e f : Engine), 1 ≤ c.fadeLen → c.fadeLen ≤ 2 ^ 24 →
    e.fadePos ≤ f.fadePos → f.fadePos ≤ c.fadeLen →
    fLe (fadeOf c e) (fadeOf c f) = true ∧ fLe fZero (fadeOf c e) = true ∧ fLe (fadeOf c f) fOne = true ∧
    (fadeOf c e = fZero ↔ e.fadePos = 0) ∧ (fadeOf c f = fOne ↔ f.fadePos = c.fadeLen)

/-! ### Binary32, the delay read, the smoother, the limiter, the filters, the oscillator -/

/-- Rounding is to nearest, ties to even, with overflow to infinity exactly from half a step above the largest finite
value on (R13, R14). The overflow threshold and ties to even as IEEE 754 spells them out are PRESUMED (log entry 16):
R14 names IEEE 754 and gives no formula. -/
def Obligations.RoundingIsNearestTiesToEven : Prop :=
  ∀ n d : Nat, 0 < d →
    (roundMag n d = 0x7F800000 ↔ (2 ^ 25 - 1) * 2 ^ 252 * d ≤ n) ∧
    (roundMag n d < 0x7F800000 → ∀ b, b < 0x7F800000 →
      |(fMag (BitVec.ofNat 32 (roundMag n d)) : ℤ) * d - n| ≤ |(fMag (BitVec.ofNat 32 b) : ℤ) * d - n| ∧
      (|(fMag (BitVec.ofNat 32 (roundMag n d)) : ℤ) * d - n| = |(fMag (BitVec.ofNat 32 b) : ℤ) * d - n| →
        b = roundMag n d ∨ roundMag n d % 2 = 0))

/-- Integers up to 2^24 convert exactly, and so do `floor` and `ceil` of them (R10, R16, R160). -/
def Obligations.IntegerConversionsAreExact : Prop :=
  ∀ n : Nat, n ≤ 2 ^ 24 →
    isFinite (fOfNat n) = true ∧ fRat (fOfNat n) = n ∧ fFloor (fOfNat n) = n ∧ fCeil (fOfNat n) = n

/-- R159(a): reading at an integer position, or one capacity above or below it, gives the stored word's value, when
the difference to its neighbour is finite. R159(b): reading half way between two words a and b gives
`a + (0.5 * (b - a))`. R153: at a wrapped position q in [0, C) the read gives `a + (frac * (b - a))` with
`frac = q - f32(floor(q))`, a the word at `floor(q)` and b the next one, modulo C. -/
def Obligations.ReadAtIntegerPositionIsTheWord : Prop :=
  (∀ (c : Constants) (m : Memory) (ch : Chan) (k : Nat), k < c.cap → c.cap ≤ 2 ^ 24 →
    isFinite (fSub (m.readWord ch ((k + 1) % c.cap)) (m.readWord ch k)) = true →
    fVal (readInterp c m ch (fOfNat k)) = fVal (m.readWord ch k) ∧
    (k + c.cap ≤ 2 ^ 24 → fVal (readInterp c m ch (fOfNat (k + c.cap))) = fVal (m.readWord ch k)) ∧
    fVal (readInterp c m ch (fNeg (fOfNat (c.cap - k)))) = fVal (m.readWord ch k)) ∧
  (∀ (c : Constants) (m : Memory) (ch : Chan) (k : Nat), k < c.cap → c.cap ≤ 2 ^ 24 → k < 2 ^ 23 →
    readInterp c m ch (fAdd (fOfNat k) 0x3F000000#32) =
      fAdd (m.readWord ch k) (fMul 0x3F000000#32 (fSub (m.readWord ch ((k + 1) % c.cap)) (m.readWord ch k)))) ∧
  (∀ (c : Constants) (m : Memory) (ch : Chan) (p : Word), c.cap ≤ 2 ^ 24 →
    fLe fZero (wrapPosition c p) = true → fLt (wrapPosition c p) (fOfNat c.cap) = true →
    ∃ k : Nat, fFloor (wrapPosition c p) = k ∧ k < c.cap ∧
      readInterp c m ch p = fAdd (m.readWord ch k)
        (fMul (fSub (wrapPosition c p) (fOfNat k)) (fSub (m.readWord ch ((k + 1) % c.cap)) (m.readWord ch k))))

/-- R153, R154: a position at most two capacities from 0, on either side, wraps to a position in [0, C), and the read
interpolates there: it never reads outside the buffer. -/
def Obligations.ReadWrapsIntoTheBuffer : Prop :=
  ∀ (c : Constants) (m : Memory) (ch : Chan) (p : Word), 1 ≤ c.cap → c.cap ≤ 2 ^ 24 →
    fLe (fNeg (fOfNat (2 * c.cap))) p = true → fLe p (fOfNat (2 * c.cap)) = true →
    fLe fZero (wrapPosition c p) = true ∧ fLt (wrapPosition c p) (fOfNat c.cap) = true ∧
    readInterp c m ch p = interpolate c m ch (wrapPosition c p)

/-- `BufWrite` stores a word at `i mod C` that a read of the word gives back, and changes no other byte of either
channel (R150, R81). -/
def Obligations.BufWriteStoresOneWord : Prop :=
  ∀ (c : Constants) (m : Memory) (ch : Chan) (i : Nat) (v : Word), m.wf = true →
    (bufWrite c m ch i v).readWord ch (i % c.cap) = v ∧
    (∀ d a, d ≠ ch ∨ a < 4 * (i % c.cap) ∨ 4 * (i % c.cap) + 4 ≤ a →
      (bufWrite c m ch i v).readByte d a = m.readByte d a) ∧
    (∀ d j, d ≠ ch ∨ j ≠ i % c.cap → (bufWrite c m ch i v).readWord d j = m.readWord d j)

/-- R210(a): with K = 1 one update sets the current value to the target, for finite values. R190, R43: one update of the
nine smoothers is `(tgt * K) + (cur * OMK)` of each one's own pair, with K_GAIN and OMK_GAIN for the gains and the
modulation, K_DELAY and OMK_DELAY for the two delays. -/
def Obligations.SmootherWithUnitCoefficientReachesTarget : Prop :=
  (∀ tgt cur : Word, isFinite tgt = true → isFinite cur = true →
    fVal (smooth fOne (fSub fOne fOne) tgt cur) = fVal tgt ∧
    isFinite (smooth fOne (fSub fOne fOne) tgt cur) = true) ∧
  (∀ (p : Params) (c : Constants) (tgt cur : Smoothers),
    (smoothAll p c tgt cur).dry = fAdd (fMul tgt.dry p.kGain) (fMul cur.dry c.omkGain) ∧
    (smoothAll p c tgt cur).wet = fAdd (fMul tgt.wet p.kGain) (fMul cur.wet c.omkGain) ∧
    (smoothAll p c tgt cur).inp = fAdd (fMul tgt.inp p.kGain) (fMul cur.inp c.omkGain) ∧
    (smoothAll p c tgt cur).fb = fAdd (fMul tgt.fb p.kGain) (fMul cur.fb c.omkGain) ∧
    (smoothAll p c tgt cur).cf = fAdd (fMul tgt.cf p.kGain) (fMul cur.cf c.omkGain) ∧
    (smoothAll p c tgt cur).depth = fAdd (fMul tgt.depth p.kGain) (fMul cur.depth c.omkGain) ∧
    (smoothAll p c tgt cur).rate = fAdd (fMul tgt.rate p.kGain) (fMul cur.rate c.omkGain) ∧
    (smoothAll p c tgt cur).d.c0 = fAdd (fMul tgt.d.c0 p.kDelay) (fMul cur.d.c0 c.omkDelay) ∧
    (smoothAll p c tgt cur).d.c1 = fAdd (fMul tgt.d.c1 p.kDelay) (fMul cur.d.c1 c.omkDelay))

/-- R235, R237: the coefficient is ATT exactly while the tap's magnitude exceeds the envelope; a tap passes bit for bit
while the updated envelope does not exceed 1, and is divided by it above 1; a NaN envelope stays NaN and passes every
tap. -/
def Obligations.LimiterLaw : Prop :=
  ∀ (c : Constants) (env x : Word),
    (fGt (x &&& 0x7FFFFFFF#32) env = true →
      limiterEnv c env x = fAdd (fMul c.att (fSub env (x &&& 0x7FFFFFFF#32))) (x &&& 0x7FFFFFFF#32)) ∧
    (fGt (x &&& 0x7FFFFFFF#32) env = false →
      limiterEnv c env x = fAdd (fMul c.rel (fSub env (x &&& 0x7FFFFFFF#32))) (x &&& 0x7FFFFFFF#32)) ∧
    (fGt (limiterEnv c env x) fOne = false → limiterOut (limiterEnv c env x) x = x) ∧
    (fGt (limiterEnv c env x) fOne = true → limiterOut (limiterEnv c env x) x = fDiv x (limiterEnv c env x)) ∧
    (isNaN env = true ∨ isNaN x = true →
      isNaN (limiterEnv c env x) = true ∧ limiterOut (limiterEnv c env x) x = x)

/-- R132, R138, R239: the first three calls of a reset instance return their inputs bit for bit and record them; the
fourth filters with that history; a site that is off passes its input and holds its instance; a site that is on calls
its own instance. R136: the difference equation. R133 to R135: the coefficients of the high-cut and the low-cut sites. -/
def Obligations.BiquadWarmUpAndBypass : Prop :=
  (∀ (k : Coeffs) (a b d x : Word),
    let F1 := biquadNext Biquad.zero a (biquadOut k Biquad.zero a)
    let F2 := biquadNext F1 b (biquadOut k F1 b)
    let F3 := biquadNext F2 d (biquadOut k F2 d)
    biquadOut k Biquad.zero a = a ∧ biquadOut k F1 b = b ∧ biquadOut k F2 d = d ∧
      F3 = ⟨d, b, d, b, 3⟩ ∧ biquadOut k F3 x = biquadEq k F3 x ∧ (biquadNext F3 x (biquadEq k F3 x)).fill = 3) ∧
  (∀ (c : Constants) (sn : Snapshot) (t : Site) (ch : Chan) (e : Engine) (x : Word), sn.on.get t = false →
    siteOut c sn t ch e x = x ∧ siteNext c sn t ch e x = e) ∧
  (∀ (c : Constants) (sn : Snapshot) (t u : Site) (ch d : Chan) (e : Engine) (x : Word), u ≠ t ∨ d ≠ ch →
    ((siteNext c sn t ch e x).filt.get u).get d = (e.filt.get u).get d) ∧
  (∀ (c : Constants) (sn : Snapshot) (t : Site) (ch : Chan) (e : Engine) (x : Word), sn.on.get t = true →
    siteOut c sn t ch e x = biquadOut (siteCoeffs c sn t) ((e.filt.get t).get ch) x ∧
    ((siteNext c sn t ch e x).filt.get t).get ch = biquadNext ((e.filt.get t).get ch) x (siteOut c sn t ch e x)) ∧
  (∀ (k : Coeffs) (F : Biquad) (x : Word), 3 ≤ F.fill →
    biquadOut k F x = fSub (fSub (fAdd (fAdd (fMul k.c0 x) (fMul k.c1 F.x1)) (fMul k.c2 F.x2)) (fMul k.d1 F.y1))
      (fMul k.d2 F.y2) ∧
    biquadNext F x (biquadOut k F x) = ⟨x, F.x1, biquadOut k F x, F.y1, F.fill⟩) ∧
  (∀ (c : Constants) (sn : Snapshot) (t : Site),
    let w0 := fDiv (fMul 0x40C90FDB#32 (sn.f.get t)) c.rate
    let cs := fCos w0
    let alpha := fDiv (fSin w0) (fMul 0x40000000#32 (sn.q.get t))
    let a0 := fAdd 0x3F800000#32 alpha
    let d1 := fDiv (fMul 0xC0000000#32 cs) a0
    let d2 := fDiv (fSub 0x3F800000#32 alpha) a0
    (t = .ihc ∨ t = .fhc → siteCoeffs c sn t =
      ⟨fDiv (fDiv (fSub 0x3F800000#32 cs) 0x40000000#32) a0, fDiv (fSub 0x3F800000#32 cs) a0,
        fDiv (fDiv (fSub 0x3F800000#32 cs) 0x40000000#32) a0, d1, d2⟩) ∧
    (t = .ilc ∨ t = .flc → siteCoeffs c sn t =
      ⟨fDiv (fDiv (fAdd 0x3F800000#32 cs) 0x40000000#32) a0, fDiv (fAdd 0x3F800000#32 cs ^^^ 0x80000000#32) a0,
        fDiv (fDiv (fAdd 0x3F800000#32 cs) 0x40000000#32) a0, d1, d2⟩))

/-- R54, R227(a): the phase stays in [0, TWO_PI) when the increment lies in [0, TWO_PI / 2]: one subtraction always
wraps it. -/
def Obligations.PhaseStaysInOneTurn : Prop :=
  ∀ (c : Constants) (sn : Snapshot) (e : Engine),
    fLe fZero e.phase = true → fLt e.phase fTwoPi = true →
    fLe fZero (lfoInc c e) = true → fLe (lfoInc c e) 0x40490FDB#32 = true →
    fLe fZero (lfoEngine c sn e).phase = true ∧ fLt (lfoEngine c sn e).phase fTwoPi = true

/-- The words written: in normal mode each channel takes its own filtered input and tap and the other channel's tap; in
ping-pong mode channel 0 takes the sum of both inputs and channel 1 no input (R241, R242). -/
def Obligations.MixerLaw : Prop :=
  ∀ (p : Params) (sn : Snapshot) (cur : Smoothers) (fin tg : Pair Word),
    (sn.pp = false →
      (mix p sn cur fin tg).c0 = fAdd (fAdd (fMul cur.inp fin.c0) (fMul tg.c0 cur.fb)) (fMul tg.c1 cur.cf) ∧
      (mix p sn cur fin tg).c1 = fAdd (fAdd (fMul cur.inp fin.c1) (fMul tg.c1 cur.fb)) (fMul tg.c0 cur.cf)) ∧
    (sn.pp = true →
      (mix p sn cur fin tg).c0 = fAdd (fAdd (fMul cur.inp (fMul p.ppGain (fAdd fin.c0 fin.c1)))
        (fMul tg.c0 cur.fb)) (fMul tg.c1 cur.cf) ∧
      (mix p sn cur fin tg).c1 = fAdd (fMul tg.c1 cur.fb) (fMul tg.c0 cur.cf))

/-- The oscillator: channel 0's offset is `((cur_depth / 1000.0) * RATE) * SIN(phase)`, from the phase before the advance
(R221, R224); channel 1's offset is channel 0's, or its negation while `inv_lat` holds; the latch takes
MOD_INVERT only at a wrap; at the phase and latch that ACTIVATE leaves both offsets are `amp * 0.0` (R221, R222, R52). -/
def Obligations.OscillatorInversionLatchesAtWrap : Prop :=
  (∀ (c : Constants) (e : Engine),
    (lfoOffsets c e).c0 = fMul (fMul (fDiv e.cur.depth 0x447A0000#32) c.rate) (fSin e.phase) ∧
    (e.invLat = false → (lfoOffsets c e).c1 = (lfoOffsets c e).c0) ∧
    (e.invLat = true → (lfoOffsets c e).c1 = (lfoOffsets c e).c0 ^^^ 0x80000000#32) ∧
    (e.phase = 0#32 → e.invLat = false → lfoOffsets c e = ⟨fMul (lfoAmp c e) 0#32, fMul (lfoAmp c e) 0#32⟩)) ∧
  (∀ (c : Constants) (sn : Snapshot) (e : Engine),
    (lfoEngine c sn e).inc = fDiv (fMul fTwoPi e.cur.rate) c.rate ∧
    (fGe (fAdd e.phase (lfoInc c e)) fTwoPi = true →
      (lfoEngine c sn e).invLat = sn.invIn ∧
      (lfoEngine c sn e).phase = fSub (fAdd e.phase (lfoInc c e)) fTwoPi) ∧
    (fGe (fAdd e.phase (lfoInc c e)) fTwoPi = false →
      (lfoEngine c sn e).invLat = e.invLat ∧ (lfoEngine c sn e).phase = fAdd e.phase (lfoInc c e)))

/-- The properties R17 lets a model assume of SIN, COS and POW hold of the model's, whatever the free functions are;
POW is finite and positive where the real power lies in the binary32 range, and wherever `powInRange` says so; that the
range is [2^-149, (2^24 - 1) * 2^104] is the MODEL'S CHOICE (log entry 7). -/
def Obligations.NumericsMeetTheirProperties : Prop :=
  (∀ x, isFinite x = true → isFinite (fSin x) = true ∧ |fRat (fSin x)| ≤ 1) ∧
  (∀ x, isFinite x = true → isFinite (fCos x) = true ∧ |fRat (fCos x)| ≤ 1) ∧
  (∀ x, isZero x = true → isZero (fSin x) = true ∧ fCos x = fOne) ∧
  (∀ b e, isFinite b = true → 0 < fRat b → isZero e = true → fPow b e = fOne) ∧
  (∀ b, isFinite b = true → 0 < fRat b → fPow b fOne = b) ∧
  (∀ b e, isFinite b = true → 0 < fRat b → isFinite e = true → powInRange b e = true →
    isFinite (fPow b e) = true ∧ 0 < fRat (fPow b e)) ∧
  (∀ b e, isFinite b = true → 0 < fRat b → isFinite e = true →
    (2 : ℝ) ^ (-149 : ℤ) ≤ (fRat b : ℝ) ^ (fRat e : ℝ) → (fRat b : ℝ) ^ (fRat e : ℝ) ≤ (2 ^ 24 - 1) * 2 ^ 104 →
    isFinite (fPow b e) = true ∧ 0 < fRat (fPow b e))
end

