-- ==== Sys2Proof/Laws/Containers.lean ====
section
/-! SUPPORT. Reading a per-channel or per-site table after an update. -/

namespace Sys2Proof

@[simp] theorem Pair.get_set_same {α : Type} (p : Pair α) (ch : Chan) (v : α) : (p.set ch v).get ch = v := by
  cases ch <;> rfl

theorem Pair.get_set_other {α : Type} (p : Pair α) {ch c : Chan} (v : α) (h : c ≠ ch) :
    (p.set ch v).get c = p.get c := by
  cases ch <;> cases c <;> first | rfl | exact absurd rfl h

theorem Pair.get_set {α : Type} (p : Pair α) (ch c : Chan) (v : α) :
    (p.set ch v).get c = if c = ch then v else p.get c := by
  cases ch <;> cases c <;> rfl

/-- Updates of different channels commute. -/
theorem Pair.set_comm {α : Type} (p : Pair α) {a b : Chan} (u v : α) (h : a ≠ b) :
    (p.set a u).set b v = (p.set b v).set a u := by
  cases a <;> cases b <;> first | rfl | exact absurd rfl h

theorem Pair.ext_get {α : Type} {p q : Pair α} (h : ∀ ch, p.get ch = q.get ch) : p = q := by
  cases p; cases q
  have h0 := h .c0
  have h1 := h .c1
  simp only [Pair.get] at h0 h1
  rw [h0, h1]

@[simp] theorem Sites.get_set_same {α : Type} (t : Sites α) (s : Site) (v : α) : (t.set s v).get s = v := by
  cases s <;> rfl

theorem Sites.get_set_other {α : Type} (t : Sites α) {s r : Site} (v : α) (h : r ≠ s) :
    (t.set s v).get r = t.get r := by
  cases s <;> cases r <;> first | rfl | exact absurd rfl h

theorem Sites.get_set {α : Type} (t : Sites α) (s r : Site) (v : α) :
    (t.set s v).get r = if r = s then v else t.get r := by
  cases s <;> cases r <;> rfl

end Sys2Proof
end

