-- ==== Sys2Proof/Laws/Decode.lean ====
section
/-! SUPPORT. Lemmas about the decoder and the fields of an encoded command word. -/

namespace Sys2Proof

@[simp] theorem opcodeOf_bits (opc : Opcode) : opcodeOf opc.bits = some opc := by cases opc <;> rfl

/-- A defined OPC field is its opcode's bits. -/
theorem bits_of_opcodeOf {b : BitVec 4} {opc : Opcode} (h : opcodeOf b = some opc) : opc.bits = b := by
  revert h
  revert opc
  revert b
  decide

@[simp] theorem opcField_cmdWord (opc : Opcode) (idx n : Nat) : opcField (cmdWord opc idx n) = opc.bits := by
  ext i hi
  simp only [opcField, cmdWord, BitVec.getElem_extractLsb', BitVec.getLsbD_append, show ¬ 28 + i < 16 by omega,
    show ¬ 28 + i - 16 < 8 by omega, show ¬ 28 + i - 16 - 8 < 4 by omega, show 28 + i - 16 - 8 - 4 = i by omega, if_false]
  exact BitVec.getLsbD_eq_getElem hi

@[simp] theorem rsvField_cmdWord (opc : Opcode) (idx n : Nat) : rsvField (cmdWord opc idx n) = 0#4 := by
  ext i hi
  simp only [rsvField, cmdWord, BitVec.getElem_extractLsb', BitVec.getLsbD_append, show ¬ 24 + i < 16 by omega,
    show ¬ 24 + i - 16 < 8 by omega, show 24 + i - 16 - 8 < 4 by omega, if_true, if_false]
  simp

@[simp] theorem idxField_cmdWord (opc : Opcode) (idx n : Nat) :
    idxField (cmdWord opc idx n) = BitVec.ofNat 8 idx := by
  ext i hi
  simp only [idxField, cmdWord, BitVec.getElem_extractLsb', BitVec.getLsbD_append, show ¬ 16 + i < 16 by omega,
    show 16 + i - 16 = i by omega, hi, if_true, if_false]
  exact BitVec.getLsbD_eq_getElem hi

@[simp] theorem nField_cmdWord (opc : Opcode) (idx n : Nat) :
    nField (cmdWord opc idx n) = BitVec.ofNat 16 n := by
  ext i hi
  simp only [nField, cmdWord, BitVec.getElem_extractLsb', BitVec.getLsbD_append, Nat.zero_add, hi, if_true]
  exact BitVec.getLsbD_eq_getElem hi

/-- Every way the decoder answers a command: the head word decodes to its opcode and the data words follow. -/
theorem decode_cmd_cases {ws rest : List Word} {i : Instr} (h : decode ws = .cmd i rest) :
    ∃ cw ds opc idx n, ws = cw :: ds ∧ decodeWord cw = .cmd opc idx n ∧ withData opc idx n ds = .cmd i rest := by
  cases ws with
  | nil => cases h
  | cons cw ds =>
    simp only [decode] at h
    split at h
    · cases h
    · split at h <;> cases h
    · next opc idx n hd => exact ⟨cw, ds, opc, idx, n, rfl, hd, h⟩

/-- A command word that decodes has RSV = 0, IDX = 0 but for WPARAM and RPARAM, N = 0 but for PROCESS, and its operands
are its fields (R104). -/
theorem decodeWord_cmd_fields {cw : Word} {opc : Opcode} {idx n : Nat} (h : decodeWord cw = .cmd opc idx n) :
    opcField cw = opc.bits ∧ rsvField cw = 0#4 ∧ (opc ≠ .wparam → opc ≠ .rparam → idxField cw = 0#8) ∧
      (opc ≠ .process → nField cw = 0#16) ∧ idx = (idxField cw).toNat ∧ n = (nField cw).toNat := by
  unfold decodeWord at h
  split at h
  · cases h
  · next o ho =>
    split at h
    · cases h
    · next hr =>
      split at h
      · cases h
      · next hi =>
        split at h
        · cases h
        · next hn =>
          cases h
          refine ⟨(bits_of_opcodeOf ho).symm, Decidable.not_not.mp hr, fun h1 h2 => ?_, fun h1 => ?_, rfl, rfl⟩
          · by_contra hx; exact hi ⟨h1, h2, hx⟩
          · by_contra hx; exact hn ⟨h1, hx⟩

theorem toNat_idx_lt (cw : Word) : (idxField cw).toNat < 256 := (idxField cw).isLt

theorem toNat_n_lt (cw : Word) : (nField cw).toNat < 65536 := (nField cw).isLt

end Sys2Proof
end

