-- ==== Sys2Proof/Laws/Memory.lean ====
section
/-! SUPPORT. The laws of the delay buffer memory: read after write, and that every operation keeps the canonical
form. -/

namespace Sys2Proof.Machine

/-- Every listed address is at least `lo`, when the addresses rise from `lo`. -/
theorem risingFrom_mono {lo lo' : Nat} (l : List Host.Cell) (h : lo ≤ lo') (hr : risingFrom lo' l = true) :
    risingFrom lo l = true := by
  cases l with
  | nil => rfl
  | cons c t =>
    obtain ⟨b, x⟩ := c
    simp only [risingFrom, Bool.and_eq_true, decide_eq_true_eq] at hr ⊢
    exact ⟨by omega, hr.2⟩

theorem cellAt_eq_none_of_rising {l : List Host.Cell} {lo a : Nat} (hr : risingFrom lo l = true) (h : a < lo) :
    cellAt l a = none := by
  induction l generalizing lo with
  | nil => rfl
  | cons c t ih =>
    obtain ⟨b, x⟩ := c
    simp only [risingFrom, Bool.and_eq_true, decide_eq_true_eq] at hr
    have hne : a ≠ b := by omega
    simp only [cellAt, hne, if_false]
    exact ih hr.2 (by omega)

/-- What a list answers at the address just put, reading an unlisted address as `u`. -/
theorem cellAt_putCell_same {l : List Host.Cell} {lo : Nat} (u : Byte) (a : Nat) (v : Byte)
    (hr : risingFrom lo l = true) : (cellAt (putCell u a v l) a).getD u = v := by
  induction l generalizing lo with
  | nil =>
    unfold putCell
    split
    · next h => simp [cellAt, h]
    · simp [cellAt]
  | cons c t ih =>
    obtain ⟨b, x⟩ := c
    simp only [risingFrom, Bool.and_eq_true, decide_eq_true_eq] at hr
    unfold putCell
    by_cases hlt : a < b
    · have hnone : cellAt t a = none := cellAt_eq_none_of_rising hr.2 (by omega)
      have hne : a ≠ b := by omega
      by_cases hv : v = u
      · simp [hlt, hv, cellAt, hne, hnone]
      · simp [hlt, hv, cellAt]
    · by_cases heq : a = b
      · subst heq
        have hnone : cellAt t a = none := cellAt_eq_none_of_rising hr.2 (by omega)
        by_cases hv : v = u
        · simp [hv, hnone]
        · simp [hv, cellAt]
      · simp only [hlt, heq, if_false, cellAt]
        exact ih hr.2

/-- A put leaves every other address alone. -/
theorem cellAt_putCell_other (l : List Host.Cell) (u : Byte) {a c : Nat} (v : Byte) (h : c ≠ a) :
    cellAt (putCell u a v l) c = cellAt l c := by
  induction l with
  | nil =>
    unfold putCell
    split
    · rfl
    · simp [cellAt, h]
  | cons d t ih =>
    obtain ⟨b, x⟩ := d
    unfold putCell
    by_cases hlt : a < b
    · by_cases hv : v = u
      · simp [hlt, hv]
      · simp [hlt, hv, cellAt, h]
    · by_cases heq : a = b
      · subst heq
        by_cases hv : v = u
        · simp [hv, cellAt, h]
        · simp [hv, cellAt, h]
      · by_cases hc : c = b
        · simp [hlt, heq, cellAt, hc]
        · simp only [hlt, heq, if_false, cellAt, hc]
          exact ih

theorem risingFrom_putCell {l : List Host.Cell} {lo : Nat} (u : Byte) {a : Nat} (v : Byte)
    (hr : risingFrom lo l = true) (h : lo ≤ a) : risingFrom lo (putCell u a v l) = true := by
  induction l generalizing lo with
  | nil =>
    unfold putCell
    split
    · rfl
    · simp [risingFrom, h]
  | cons c t ih =>
    obtain ⟨b, x⟩ := c
    simp only [risingFrom, Bool.and_eq_true, decide_eq_true_eq] at hr
    obtain ⟨hb, ht⟩ := hr
    unfold putCell
    by_cases hlt : a < b
    · by_cases hv : v = u
      · simp [hlt, hv, risingFrom, hb, ht]
      · have : a + 1 ≤ b := by omega
        simp [hlt, hv, risingFrom, h, ht, this]
    · by_cases heq : a = b
      · subst heq
        by_cases hv : v = u
        · simp only [hv, if_true, Nat.lt_irrefl, if_false]
          exact risingFrom_mono t (by omega) ht
        · simp [hv, risingFrom, h, ht]
      · simp only [hlt, heq, if_false, risingFrom, Bool.and_eq_true, decide_eq_true_eq]
        exact ⟨hb, ih ht (by omega)⟩

/-- A put lists only the new pair beside what was listed. -/
theorem mem_putCell {l : List Host.Cell} {u : Byte} {a : Nat} {v : Byte} {c : Host.Cell}
    (h : c ∈ putCell u a v l) : (c = (a, v) ∧ v ≠ u) ∨ c ∈ l := by
  induction l with
  | nil =>
    unfold putCell at h
    split at h
    · cases h
    · next hv => exact .inl ⟨by simpa using h, hv⟩
  | cons d t ih =>
    obtain ⟨b, x⟩ := d
    unfold putCell at h
    by_cases hlt : a < b
    · by_cases hv : v = u
      · simp only [hlt, hv, if_true] at h
        exact .inr h
      · simp only [hlt, hv, if_true, if_false, List.mem_cons] at h
        rcases h with h | h
        · exact .inl ⟨h, hv⟩
        · exact .inr (List.mem_cons.mpr h)
    · by_cases heq : a = b
      · by_cases hv : v = u
        · rw [if_neg hlt, if_pos heq, if_pos hv] at h
          exact .inr (List.mem_cons_of_mem _ h)
        · rw [if_neg hlt, if_pos heq, if_neg hv, List.mem_cons] at h
          rcases h with h | h
          · exact .inl ⟨h, hv⟩
          · exact .inr (List.mem_cons_of_mem _ h)
      · rw [if_neg hlt, if_neg heq, List.mem_cons] at h
        rcases h with h | h
        · exact .inr (h ▸ List.mem_cons_self)
        · rcases ih h with h | h
          · exact .inl h
          · exact .inr (List.mem_cons_of_mem _ h)

theorem cellsWf_putCell {f : Fill} {ch : Chan} {l : List Host.Cell} (a : Nat) (v : Byte)
    (h : cellsWf f ch l = true) : cellsWf f ch (putCell (unlistedByte f ch a) a v l) = true := by
  simp only [cellsWf, Bool.and_eq_true, List.all_eq_true, decide_eq_true_eq] at h ⊢
  refine ⟨risingFrom_putCell _ v h.1 (Nat.zero_le a), fun c hc => ?_⟩
  rcases mem_putCell hc with ⟨rfl, hv⟩ | hc
  · exact hv
  · exact h.2 c hc

theorem Memory.wf_iff (m : Memory) : m.wf = true ↔ ∀ ch, cellsWf m.fill ch (m.cells.get ch) = true := by
  simp only [Memory.wf, Bool.and_eq_true]
  exact ⟨fun h ch => by cases ch <;> simp [Pair.get, h], fun h => ⟨h .c0, h .c1⟩⟩

@[simp] theorem Memory.fill_writeByte (m : Memory) (ch : Chan) (a : Nat) (v : Byte) :
    (m.writeByte ch a v).fill = m.fill := rfl

@[simp] theorem Memory.fill_writeWord (m : Memory) (ch : Chan) (i : Nat) (v : Word) :
    (m.writeWord ch i v).fill = m.fill := rfl

/-- A byte write keeps the canonical form. -/
theorem Memory.wf_writeByte {m : Memory} (ch : Chan) (a : Nat) (v : Byte) (h : m.wf = true) :
    (m.writeByte ch a v).wf = true := by
  rw [Memory.wf_iff] at h ⊢
  intro c
  simp only [Memory.writeByte, Pair.get_set]
  split
  · next hc => subst hc; exact cellsWf_putCell a v (h c)
  · exact h c

/-- A word write keeps the canonical form. -/
theorem Memory.wf_writeWord {m : Memory} (ch : Chan) (i : Nat) (v : Word) (h : m.wf = true) :
    (m.writeWord ch i v).wf = true :=
  Memory.wf_writeByte _ _ _ (Memory.wf_writeByte _ _ _ (Memory.wf_writeByte _ _ _ (Memory.wf_writeByte _ _ _ h)))

theorem Memory.wf_cleared : Memory.cleared.wf = true := rfl

theorem Memory.wf_unspecified (k : Nat) : (Memory.unspecified k).wf = true := rfl

/-- `BufWrite` keeps the canonical form (R150). -/
theorem wf_bufWrite {m : Memory} (c : Constants) (ch : Chan) (i : Nat) (v : Word) (h : m.wf = true) :
    (bufWrite c m ch i v).wf = true := Memory.wf_writeWord _ _ _ h

/-- The byte just written is read back. -/
theorem Memory.readByte_writeByte_same {m : Memory} (ch : Chan) (a : Nat) (v : Byte) (h : m.wf = true) :
    (m.writeByte ch a v).readByte ch a = v := by
  have hw := (Memory.wf_iff m).mp h ch
  simp only [cellsWf, Bool.and_eq_true] at hw
  have := cellAt_putCell_same (unlistedByte m.fill ch a) a v hw.1
  simp only [Memory.readByte, Memory.writeByte, Pair.get_set_same]
  split
  · next hx => simpa [hx] using this
  · next hx => simpa [hx] using this

/-- A byte write leaves every other byte of both channels alone. -/
theorem Memory.readByte_writeByte_other (m : Memory) {ch c : Chan} {a b : Nat} (v : Byte) (h : c ≠ ch ∨ b ≠ a) :
    (m.writeByte ch a v).readByte c b = m.readByte c b := by
  simp only [Memory.readByte, Memory.writeByte, Pair.get_set]
  by_cases hc : c = ch
  · have hb : b ≠ a := h.resolve_left (fun hn => hn hc)
    simp only [hc, if_true]
    rw [cellAt_putCell_other _ _ _ hb]
  · simp [hc]

/-- A word write leaves every byte outside its four alone. -/
theorem Memory.readByte_writeWord_other (m : Memory) {ch c : Chan} {i b : Nat} (v : Word)
    (h : c ≠ ch ∨ b < 4 * i ∨ 4 * i + 4 ≤ b) : (m.writeWord ch i v).readByte c b = m.readByte c b := by
  have hk : ∀ k, k < 4 → c ≠ ch ∨ b ≠ 4 * i + k := fun k hk => h.imp_right (fun h => by omega)
  simp only [Memory.writeWord]
  rw [Memory.readByte_writeByte_other _ _ (hk 3 (by omega)), Memory.readByte_writeByte_other _ _ (hk 2 (by omega)),
    Memory.readByte_writeByte_other _ _ (hk 1 (by omega)), Memory.readByte_writeByte_other _ _ (h.imp_right (fun h => by omega))]

/-- A word write leaves every other word of both channels alone. -/
theorem Memory.readWord_writeWord_other (m : Memory) {ch c : Chan} {i j : Nat} (v : Word) (h : c ≠ ch ∨ j ≠ i) :
    (m.writeWord ch i v).readWord c j = m.readWord c j := by
  have hk : ∀ k, k < 4 → c ≠ ch ∨ 4 * j + k < 4 * i ∨ 4 * i + 4 ≤ 4 * j + k := fun k hk => h.imp_right (fun h => by omega)
  simp only [Memory.readWord]
  rw [Memory.readByte_writeWord_other m v (hk 3 (by omega)), Memory.readByte_writeWord_other m v (hk 2 (by omega)),
    Memory.readByte_writeWord_other m v (hk 1 (by omega)), ← Nat.add_zero (4 * j),
    Memory.readByte_writeWord_other m v (hk 0 (by omega))]

theorem bytes_of_word (v : Word) :
    v.extractLsb' 24 8 ++ v.extractLsb' 16 8 ++ v.extractLsb' 8 8 ++ v.extractLsb' 0 8 = v := by
  ext i hi
  simp only [BitVec.getElem_append, BitVec.getElem_extractLsb']
  by_cases h0 : i < 8
  · simp [h0, BitVec.getLsbD_eq_getElem hi]
  by_cases h1 : i - 8 < 8
  · have : 8 + (i - 8) = i := by omega
    simp [h0, h1, this, BitVec.getLsbD_eq_getElem hi]
  by_cases h2 : i - 8 - 8 < 8
  · have : 16 + (i - 8 - 8) = i := by omega
    simp [h0, h1, h2, this, BitVec.getLsbD_eq_getElem hi]
  · have : 24 + (i - 8 - 8 - 8) = i := by omega
    simp [h0, h1, h2, this, BitVec.getLsbD_eq_getElem hi]

/-- The word just written is read back. -/
theorem Memory.readWord_writeWord_same {m : Memory} (ch : Chan) (i : Nat) (v : Word) (h : m.wf = true) :
    (m.writeWord ch i v).readWord ch i = v := by
  have h0 := Memory.wf_writeByte ch (4 * i) (v.extractLsb' 0 8) h
  have h1 := Memory.wf_writeByte ch (4 * i + 1) (v.extractLsb' 8 8) h0
  have h2 := Memory.wf_writeByte ch (4 * i + 2) (v.extractLsb' 16 8) h1
  have ne : ∀ {p q : Nat}, p ≠ q → ch ≠ ch ∨ p ≠ q := fun hp => .inr hp
  simp only [Memory.readWord, Memory.writeWord]
  rw [Memory.readByte_writeByte_same _ _ _ h2,
    Memory.readByte_writeByte_other _ _ (ne (by omega)), Memory.readByte_writeByte_same _ _ _ h1,
    Memory.readByte_writeByte_other _ _ (ne (by omega)), Memory.readByte_writeByte_other _ _ (ne (by omega)),
    Memory.readByte_writeByte_same _ _ _ h0,
    Memory.readByte_writeByte_other _ _ (ne (by omega)), Memory.readByte_writeByte_other _ _ (ne (by omega)),
    Memory.readByte_writeByte_other _ _ (ne (by omega)), Memory.readByte_writeByte_same _ _ _ h]
  exact bytes_of_word v

/-- Every byte of a cleared buffer is 0 (R156). -/
@[simp] theorem Memory.readByte_cleared (ch : Chan) (a : Nat) : Memory.cleared.readByte ch a = 0#8 := by
  cases ch <;> rfl

/-- Every word of a cleared buffer is +0.0 (R156). -/
@[simp] theorem Memory.readWord_cleared (ch : Chan) (i : Nat) : Memory.cleared.readWord ch i = 0#32 := by
  simp [Memory.readWord]

end Sys2Proof.Machine
end

