-- ==== Sys2Proof/Laws/State.lean ====
section
/-! SUPPORT. What each update of the state does to each field, true by definition, so that no later proof unfolds a
record update. -/

namespace Sys2Proof.Machine

variable (s : State)

@[simp] theorem State.withIn_params (ws : List Word) : (s.withIn ws).params = s.params := rfl
@[simp] theorem State.withIn_inq (ws : List Word) : (s.withIn ws).inq = ws := rfl
@[simp] theorem State.withIn_outq (ws : List Word) : (s.withIn ws).outq = s.outq := rfl
@[simp] theorem State.withIn_pend (ws : List Word) : (s.withIn ws).pend = s.pend := rfl
@[simp] theorem State.withIn_active (ws : List Word) : (s.withIn ws).active = s.active := rfl
@[simp] theorem State.withIn_cfg (ws : List Word) : (s.withIn ws).cfg = s.cfg := rfl
@[simp] theorem State.withIn_act (ws : List Word) : (s.withIn ws).act = s.act := rfl
@[simp] theorem State.withIn_err (ws : List Word) : (s.withIn ws).err = s.err := rfl
@[simp] theorem State.withIn_lastErr (ws : List Word) : (s.withIn ws).lastErr = s.lastErr := rfl
@[simp] theorem State.withIn_blockRemain (ws : List Word) : (s.withIn ws).blockRemain = s.blockRemain := rfl
@[simp] theorem State.withIn_tempoOut (ws : List Word) : (s.withIn ws).tempoOut = s.tempoOut := rfl
@[simp] theorem State.withIn_const (ws : List Word) : (s.withIn ws).const = s.const := rfl
@[simp] theorem State.withIn_snap (ws : List Word) : (s.withIn ws).snap = s.snap := rfl
@[simp] theorem State.withIn_eng (ws : List Word) : (s.withIn ws).eng = s.eng := rfl
@[simp] theorem State.withIn_mem (ws : List Word) : (s.withIn ws).mem = s.mem := rfl
@[simp] theorem State.withIn_epoch (ws : List Word) : (s.withIn ws).epoch = s.epoch := rfl

@[simp] theorem State.emit_params (vs : List Word) : (s.emit vs).params = s.params := rfl
@[simp] theorem State.emit_inq (vs : List Word) : (s.emit vs).inq = s.inq := rfl
@[simp] theorem State.emit_outq (vs : List Word) : (s.emit vs).outq = s.outq ++ vs := rfl
@[simp] theorem State.emit_pend (vs : List Word) : (s.emit vs).pend = s.pend := rfl
@[simp] theorem State.emit_active (vs : List Word) : (s.emit vs).active = s.active := rfl
@[simp] theorem State.emit_cfg (vs : List Word) : (s.emit vs).cfg = s.cfg := rfl
@[simp] theorem State.emit_act (vs : List Word) : (s.emit vs).act = s.act := rfl
@[simp] theorem State.emit_err (vs : List Word) : (s.emit vs).err = s.err := rfl
@[simp] theorem State.emit_lastErr (vs : List Word) : (s.emit vs).lastErr = s.lastErr := rfl
@[simp] theorem State.emit_blockRemain (vs : List Word) : (s.emit vs).blockRemain = s.blockRemain := rfl
@[simp] theorem State.emit_tempoOut (vs : List Word) : (s.emit vs).tempoOut = s.tempoOut := rfl
@[simp] theorem State.emit_const (vs : List Word) : (s.emit vs).const = s.const := rfl
@[simp] theorem State.emit_snap (vs : List Word) : (s.emit vs).snap = s.snap := rfl
@[simp] theorem State.emit_eng (vs : List Word) : (s.emit vs).eng = s.eng := rfl
@[simp] theorem State.emit_mem (vs : List Word) : (s.emit vs).mem = s.mem := rfl
@[simp] theorem State.emit_epoch (vs : List Word) : (s.emit vs).epoch = s.epoch := rfl

@[simp] theorem State.raise_params (e : ErrCode) : (s.raise e).params = s.params := rfl
@[simp] theorem State.raise_inq (e : ErrCode) : (s.raise e).inq = s.inq := rfl
@[simp] theorem State.raise_outq (e : ErrCode) : (s.raise e).outq = s.outq := rfl
@[simp] theorem State.raise_pend (e : ErrCode) : (s.raise e).pend = s.pend := rfl
@[simp] theorem State.raise_active (e : ErrCode) : (s.raise e).active = s.active := rfl
@[simp] theorem State.raise_cfg (e : ErrCode) : (s.raise e).cfg = s.cfg := rfl
@[simp] theorem State.raise_act (e : ErrCode) : (s.raise e).act = s.act := rfl
@[simp] theorem State.raise_err (e : ErrCode) : (s.raise e).err = setErrBit s.err e := rfl
@[simp] theorem State.raise_lastErr (e : ErrCode) : (s.raise e).lastErr = BitVec.ofNat 4 e.code := rfl
@[simp] theorem State.raise_blockRemain (e : ErrCode) : (s.raise e).blockRemain = s.blockRemain := rfl
@[simp] theorem State.raise_tempoOut (e : ErrCode) : (s.raise e).tempoOut = s.tempoOut := rfl
@[simp] theorem State.raise_const (e : ErrCode) : (s.raise e).const = s.const := rfl
@[simp] theorem State.raise_snap (e : ErrCode) : (s.raise e).snap = s.snap := rfl
@[simp] theorem State.raise_eng (e : ErrCode) : (s.raise e).eng = s.eng := rfl
@[simp] theorem State.raise_mem (e : ErrCode) : (s.raise e).mem = s.mem := rfl
@[simp] theorem State.raise_epoch (e : ErrCode) : (s.raise e).epoch = s.epoch := rfl

@[simp] theorem State.fail_params (e : ErrCode) (n : Nat) : (s.fail e n).params = s.params := rfl
@[simp] theorem State.fail_inq (e : ErrCode) (n : Nat) : (s.fail e n).inq = s.inq := rfl
@[simp] theorem State.fail_outq (e : ErrCode) (n : Nat) : (s.fail e n).outq = s.outq ++ List.replicate n 0#32 := rfl
@[simp] theorem State.fail_pend (e : ErrCode) (n : Nat) : (s.fail e n).pend = s.pend := rfl
@[simp] theorem State.fail_active (e : ErrCode) (n : Nat) : (s.fail e n).active = s.active := rfl
@[simp] theorem State.fail_cfg (e : ErrCode) (n : Nat) : (s.fail e n).cfg = s.cfg := rfl
@[simp] theorem State.fail_act (e : ErrCode) (n : Nat) : (s.fail e n).act = s.act := rfl
@[simp] theorem State.fail_err (e : ErrCode) (n : Nat) : (s.fail e n).err = setErrBit s.err e := rfl
@[simp] theorem State.fail_lastErr (e : ErrCode) (n : Nat) : (s.fail e n).lastErr = BitVec.ofNat 4 e.code := rfl
@[simp] theorem State.fail_blockRemain (e : ErrCode) (n : Nat) : (s.fail e n).blockRemain = s.blockRemain := rfl
@[simp] theorem State.fail_tempoOut (e : ErrCode) (n : Nat) : (s.fail e n).tempoOut = s.tempoOut := rfl
@[simp] theorem State.fail_const (e : ErrCode) (n : Nat) : (s.fail e n).const = s.const := rfl
@[simp] theorem State.fail_snap (e : ErrCode) (n : Nat) : (s.fail e n).snap = s.snap := rfl
@[simp] theorem State.fail_eng (e : ErrCode) (n : Nat) : (s.fail e n).eng = s.eng := rfl
@[simp] theorem State.fail_mem (e : ErrCode) (n : Nat) : (s.fail e n).mem = s.mem := rfl
@[simp] theorem State.fail_epoch (e : ErrCode) (n : Nat) : (s.fail e n).epoch = s.epoch := rfl

@[simp] theorem State.writePend_params (i : Fin 26) (v : Word) : (s.writePend i v).params = s.params := rfl
@[simp] theorem State.writePend_inq (i : Fin 26) (v : Word) : (s.writePend i v).inq = s.inq := rfl
@[simp] theorem State.writePend_outq (i : Fin 26) (v : Word) : (s.writePend i v).outq = s.outq := rfl
@[simp] theorem State.writePend_pend (i : Fin 26) (v : Word) : (s.writePend i v).pend = s.pend.set i v := rfl
@[simp] theorem State.writePend_active (i : Fin 26) (v : Word) : (s.writePend i v).active = s.active := rfl
@[simp] theorem State.writePend_cfg (i : Fin 26) (v : Word) : (s.writePend i v).cfg = s.cfg := rfl
@[simp] theorem State.writePend_act (i : Fin 26) (v : Word) : (s.writePend i v).act = s.act := rfl
@[simp] theorem State.writePend_err (i : Fin 26) (v : Word) : (s.writePend i v).err = s.err := rfl
@[simp] theorem State.writePend_lastErr (i : Fin 26) (v : Word) : (s.writePend i v).lastErr = s.lastErr := rfl
@[simp] theorem State.writePend_blockRemain (i : Fin 26) (v : Word) : (s.writePend i v).blockRemain = s.blockRemain := rfl
@[simp] theorem State.writePend_tempoOut (i : Fin 26) (v : Word) : (s.writePend i v).tempoOut = s.tempoOut := rfl
@[simp] theorem State.writePend_const (i : Fin 26) (v : Word) : (s.writePend i v).const = s.const := rfl
@[simp] theorem State.writePend_snap (i : Fin 26) (v : Word) : (s.writePend i v).snap = s.snap := rfl
@[simp] theorem State.writePend_eng (i : Fin 26) (v : Word) : (s.writePend i v).eng = s.eng := rfl
@[simp] theorem State.writePend_mem (i : Fin 26) (v : Word) : (s.writePend i v).mem = s.mem := rfl
@[simp] theorem State.writePend_epoch (i : Fin 26) (v : Word) : (s.writePend i v).epoch = s.epoch := rfl

@[simp] theorem State.configured_params (r : Word) : (s.configured r).params = s.params := rfl
@[simp] theorem State.configured_inq (r : Word) : (s.configured r).inq = s.inq := rfl
@[simp] theorem State.configured_outq (r : Word) : (s.configured r).outq = s.outq := rfl
@[simp] theorem State.configured_pend (r : Word) : (s.configured r).pend = Bank.zero := rfl
@[simp] theorem State.configured_active (r : Word) : (s.configured r).active = Bank.zero := rfl
@[simp] theorem State.configured_cfg (r : Word) : (s.configured r).cfg = true := rfl
@[simp] theorem State.configured_act (r : Word) : (s.configured r).act = false := rfl
@[simp] theorem State.configured_err (r : Word) : (s.configured r).err = s.err := rfl
@[simp] theorem State.configured_lastErr (r : Word) : (s.configured r).lastErr = s.lastErr := rfl
@[simp] theorem State.configured_blockRemain (r : Word) : (s.configured r).blockRemain = 0#16 := rfl
@[simp] theorem State.configured_tempoOut (r : Word) : (s.configured r).tempoOut = fZero := rfl
@[simp] theorem State.configured_const (r : Word) : (s.configured r).const = constantsOf s.params r := rfl
@[simp] theorem State.configured_snap (r : Word) : (s.configured r).snap = Snapshot.zero := rfl
@[simp] theorem State.configured_eng (r : Word) : (s.configured r).eng = Engine.reset := rfl
@[simp] theorem State.configured_mem (r : Word) : (s.configured r).mem = Memory.cleared := rfl
@[simp] theorem State.configured_epoch (r : Word) : (s.configured r).epoch = s.epoch := rfl

@[simp] theorem State.activated_params : (s.activated).params = s.params := rfl
@[simp] theorem State.activated_inq : (s.activated).inq = s.inq := rfl
@[simp] theorem State.activated_outq : (s.activated).outq = s.outq := rfl
@[simp] theorem State.activated_pend : (s.activated).pend = s.pend := rfl
@[simp] theorem State.activated_active : (s.activated).active = s.active := rfl
@[simp] theorem State.activated_cfg : (s.activated).cfg = s.cfg := rfl
@[simp] theorem State.activated_act : (s.activated).act = true := rfl
@[simp] theorem State.activated_err : (s.activated).err = s.err := rfl
@[simp] theorem State.activated_lastErr : (s.activated).lastErr = s.lastErr := rfl
@[simp] theorem State.activated_blockRemain : (s.activated).blockRemain = s.blockRemain := rfl
@[simp] theorem State.activated_tempoOut : (s.activated).tempoOut = fZero := rfl
@[simp] theorem State.activated_const : (s.activated).const = s.const := rfl
@[simp] theorem State.activated_snap : (s.activated).snap = Snapshot.zero := rfl
@[simp] theorem State.activated_eng : (s.activated).eng = Engine.reset := rfl
@[simp] theorem State.activated_mem : (s.activated).mem = Memory.cleared := rfl
@[simp] theorem State.activated_epoch : (s.activated).epoch = s.epoch := rfl

@[simp] theorem State.tornDown_params : (s.tornDown).params = s.params := rfl
@[simp] theorem State.tornDown_inq : (s.tornDown).inq = s.inq := rfl
@[simp] theorem State.tornDown_outq : (s.tornDown).outq = s.outq := rfl
@[simp] theorem State.tornDown_pend : (s.tornDown).pend = s.pend := rfl
@[simp] theorem State.tornDown_active : (s.tornDown).active = s.active := rfl
@[simp] theorem State.tornDown_cfg : (s.tornDown).cfg = false := rfl
@[simp] theorem State.tornDown_act : (s.tornDown).act = false := rfl
@[simp] theorem State.tornDown_err : (s.tornDown).err = s.err := rfl
@[simp] theorem State.tornDown_lastErr : (s.tornDown).lastErr = s.lastErr := rfl
@[simp] theorem State.tornDown_blockRemain : (s.tornDown).blockRemain = 0#16 := rfl
@[simp] theorem State.tornDown_tempoOut : (s.tornDown).tempoOut = fZero := rfl
@[simp] theorem State.tornDown_const : (s.tornDown).const = Constants.zero := rfl
@[simp] theorem State.tornDown_snap : (s.tornDown).snap = Snapshot.zero := rfl
@[simp] theorem State.tornDown_eng : (s.tornDown).eng = Engine.reset := rfl
@[simp] theorem State.tornDown_mem : (s.tornDown).mem = Memory.unspecified s.epoch := rfl
@[simp] theorem State.tornDown_epoch : (s.tornDown).epoch = s.epoch + 1 := rfl

@[simp] theorem State.blockOpened_params (n : Nat) : (s.blockOpened n).params = s.params := rfl
@[simp] theorem State.blockOpened_inq (n : Nat) : (s.blockOpened n).inq = s.inq := rfl
@[simp] theorem State.blockOpened_outq (n : Nat) : (s.blockOpened n).outq = s.outq := rfl
@[simp] theorem State.blockOpened_pend (n : Nat) : (s.blockOpened n).pend = s.pend := rfl
@[simp] theorem State.blockOpened_active (n : Nat) : (s.blockOpened n).active = snapshotBank s.pend := rfl
@[simp] theorem State.blockOpened_cfg (n : Nat) : (s.blockOpened n).cfg = s.cfg := rfl
@[simp] theorem State.blockOpened_act (n : Nat) : (s.blockOpened n).act = s.act := rfl
@[simp] theorem State.blockOpened_err (n : Nat) : (s.blockOpened n).err = s.err := rfl
@[simp] theorem State.blockOpened_lastErr (n : Nat) : (s.blockOpened n).lastErr = s.lastErr := rfl
@[simp] theorem State.blockOpened_blockRemain (n : Nat) : (s.blockOpened n).blockRemain = BitVec.ofNat 16 n := rfl
@[simp] theorem State.blockOpened_tempoOut (n : Nat) : (s.blockOpened n).tempoOut = clampTempo s.params (snapshotBank s.pend)[0] := rfl
@[simp] theorem State.blockOpened_const (n : Nat) : (s.blockOpened n).const = s.const := rfl
@[simp] theorem State.blockOpened_snap (n : Nat) : (s.blockOpened n).snap = decodeSnapshot s.params s.const (snapshotBank s.pend) := rfl
@[simp] theorem State.blockOpened_eng (n : Nat) : (s.blockOpened n).eng = { s.eng with tgt := processTargets (decodeSnapshot s.params s.const (snapshotBank s.pend)) s.eng.tgt } := rfl
@[simp] theorem State.blockOpened_mem (n : Nat) : (s.blockOpened n).mem = s.mem := rfl
@[simp] theorem State.blockOpened_epoch (n : Nat) : (s.blockOpened n).epoch = s.epoch := rfl

@[simp] theorem State.sampled_params (x0 x1 : Word) : (s.sampled x0 x1).params = s.params := rfl
@[simp] theorem State.sampled_inq (x0 x1 : Word) : (s.sampled x0 x1).inq = s.inq := rfl
@[simp] theorem State.sampled_outq (x0 x1 : Word) : (s.sampled x0 x1).outq = s.outq ++ [(s.stepOf x0 x1).y.c0, (s.stepOf x0 x1).y.c1] := rfl
@[simp] theorem State.sampled_pend (x0 x1 : Word) : (s.sampled x0 x1).pend = s.pend := rfl
@[simp] theorem State.sampled_active (x0 x1 : Word) : (s.sampled x0 x1).active = s.active := rfl
@[simp] theorem State.sampled_cfg (x0 x1 : Word) : (s.sampled x0 x1).cfg = s.cfg := rfl
@[simp] theorem State.sampled_act (x0 x1 : Word) : (s.sampled x0 x1).act = s.act := rfl
@[simp] theorem State.sampled_err (x0 x1 : Word) : (s.sampled x0 x1).err = s.err := rfl
@[simp] theorem State.sampled_lastErr (x0 x1 : Word) : (s.sampled x0 x1).lastErr = s.lastErr := rfl
@[simp] theorem State.sampled_blockRemain (x0 x1 : Word) : (s.sampled x0 x1).blockRemain = s.blockRemain - 1#16 := rfl
@[simp] theorem State.sampled_tempoOut (x0 x1 : Word) : (s.sampled x0 x1).tempoOut = s.tempoOut := rfl
@[simp] theorem State.sampled_const (x0 x1 : Word) : (s.sampled x0 x1).const = s.const := rfl
@[simp] theorem State.sampled_snap (x0 x1 : Word) : (s.sampled x0 x1).snap = s.snap := rfl
@[simp] theorem State.sampled_eng (x0 x1 : Word) : (s.sampled x0 x1).eng = (s.stepOf x0 x1).eng := rfl
@[simp] theorem State.sampled_mem (x0 x1 : Word) : (s.sampled x0 x1).mem = (s.stepOf x0 x1).mem := rfl
@[simp] theorem State.sampled_epoch (x0 x1 : Word) : (s.sampled x0 x1).epoch = s.epoch := rfl

@[simp] theorem State.withIn_blk (ws : List Word) : (s.withIn ws).blk = s.blk := rfl
@[simp] theorem State.emit_blk (vs : List Word) : (s.emit vs).blk = s.blk := rfl
@[simp] theorem State.raise_blk (e : ErrCode) : (s.raise e).blk = s.blk := rfl
@[simp] theorem State.fail_blk (e : ErrCode) (n : Nat) : (s.fail e n).blk = s.blk := rfl
@[simp] theorem State.writePend_blk (i : Fin 26) (v : Word) : (s.writePend i v).blk = s.blk := rfl
@[simp] theorem State.activated_blk : (s.activated).blk = s.blk := rfl

@[simp] theorem State.configured_blk (r : Word) : (s.configured r).blk = false := rfl
@[simp] theorem State.tornDown_blk : s.tornDown.blk = false := rfl

@[simp] theorem Engine.setFilt_cur (e : Engine) (t : Site) (ch : Chan) (F : Biquad) : (e.setFilt t ch F).cur = e.cur := rfl
@[simp] theorem Engine.setFilt_tgt (e : Engine) (t : Site) (ch : Chan) (F : Biquad) : (e.setFilt t ch F).tgt = e.tgt := rfl
@[simp] theorem Engine.setFilt_fsm (e : Engine) (t : Site) (ch : Chan) (F : Biquad) : (e.setFilt t ch F).fsm = e.fsm := rfl
@[simp] theorem Engine.setFilt_fadePos (e : Engine) (t : Site) (ch : Chan) (F : Biquad) :
    (e.setFilt t ch F).fadePos = e.fadePos := rfl
@[simp] theorem Engine.setFilt_fillCnt (e : Engine) (t : Site) (ch : Chan) (F : Biquad) :
    (e.setFilt t ch F).fillCnt = e.fillCnt := rfl
@[simp] theorem Engine.setFilt_com (e : Engine) (t : Site) (ch : Chan) (F : Biquad) : (e.setFilt t ch F).com = e.com := rfl
@[simp] theorem Engine.setFilt_w (e : Engine) (t : Site) (ch : Chan) (F : Biquad) : (e.setFilt t ch F).w = e.w := rfl
@[simp] theorem Engine.setFilt_phase (e : Engine) (t : Site) (ch : Chan) (F : Biquad) :
    (e.setFilt t ch F).phase = e.phase := rfl
@[simp] theorem Engine.setFilt_inc (e : Engine) (t : Site) (ch : Chan) (F : Biquad) : (e.setFilt t ch F).inc = e.inc := rfl
@[simp] theorem Engine.setFilt_invLat (e : Engine) (t : Site) (ch : Chan) (F : Biquad) :
    (e.setFilt t ch F).invLat = e.invLat := rfl
@[simp] theorem Engine.setFilt_env (e : Engine) (t : Site) (ch : Chan) (F : Biquad) : (e.setFilt t ch F).env = e.env := rfl

/-- An open block is a non-zero `BLOCK_REMAIN` (R39). -/
theorem State.blk_iff : s.blk = true ↔ s.blockRemain ≠ 0#16 := by simp [State.blk]

end Sys2Proof.Machine
end

