-- ==== Sys2Proof/Laws/Engine.lean ====
section
/-! SUPPORT. What each stage of the sample step can do to the engine: one lemma per shared operation, so that a later
proof cites it and does not unfold the stage. -/

namespace Sys2Proof.Machine

/-- A filter site changes nothing of the engine but its own instance. -/
theorem siteNext_eq (c : Constants) (sn : Snapshot) (t : Site) (ch : Chan) (e : Engine) (x : Word) :
    siteNext c sn t ch e x = { e with filt := (siteNext c sn t ch e x).filt } := by
  unfold siteNext
  split <;> rfl

/-- A filter chain changes nothing of the engine but the filter instances. -/
theorem chain_eq (c : Constants) (sn : Snapshot) (t r : Site) (ch : Chan) (e : Engine) (x : Word) :
    (chain c sn t r ch e x).1 = { e with filt := (chain c sn t r ch e x).1.filt } := by
  simp only [chain]
  rw [siteNext_eq c sn r, siteNext_eq c sn t]

/-- The tap stage changes nothing of the engine but the channel's envelope and the filter instances (R256). -/
theorem tapStage_eq (c : Constants) (sn : Snapshot) (fade : Word) (m : Memory) (ch : Chan) (pos : Word) (e : Engine) :
    (tapStage c sn fade m ch pos e).1 =
      { e with
        env := e.env.set ch (limiterEnv c (e.env.get ch) (readInterp c m ch pos))
        filt := (tapStage c sn fade m ch pos e).1.filt } := by
  simp only [tapStage, feedbackFilter]
  rw [chain_eq]

/-- The oscillator changes nothing of the engine but `phase`, `inc` and `inv_lat` (R221). -/
theorem lfoEngine_eq (c : Constants) (sn : Snapshot) (e : Engine) :
    lfoEngine c sn e =
      { e with
        inc := lfoInc c e
        phase := (lfoEngine c sn e).phase
        invLat := (lfoEngine c sn e).invLat } := by
  unfold lfoEngine
  dsimp only
  split <;> rfl

/-- The forced fade-out either leaves the state or answers FADE_OUT (R173). -/
theorem forcedFsm_cases (sn : Snapshot) (com : Committed) (f : Fsm) :
    forcedFsm sn com f = f ∨ (forcedFsm sn com f = .fadeOut ∧ f ≠ .fadeOutDone) := by
  cases f with
  | fadeOut => exact .inl rfl
  | fadeOutDone => exact .inl rfl
  | fillBuf => simp only [forcedFsm]; split <;> simp
  | fadeIn => simp only [forcedFsm]; split <;> simp
  | cycle => simp only [forcedFsm]; split <;> simp

/-- Everything one `FSM_STEP` can do to the engine (R173 to R179). -/
theorem fsmEngine_cases (p : Params) (c : Constants) (sn : Snapshot) (e : Engine) :
    (e.fsm = .fadeOut ∧ fsmEngine p c sn e = fadeOutAction { e with fsm := .fadeOut }) ∨
    (e.fsm ≠ .fadeOut ∧ e.fsm ≠ .fadeOutDone ∧ (changed sn e.com || muted sn) = true ∧
      fsmEngine p c sn e = fadeOutAction { e with fsm := .fadeOut }) ∨
    (e.fsm = .fadeOutDone ∧ muted sn = true ∧ fsmEngine p c sn e = e) ∨
    (e.fsm = .fadeOutDone ∧ muted sn = false ∧ fsmEngine p c sn e = commitEngine sn e) ∨
    (e.fsm = .fillBuf ∧ (changed sn e.com || muted sn) = false ∧ fsmEngine p c sn e = fillBufAction p c e) ∨
    (e.fsm = .fadeIn ∧ (changed sn e.com || muted sn) = false ∧ fsmEngine p c sn e = fadeInAction c e) ∨
    (e.fsm = .cycle ∧ (changed sn e.com || muted sn) = false ∧ fsmEngine p c sn e = cycleAction c e) := by
  rcases e with ⟨cur, tgt, fsm, fadePos, fillCnt, com, w, phase, inc, invLat, env, filt⟩
  cases fsm <;> simp only [fsmEngine, forcedFsm]
  · simp
  · by_cases hm : muted sn <;> simp [fadeOutDoneAction, hm, commitEngine]
  · by_cases h : (changed sn com || muted sn) = true <;> simp [h]
  · by_cases h : (changed sn com || muted sn) = true <;> simp [h]
  · by_cases h : (changed sn com || muted sn) = true <;> simp [h]

/-- The state machine never writes a current value, the oscillator, an envelope or a filter (R192, R174). -/
theorem fsmEngine_frame (p : Params) (c : Constants) (sn : Snapshot) (e : Engine) :
    (fsmEngine p c sn e).cur = e.cur ∧ (fsmEngine p c sn e).phase = e.phase ∧ (fsmEngine p c sn e).inc = e.inc ∧
      (fsmEngine p c sn e).invLat = e.invLat ∧ (fsmEngine p c sn e).env = e.env ∧
      (fsmEngine p c sn e).filt = e.filt := by
  rcases fsmEngine_cases p c sn e with ⟨_, h⟩ | ⟨_, _, _, h⟩ | ⟨_, _, h⟩ | ⟨_, _, h⟩ | ⟨_, _, h⟩ | ⟨_, _, h⟩ | ⟨_, _, h⟩ <;>
    rw [h] <;> exact ⟨rfl, rfl, rfl, rfl, rfl, rfl⟩

/-- The write index after the state machine: 0 at a commit, unchanged otherwise (R174). -/
theorem fsmEngine_w (p : Params) (c : Constants) (sn : Snapshot) (e : Engine) :
    (fsmEngine p c sn e).w = if commits sn e then 0 else e.w := by
  rcases fsmEngine_cases p c sn e with ⟨hf, h⟩ | ⟨_, hf, _, h⟩ | ⟨hf, hm, h⟩ | ⟨hf, hm, h⟩ | ⟨hf, _, h⟩ | ⟨hf, _, h⟩ | ⟨hf, _, h⟩ <;>
    rw [h] <;>
    simp [commits, fadeOutAction, commitEngine, fillBufAction, fadeInAction, cycleAction, *]

/-- The two chains of step 5 and the two tap stages of step 4 leave everything but the envelopes and the filters, so
the engine that a sample step returns is determined up to those by the engine after step 3 (R255, R257). -/
theorem stepAudio_eng_eq (p : Params) (c : Constants) (sn : Snapshot) (e : Engine) (m : Memory) (fade : Word)
    (off x : Pair Word) :
    (stepAudio p c sn e m fade off x).eng =
      advance c { e with
        env := (stepAudio p c sn e m fade off x).eng.env
        filt := (stepAudio p c sn e m fade off x).eng.filt } := by
  simp only [stepAudio, inputFilter, advance]
  rw [chain_eq c sn .ihc .ilc .c1, chain_eq c sn .ihc .ilc .c0, tapStage_eq c sn fade m .c1, tapStage_eq c sn fade m .c0]

/-- The buffers after a sample step's audio part: one word per channel at the write index (R257). -/
theorem stepAudio_mem (p : Params) (c : Constants) (sn : Snapshot) (e : Engine) (m : Memory) (fade : Word)
    (off x : Pair Word) :
    ∃ v0 v1, (stepAudio p c sn e m fade off x).mem = bufWrite c (bufWrite c m .c0 e.w v0) .c1 e.w v1 :=
  ⟨_, _, rfl⟩

/-- The buffers after the state machine keep the canonical form. -/
theorem wf_fsmMemory {p : Params} {sn : Snapshot} {e : Engine} {m : Memory} (h : m.wf = true) :
    (fsmMemory p sn e m).wf = true := by
  unfold fsmMemory commitMemory
  split
  · split
    · rfl
    · exact h
  · exact h

/-- A sample step keeps the buffers' canonical form. -/
theorem wf_sampleStep {p : Params} {c : Constants} {sn : Snapshot} {e : Engine} {m : Memory} (x : Pair Word)
    (h : m.wf = true) : (sampleStep p c sn e m x).mem.wf = true := by
  obtain ⟨v0, v1, hm⟩ := stepAudio_mem p c sn (lfoEngine c sn (stepControl p c sn e))
    (fsmMemory p sn (smoothEngine p c e) m) (fadeOf c (stepControl p c sn e)) (lfoOffsets c (stepControl p c sn e)) x
  simp only [sampleStep]
  rw [hm]
  exact wf_bufWrite _ _ _ _ (wf_bufWrite _ _ _ _ (wf_fsmMemory h))

end Sys2Proof.Machine
end

