-- ==== Sys2Proof/Laws/Float.lean ====
section
/-! SUPPORT. Basic lemmas of the binary32 patterns: their classes, signs and the free NaN. -/

namespace Sys2Proof.Machine

/-- Whatever bits it has, the NaN an operation returns is a NaN (R14). -/
@[simp] theorem isNaN_fNaN (op : FpOp) (a b : Word) : isNaN (fNaN op a b) = true := by
  unfold fNaN
  split
  · assumption
  · decide

theorem fBits_lt (w : Word) : fBits w < 2 ^ 31 := Nat.mod_lt _ (by decide)

theorem isFinite_or_isInf_or_isNaN (w : Word) : isFinite w = true ∨ isInf w = true ∨ isNaN w = true := by
  simp only [isFinite, isInf, isNaN, decide_eq_true_eq]
  omega

theorem isNaN_eq_false_of_isFinite {w : Word} (h : isFinite w = true) : isNaN w = false := by
  simp only [isFinite, isNaN, decide_eq_true_eq, decide_eq_false_iff_not] at *
  omega

theorem isInf_eq_false_of_isFinite {w : Word} (h : isFinite w = true) : isInf w = false := by
  simp only [isFinite, isInf, decide_eq_true_eq, decide_eq_false_iff_not] at *
  omega

theorem fSign_eq (w : Word) : fSign w = decide (2 ^ 31 ≤ w.toNat) := by
  simp [fSign, BitVec.msb_eq_decide]

theorem toNat_eq (w : Word) : w.toNat = (if fSign w then 2 ^ 31 else 0) + fBits w := by
  have := w.isLt
  simp only [fSign_eq, fBits, decide_eq_true_eq]
  split <;> omega

theorem roundMag_le (n d : Nat) : roundMag n d ≤ 0x7F800000 := Nat.min_le_right _ _

@[simp] theorem fBits_fPack {neg : Bool} {b : Nat} (h : b < 2 ^ 31) : fBits (fPack neg b) = b := by
  cases neg <;> simp only [fBits, fPack, BitVec.toNat_ofNat, if_true, Bool.false_eq_true, if_false] <;> omega

@[simp] theorem fSign_fPack {neg : Bool} {b : Nat} (h : b < 2 ^ 31) : fSign (fPack neg b) = neg := by
  cases neg <;> simp only [fSign_eq, fPack, BitVec.toNat_ofNat, if_true, Bool.false_eq_true, if_false] <;>
    simp only [decide_eq_true_eq, decide_eq_false_iff_not] <;> omega

/-- A rounded magnitude is never a NaN's. -/
@[simp] theorem isNaN_fPack_roundMag (neg : Bool) (n d : Nat) : isNaN (fPack neg (roundMag n d)) = false := by
  have := roundMag_le n d
  simp only [isNaN, decide_eq_false_iff_not]
  rw [fBits_fPack (by omega)]
  omega

/-- Every comparison with a NaN is false (R15). -/
theorem fLt_of_isNaN_left {a : Word} (b : Word) (h : isNaN a = true) : fLt a b = false := by simp [fLt, h]
theorem fLt_of_isNaN_right (a : Word) {b : Word} (h : isNaN b = true) : fLt a b = false := by simp [fLt, h]
theorem fLe_of_isNaN_left {a : Word} (b : Word) (h : isNaN a = true) : fLe a b = false := by simp [fLe, h]
theorem fLe_of_isNaN_right (a : Word) {b : Word} (h : isNaN b = true) : fLe a b = false := by simp [fLe, h]

/-- A NaN operand makes a NaN result (R14). -/
theorem isNaN_fAdd_left {a : Word} (b : Word) (h : isNaN a = true) : isNaN (fAdd a b) = true := by simp [fAdd, h]
theorem isNaN_fAdd_right (a : Word) {b : Word} (h : isNaN b = true) : isNaN (fAdd a b) = true := by simp [fAdd, h]
theorem isNaN_fSub_left {a : Word} (b : Word) (h : isNaN a = true) : isNaN (fSub a b) = true := by simp [fSub, h]
theorem isNaN_fSub_right (a : Word) {b : Word} (h : isNaN b = true) : isNaN (fSub a b) = true := by simp [fSub, h]
theorem isNaN_fMul_left {a : Word} (b : Word) (h : isNaN a = true) : isNaN (fMul a b) = true := by simp [fMul, h]
theorem isNaN_fMul_right (a : Word) {b : Word} (h : isNaN b = true) : isNaN (fMul a b) = true := by simp [fMul, h]
theorem isNaN_fDiv_left {a : Word} (b : Word) (h : isNaN a = true) : isNaN (fDiv a b) = true := by simp [fDiv, h]
theorem isNaN_fDiv_right (a : Word) {b : Word} (h : isNaN b = true) : isNaN (fDiv a b) = true := by simp [fDiv, h]

end Sys2Proof.Machine
end

