-- ==== Sys2Proof/Laws/Numerics.lean ====
section
/-! SUPPORT. What `powInRange` decides: that the real power lies in the binary32 range (R17). -/

namespace Sys2Proof.Machine

/-- The magnitude of a pattern as a real number. -/
theorem abs_fRat (w : Word) : |(fRat w : ℝ)| = (fMag w : ℝ) / 2 ^ 149 := by
  unfold fRat fVal
  split <;> push_cast <;> simp [abs_div, neg_div, abs_neg]

/-- A value greater than 0 has its sign bit clear. -/
theorem fRat_eq_of_pos {b : Word} (h : 0 < fRat b) : (fRat b : ℝ) = (fMag b : ℝ) / 2 ^ 149 := by
  rw [← abs_fRat, abs_of_pos (by exact_mod_cast h)]

/-- `2^E ≤ b < 2^(E+1)` for the exponent E of a value greater than 0. -/
theorem two_zpow_exponentOf {b : Word} (h : 0 < fRat b) :
    (2 : ℝ) ^ ((exponentOf b : ℝ)) ≤ fRat b ∧ (fRat b : ℝ) ≤ (2 : ℝ) ^ ((exponentOf b : ℝ) + 1) := by
  have hb := fRat_eq_of_pos h
  have hm : fMag b ≠ 0 := by
    rintro h0
    rw [h0] at hb
    have : (0 : ℝ) < fRat b := by exact_mod_cast h
    rw [hb] at this
    simp at this
  have h1 : (2 : ℝ) ^ Nat.log2 (fMag b) ≤ fMag b := by exact_mod_cast Nat.log2_self_le hm
  have h2 : (fMag b : ℝ) ≤ (2 : ℝ) ^ (Nat.log2 (fMag b) + 1) := by exact_mod_cast (Nat.lt_log2_self (n := fMag b)).le
  rw [hb]
  have e1 : ((exponentOf b : ℤ) : ℝ) = (Nat.log2 (fMag b) : ℝ) - (149 : ℕ) := by simp [exponentOf]
  rw [e1]
  constructor
  · rw [Real.rpow_sub two_pos, Real.rpow_natCast, Real.rpow_natCast]
    gcongr
  · rw [show (Nat.log2 (fMag b) : ℝ) - (149 : ℕ) + 1 = ((Nat.log2 (fMag b) + 1 : ℕ) : ℝ) - (149 : ℕ) by push_cast; ring,
      Real.rpow_sub two_pos, Real.rpow_natCast, Real.rpow_natCast]
    gcongr

theorem powBound_cast (b e : Word) (above : Bool) :
    (powBound b e above : ℝ) = 2 ^ 149 * (fRat e * (exponentOf b + if above then 1 else 0)) := by
  unfold powBound fRat
  cases above <;> push_cast <;> field_simp

/-- The power lies between the powers of two of its two bounds. -/
theorem pow_between {b : Word} (e : Word) (h : 0 < fRat b) :
    (2 : ℝ) ^ ((min (powBound b e false) (powBound b e true) : ℤ) / 2 ^ 149 : ℝ) ≤ (fRat b : ℝ) ^ (fRat e : ℝ) ∧
    (fRat b : ℝ) ^ (fRat e : ℝ) ≤ (2 : ℝ) ^ ((max (powBound b e false) (powBound b e true) : ℤ) / 2 ^ 149 : ℝ) := by
  obtain ⟨h1, h2⟩ := two_zpow_exponentOf h
  have hf := powBound_cast b e false
  have ht := powBound_cast b e true
  simp only [Bool.false_eq_true, if_false, if_true, add_zero] at hf ht
  have p0 : (0 : ℝ) < 2 ^ ((exponentOf b : ℝ)) := by positivity
  have q0 : (0 : ℝ) < fRat b := by exact_mod_cast h
  have hF : (powBound b e false : ℝ) / 2 ^ 149 = exponentOf b * fRat e := by rw [hf]; field_simp
  have hT : (powBound b e true : ℝ) / 2 ^ 149 = (exponentOf b + 1) * fRat e := by rw [ht]; field_simp
  push_cast
  rw [← min_div_div_right (by positivity), ← max_div_div_right (by positivity), hF, hT]
  rcases le_total 0 (fRat e : ℝ) with he | he
  · have k1 := Real.rpow_le_rpow p0.le h1 he
    have k2 := Real.rpow_le_rpow q0.le h2 he
    rw [← Real.rpow_mul two_pos.le] at k1 k2
    exact ⟨le_trans (Real.rpow_le_rpow_of_exponent_le one_le_two (min_le_left _ _)) k1,
      le_trans k2 (Real.rpow_le_rpow_of_exponent_le one_le_two (le_max_right _ _))⟩
  · have k1 := Real.rpow_le_rpow_of_nonpos p0 h1 he
    have k2 := Real.rpow_le_rpow_of_nonpos q0 h2 he
    rw [← Real.rpow_mul two_pos.le] at k1 k2
    exact ⟨le_trans (Real.rpow_le_rpow_of_exponent_le one_le_two (min_le_right _ _)) k2,
      le_trans k1 (Real.rpow_le_rpow_of_exponent_le one_le_two (le_max_left _ _))⟩

/-- Comparing a power of a positive ratio of exponent p/q with a bound, by raising both to the power q. -/
theorem rpow_ratio_le_iff {x c : ℝ} (hx : 0 < x) (hc : 0 < c) {p q : ℕ} (hq : q ≠ 0) :
    (x ^ ((p : ℝ) / q) ≤ c ↔ x ^ p ≤ c ^ q) ∧ (c ≤ x ^ ((p : ℝ) / q) ↔ c ^ q ≤ x ^ p) := by
  have h : (x ^ ((p : ℝ) / q)) ^ q = x ^ p := by
    rw [← Real.rpow_natCast, ← Real.rpow_mul hx.le, div_mul_cancel₀ _ (by exact_mod_cast hq), Real.rpow_natCast]
  have y0 : 0 ≤ x ^ ((p : ℝ) / q) := by positivity
  rw [← h]
  exact ⟨(pow_le_pow_iff_left₀ y0 hc.le hq).symm, (pow_le_pow_iff_left₀ hc.le y0 hq).symm⟩

/-- The exact test decides the range. -/
theorem powExactlyIn_iff {b e : Word} (h : 0 < fRat b) :
    powExactlyIn b e = true ↔
      (2 : ℝ) ^ (-149 : ℤ) ≤ (fRat b : ℝ) ^ (fRat e : ℝ) ∧ (fRat b : ℝ) ^ (fRat e : ℝ) ≤ (2 ^ 24 - 1) * 2 ^ 104 := by
  have hb := fRat_eq_of_pos h
  have hb0 : (0 : ℝ) < fRat b := by exact_mod_cast h
  obtain ⟨hg1, hg2⟩ : Nat.gcd (fMag e) (2 ^ 149) ∣ fMag e ∧ Nat.gcd (fMag e) (2 ^ 149) ∣ 2 ^ 149 :=
    ⟨Nat.gcd_dvd_left _ _, Nat.gcd_dvd_right _ _⟩
  obtain ⟨hh1, hh2⟩ : Nat.gcd (fMag b) (2 ^ 149) ∣ fMag b ∧ Nat.gcd (fMag b) (2 ^ 149) ∣ 2 ^ 149 :=
    ⟨Nat.gcd_dvd_left _ _, Nat.gcd_dvd_right _ _⟩
  unfold powExactlyIn
  generalize Nat.gcd (fMag e) (2 ^ 149) = g at *
  generalize Nat.gcd (fMag b) (2 ^ 149) = k at *
  obtain ⟨p, hp⟩ := hg1
  obtain ⟨q, hq⟩ := hg2
  obtain ⟨m, hm⟩ := hh1
  obtain ⟨d, hd⟩ := hh2
  have g0 : 0 < g := Nat.pos_of_ne_zero (by rintro rfl; simp at hq)
  have q0 : 0 < q := Nat.pos_of_ne_zero (by rintro rfl; simp at hq)
  have k0 : 0 < k := Nat.pos_of_ne_zero (by rintro rfl; simp at hd)
  have d0 : 0 < d := Nat.pos_of_ne_zero (by rintro rfl; simp at hd)
  have m0 : 0 < m := Nat.pos_of_ne_zero (by rintro rfl; rw [hb, hm] at hb0; simp at hb0)
  have hbv : (fRat b : ℝ) = (m : ℝ) / d := by
    rw [hb, hm, show (2 : ℝ) ^ 149 = ((k * d : ℕ) : ℝ) by rw [← hd]; norm_num]
    push_cast
    field_simp
  have hev : |(fRat e : ℝ)| = (p : ℝ) / q := by
    rw [abs_fRat, hp, show (2 : ℝ) ^ 149 = ((g * q : ℕ) : ℝ) by rw [← hq]; norm_num]
    push_cast
    field_simp
  have e1 : fMag e / g = p := by rw [hp]; exact Nat.mul_div_cancel_left p g0
  have e2 : 2 ^ 149 / g = q := by rw [hq]; exact Nat.mul_div_cancel_left q g0
  have e3 : fMag b / k = m := by rw [hm]; exact Nat.mul_div_cancel_left m k0
  have e4 : 2 ^ 149 / k = d := by rw [hd]; exact Nat.mul_div_cancel_left d k0
  dsimp only
  rw [e1, e2, e3, e4]
  have key : ∀ u v : ℕ, 0 < u → 0 < v → (fRat b : ℝ) ^ (fRat e : ℝ) = ((u : ℝ) / v) ^ ((p : ℝ) / q) →
      ((decide (v ^ p ≤ 2 ^ (149 * q) * u ^ p) && decide (u ^ p ≤ ((2 ^ 24 - 1) * 2 ^ 104) ^ q * v ^ p)) = true ↔
        (2 : ℝ) ^ (-149 : ℤ) ≤ (fRat b : ℝ) ^ (fRat e : ℝ) ∧ (fRat b : ℝ) ^ (fRat e : ℝ) ≤ (2 ^ 24 - 1) * 2 ^ 104) := by
    intro u v hu hv hx
    have hu' : (0 : ℝ) < u := by exact_mod_cast hu
    have hv' : (0 : ℝ) < v := by exact_mod_cast hv
    have hr : (0 : ℝ) < (u : ℝ) / v := by positivity
    rw [hx, (rpow_ratio_le_iff hr (c := (2 : ℝ) ^ (-149 : ℤ)) (by positivity) q0.ne').2,
      (rpow_ratio_le_iff hr (c := (2 ^ 24 - 1) * 2 ^ 104) (by norm_num) q0.ne').1, Bool.and_eq_true, decide_eq_true_eq,
      decide_eq_true_eq, div_pow, le_div_iff₀ (by positivity), div_le_iff₀ (by positivity)]
    refine and_congr ?_ ?_
    · rw [← zpow_natCast, ← zpow_mul, show (-149 : ℤ) * q = -((149 * q : ℕ) : ℤ) by push_cast; ring, zpow_neg,
        zpow_natCast, inv_mul_le_iff₀ (by positivity)]
      exact_mod_cast Iff.rfl
    · rw [show ((2 : ℝ) ^ 24 - 1) * 2 ^ 104 = (((2 ^ 24 - 1) * 2 ^ 104 : ℕ) : ℝ) by norm_num]
      exact_mod_cast Iff.rfl
  have hsign : (fRat e : ℝ) = if fSign e then -((p : ℝ) / q) else (p : ℝ) / q := by
    rw [← hev, abs_fRat]
    unfold fRat fVal
    split <;> push_cast <;> ring
  cases hs : fSign e
  · simp only [hs, Bool.false_eq_true, if_false] at hsign ⊢
    exact key m d m0 d0 (by rw [hbv, hsign])
  · simp only [hs, if_true] at hsign ⊢
    exact key d m d0 m0 (by rw [hbv, hsign, Real.rpow_neg (by positivity), ← Real.inv_rpow (by positivity), inv_div])

/-- `powInRange` holds exactly when the real power lies in the binary32 range (R17). -/
theorem powInRange_iff {b e : Word} (h : 0 < fRat b) :
    powInRange b e = true ↔
      (2 : ℝ) ^ (-149 : ℤ) ≤ (fRat b : ℝ) ^ (fRat e : ℝ) ∧ (fRat b : ℝ) ^ (fRat e : ℝ) ≤ (2 ^ 24 - 1) * 2 ^ 104 := by
  obtain ⟨h1, h2⟩ := pow_between e h
  have hin : powSurelyIn b e = true →
      (2 : ℝ) ^ (-149 : ℤ) ≤ (fRat b : ℝ) ^ (fRat e : ℝ) ∧ (fRat b : ℝ) ^ (fRat e : ℝ) ≤ (2 ^ 24 - 1) * 2 ^ 104 := by
    simp only [powSurelyIn, Bool.and_eq_true, decide_eq_true_eq]
    rintro ⟨ha, hb⟩
    constructor
    · refine le_trans ?_ h1
      rw [← Real.rpow_intCast]
      refine Real.rpow_le_rpow_of_exponent_le one_le_two ?_
      rw [le_div_iff₀ (by positivity)]
      exact_mod_cast ha
    · refine le_trans h2 (le_trans (Real.rpow_le_rpow_of_exponent_le one_le_two (y := _) (z := (127 : ℕ)) ?_) ?_)
      · rw [div_le_iff₀ (by positivity)]
        exact_mod_cast hb
      · rw [Real.rpow_natCast]
        norm_num
  have hout : powSurelyOut b e = true →
      ¬ ((2 : ℝ) ^ (-149 : ℤ) ≤ (fRat b : ℝ) ^ (fRat e : ℝ) ∧ (fRat b : ℝ) ^ (fRat e : ℝ) ≤ (2 ^ 24 - 1) * 2 ^ 104) := by
    simp only [powSurelyOut, Bool.or_eq_true, decide_eq_true_eq]
    rintro (ha | hb) ⟨hx, hy⟩
    · have : (2 : ℝ) ^ ((128 : ℕ) : ℝ) ≤ (fRat b : ℝ) ^ (fRat e : ℝ) := by
        refine le_trans (Real.rpow_le_rpow_of_exponent_le one_le_two ?_) h1
        rw [le_div_iff₀ (by positivity)]
        exact_mod_cast ha
      rw [Real.rpow_natCast] at this
      exact absurd (le_trans this hy) (by norm_num)
    · have : (fRat b : ℝ) ^ (fRat e : ℝ) < (2 : ℝ) ^ (-149 : ℤ) := by
        refine lt_of_le_of_lt h2 ?_
        rw [← Real.rpow_intCast]
        refine Real.rpow_lt_rpow_of_exponent_lt one_lt_two ?_
        rw [div_lt_iff₀ (by positivity)]
        exact_mod_cast hb
      exact absurd hx (not_le.mpr this)
  simp only [powInRange, Bool.or_eq_true, Bool.and_eq_true, Bool.not_eq_true']
  rw [powExactlyIn_iff h]
  constructor
  · rintro (hx | ⟨-, hx⟩)
    · exact hin hx
    · exact hx
  · intro hx
    refine .inr ⟨?_, hx⟩
    by_contra hc
    exact hout (by simpa using hc) hx

end Sys2Proof.Machine
end

