-- ==== Sys2Proof/Laws/PerInstr.lean ====
section
/-! SUPPORT. A statement made per command: what the words of a command's encoding are. -/

namespace Sys2Proof.Laws

/-- A command is written as one command word of its opcode, followed by the data words that R103 fixes for it. -/
def TransactionShape.Statement (i : Instr) : Prop :=
  ∃ cw ds, encode i = cw :: ds ∧ ds.length = i.opcode.dataWords ∧ opcField cw = i.opcode.bits ∧ rsvField cw = 0#4

theorem TransactionShape.nop : TransactionShape.Statement .nop :=
  ⟨_, _, rfl, rfl, opcField_cmdWord _ _ _, rsvField_cmdWord _ _ _⟩

theorem TransactionShape.config (rate : Word) : TransactionShape.Statement (.config rate) :=
  ⟨_, _, rfl, rfl, opcField_cmdWord _ _ _, rsvField_cmdWord _ _ _⟩

theorem TransactionShape.activate : TransactionShape.Statement .activate :=
  ⟨_, _, rfl, rfl, opcField_cmdWord _ _ _, rsvField_cmdWord _ _ _⟩

theorem TransactionShape.wparam (idx : Nat) (value : Word) : TransactionShape.Statement (.wparam idx value) :=
  ⟨_, _, rfl, rfl, opcField_cmdWord _ _ _, rsvField_cmdWord _ _ _⟩

theorem TransactionShape.rparam (idx : Nat) : TransactionShape.Statement (.rparam idx) :=
  ⟨_, _, rfl, rfl, opcField_cmdWord _ _ _, rsvField_cmdWord _ _ _⟩

theorem TransactionShape.process (n : Nat) : TransactionShape.Statement (.process n) :=
  ⟨_, _, rfl, rfl, opcField_cmdWord _ _ _, rsvField_cmdWord _ _ _⟩

theorem TransactionShape.sample (x0 x1 : Word) : TransactionShape.Statement (.sample x0 x1) :=
  ⟨_, _, rfl, rfl, opcField_cmdWord _ _ _, rsvField_cmdWord _ _ _⟩

theorem TransactionShape.teardown : TransactionShape.Statement .teardown :=
  ⟨_, _, rfl, rfl, opcField_cmdWord _ _ _, rsvField_cmdWord _ _ _⟩

theorem TransactionShape.clrstat : TransactionShape.Statement .clrstat :=
  ⟨_, _, rfl, rfl, opcField_cmdWord _ _ _, rsvField_cmdWord _ _ _⟩

end Sys2Proof.Laws
end

