-- ==== Sys2Proof/Machine/Assembler.lean ====
section
/-! DEFINITION. The assembler syntax and the pseudo-instructions of 30_encoding.md R109 and R110: from the text of a
program to its commands, and from commands to port words. -/

namespace Sys2Proof.Machine

/-- An assembled program: each command word followed by its data words (R109). -/
def assemble (l : List Instr) : List Word := l.flatMap encode

/-- `BOOT r` (R110). -/
def asmBoot (rate : Word) : List Instr := [.config rate, .activate]

/-- One block of a `RUN`: PROCESS and its samples (R110). -/
def asmBlock (ps : List (Word × Word)) : List Instr :=
  .process ps.length :: ps.map (fun x => .sample x.1 x.2)

/-- `RUN` of at most `fuel` blocks. R110 says only that the assembler splits a longer RUN into several PROCESS blocks; that
every block but the last takes 65535 pairs and the last the rest is the model's (DESIGN CHOICE, log entry 14). -/
def asmRunFuel : Nat → List (Word × Word) → List Instr
  | 0, _ => []
  | n + 1, ps => if ps.length ≤ 65535 then asmBlock ps else asmBlock (ps.take 65535) ++ asmRunFuel n (ps.drop 65535)

/-- `RUN (a0,b0), ..., (ak,bk)` (R110; the split of a longer one is log entry 14's). -/
def asmRun (ps : List (Word × Word)) : List Instr := asmRunFuel (ps.length + 1) ps

/-- `SILENCE n` (R110). -/
def asmSilence (n : Nat) : List Instr := .process n :: List.replicate n (.sample fZero fZero)

/-- `STATUS?` (R110). -/
def asmStatus : List Instr := [.rparam 0x41]

/-- A character of a name folded to upper case: mnemonics are case-insensitive (R109). -/
def upperChar (c : Char) : Char :=
  if 'a'.toNat ≤ c.toNat ∧ c.toNat ≤ 'z'.toNat then Char.ofNat (c.toNat - 32) else c

def isBlank (c : Char) : Bool := c == ' ' || c == '\t' || c == '\r'

/-- The line up to its comment: `;` starts one (R109). -/
def stripComment (l : List Char) : List Char := l.takeWhile (fun c => c != ';')

/-- The tokens of a line: words, and commas and parentheses as tokens of their own. `word` is the word being read,
last character first. -/
def tokensFrom : List Char → List Char → List (List Char)
  | word, [] => if word.isEmpty then [] else [word.reverse]
  | word, c :: t =>
    let before := if word.isEmpty then [] else [word.reverse]
    if isBlank c then before ++ tokensFrom [] t
    else if c == ',' || c == '(' || c == ')' then before ++ [c] :: tokensFrom [] t
    else tokensFrom (c :: word) t

def digitOf (c : Char) : Option Nat :=
  if '0'.toNat ≤ c.toNat ∧ c.toNat ≤ '9'.toNat then some (c.toNat - '0'.toNat) else none

def hexDigitOf (c : Char) : Option Nat :=
  let u := (upperChar c).toNat
  if 'A'.toNat ≤ u ∧ u ≤ 'F'.toNat then some (u - 'A'.toNat + 10) else digitOf c

/-- The number a list of digits writes in a base, from `acc` on. -/
def digitsFrom (base : Nat) (digit : Char → Option Nat) : Nat → List Char → Option Nat
  | acc, [] => some acc
  | acc, c :: t =>
    match digit c with
    | some d => digitsFrom base digit (acc * base + d) t
    | none => none

/-- At least one digit. -/
def digits (base : Nat) (digit : Char → Option Nat) (l : List Char) : Option Nat :=
  if l.isEmpty then none else digitsFrom base digit 0 l

/-- A decimal or hex integer (R109). -/
def parseNat : List Char → Option Nat
  | '0' :: 'x' :: t => digits 16 hexDigitOf t
  | l => digits 10 digitOf l

/-- The part of a list before and after the first character that satisfies `f`. -/
def splitAtChar (f : Char → Bool) (l : List Char) : List Char × Option (List Char) :=
  match l.dropWhile (fun c => !f c) with
  | [] => (l, none)
  | _ :: t => (l.takeWhile (fun c => !f c), some t)

/-- A signed decimal exponent. -/
def parseExp : List Char → Option Int
  | '-' :: t => (digits 10 digitOf t).map (fun n => -(n : Int))
  | '+' :: t => (digits 10 digitOf t).map (fun n => (n : Int))
  | l => (digits 10 digitOf l).map (fun n => (n : Int))

/-- An unsigned decimal literal as a ratio: digits, an optional fraction, an optional exponent (DESIGN CHOICE, log
entry 14). -/
def parseDecimal (l : List Char) : Option Ratio :=
  let m := splitAtChar (fun c => c == 'e' || c == 'E') l
  let e := match m.2 with
    | none => some 0
    | some t => parseExp t
  let f := splitAtChar (fun c => c == '.') m.1
  let frac := f.2.getD []
  match digits 10 digitOf (f.1 ++ frac), e with
  | some n, some k =>
    let s := k - frac.length
    some (if 0 ≤ s then ⟨n * 10 ^ s.toNat, 1⟩ else ⟨n, 10 ^ (-s).toNat⟩)
  | _, _ => none

/-- `<f32>` (R109): a bit pattern `f32:0xHHHHHHHH`, or a decimal literal rounded to nearest, ties to even. A
leading minus sign negates the rounded magnitude, so that `-0.0` is 0x80000000 (DESIGN CHOICE, log entry 14). -/
def parseF32 : List Char → Option Word
  | 'f' :: '3' :: '2' :: ':' :: '0' :: 'x' :: t =>
    if t.length = 8 then (digits 16 hexDigitOf t).map (BitVec.ofNat 32) else none
  | '-' :: t => (parseDecimal t).map (fun r => fNeg (fOfRatio r.num r.den))
  | l => (parseDecimal l).map (fun r => fOfRatio r.num r.den)

/-- The register names of R32 and R38 with their indices. -/
def registerNames : List (String × Nat) :=
  [ ("TEMPO", 0), ("DIV_L", 1), ("DIV_R", 2), ("FEEDBACK", 3), ("CROSSFEED", 4), ("DRY_DB", 5), ("WET_DB", 6)
  , ("IHC_ON", 7), ("IHC_FREQ", 8), ("IHC_Q", 9), ("ILC_ON", 10), ("ILC_FREQ", 11), ("ILC_Q", 12)
  , ("FHC_ON", 13), ("FHC_FREQ", 14), ("FHC_Q", 15), ("FLC_ON", 16), ("FLC_FREQ", 17), ("FLC_Q", 18)
  , ("MOD_ON", 19), ("MOD_DEPTH", 20), ("MOD_RATE", 21), ("MOD_INVERT", 22)
  , ("ENABLED", 23), ("TRAILS", 24), ("PINGPONG", 25)
  , ("TEMPO_OUT", 0x40), ("STATUS", 0x41), ("CAPACITY", 0x42), ("FADELEN", 0x43), ("BLKREM", 0x44)
  , ("MODMARGIN", 0x45), ("SRATE", 0x46) ]

/-- `<reg>` (R109): a register name, or an index that fits the IDX field. -/
def parseReg (l : List Char) : Option Nat :=
  match registerNames.find? (fun r => decide (r.1.toList = l)) with
  | some r => some r.2
  | none =>
    match parseNat l with
    | some n => if n < 256 then some n else none
    | none => none

/-- `<u16>` (R109). -/
def parseU16 (l : List Char) : Option Nat :=
  match parseNat l with
  | some n => if n < 65536 then some n else none
  | none => none

/-- The pairs of a `RUN`, one or more (R110). -/
def parsePairs : List (List Char) → Option (List (Word × Word))
  | [['('], a, [','], b, [')']] =>
    match parseF32 a, parseF32 b with
    | some x, some y => some [(x, y)]
    | _, _ => none
  | ['('] :: a :: [','] :: b :: [')'] :: [','] :: t =>
    match parseF32 a, parseF32 b, parsePairs t with
    | some x, some y, some r => some ((x, y) :: r)
    | _, _, _ => none
  | _ => none

/-- The commands of one line's tokens, pseudo-instructions expanded; an empty line has none (R109, R110). -/
def parseTokens : List (List Char) → Option (List Instr)
  | [] => some []
  | mn :: ops =>
    let name := mn.map upperChar
    let is (s : String) : Bool := decide (name = s.toList)
    match ops with
    | [] =>
      if is "NOP" then some [.nop]
      else if is "ACTIVATE" then some [.activate]
      else if is "TEARDOWN" then some [.teardown]
      else if is "CLRSTAT" then some [.clrstat]
      else if is "STATUS?" then some asmStatus
      else none
    | [a] =>
      if is "CONFIG" then (parseF32 a).map (fun r => [.config r])
      else if is "BOOT" then (parseF32 a).map asmBoot
      else if is "RPARAM" then (parseReg a).map (fun i => [.rparam i])
      else if is "PROCESS" then (parseU16 a).map (fun n => [.process n])
      else if is "SILENCE" then (parseU16 a).map asmSilence
      else none
    | ops =>
      if is "RUN" then (parsePairs ops).map asmRun
      else
        match ops with
        | [a, [','], b] =>
          if is "WPARAM" then
            (match parseReg a, parseF32 b with
            | some i, some v => some [.wparam i v]
            | _, _ => none)
          else if is "SAMPLE" then
            (match parseF32 a, parseF32 b with
            | some x, some y => some [.sample x y]
            | _, _ => none)
          else none
        | _ => none

/-- One line of assembly (R109). -/
def parseLine (l : List Char) : Option (List Instr) := parseTokens (tokensFrom [] (stripComment l))

/-- The lines of a text; `line` is the line being read, last character first. -/
def linesFrom : List Char → List Char → List (List Char)
  | line, [] => [line.reverse]
  | line, c :: t => if c == '\n' then line.reverse :: linesFrom [] t else linesFrom (c :: line) t

/-- A program's text: one command per line; none where some line is not of R109's or R110's form. -/
def parseLines : List (List Char) → Option (List Instr)
  | [] => some []
  | l :: t =>
    match parseLine l, parseLines t with
    | some a, some b => some (a ++ b)
    | _, _ => none

/-- The commands that a program's text assembles to (R109, R110). -/
def parseProgram (text : String) : Option (List Instr) := parseLines (linesFrom [] text.toList)

end Sys2Proof.Machine
end

