-- ==== Sys2Proof/Tests/Slice0.lean ====
section
/-! SUPPORT. The model's own tests. Every expected value is the spec's: 95_test_vectors.md, or the rule named beside
it. The theorems named `witness_…` meet the hypotheses of the statements of the same name. -/

namespace Sys2Proof.Tests

open Sys2Proof Sys2Proof.Machine

set_option Elab.async false

/-! ### Helpers -/

/-- The state after a list of commands. -/
def after (l : List Instr) (s : State) : State :=
  match execAll l s with
  | .next t => t
  | .fault _ => s
  | .refused _ => s

/-- The state after `n` steps with the words `ws` at the port. -/
def run (n : Nat) (ws : List Word) (s : State) : State :=
  match Host.Core.run Sys2Proof.core n (s.withIn ws) with
  | .next t => t
  | .fault _ => s
  | .refused _ => s

def booted : State := after [.config 0x42C80000#32, .activate] State.reset

/-- V-STEP's block: TEMPO 600, quarter notes, ENABLED, `n` samples owed. -/
def block (n : Nat) : State :=
  after [.wparam 0 0x44160000#32, .wparam 1 0x40000000#32, .wparam 2 0x40000000#32, .wparam 23 0x3F800000#32, .process n]
    booted

/-- A small open block in CYCLE whose snapshot brings a change: FADE_LEN = 2, C = 8, `thr` = 2. -/
def cycling : State :=
  { State.reset with
    cfg := true, act := true, blockRemain := 9#16
    const := { Constants.zero with cap := 8, modMargin := 2, fadeLen := 2 }
    snap := { Snapshot.zero with en := true, tempoC := 0x3F800000#32 }
    eng := { Engine.reset with fsm := .cycle, fadePos := 2 }
    mem := Memory.cleared }

/-- The same machine in a muted block, holding FADE_OUT_DONE. -/
def holding : State :=
  { cycling with snap := Snapshot.zero, eng := { Engine.reset with fsm := .fadeOutDone } }

/-- A constant block of registers with C = 23 (V-RD). -/
def cap23 : Constants := { Constants.zero with cap := 23, att := 0x3C23D70A#32, rel := 0x3C23D70A#32 }

/-- V-RD's buffer: word i is f32(i), word 22 is -4.0. -/
def ramp : Memory :=
  (List.range 22).foldl (fun m i => bufWrite cap23 m .c0 i (fOfNat i)) (bufWrite cap23 Memory.cleared .c0 22 0xC0800000#32)

/-! ### Well-formedness -/

theorem test_wf_wparam_index_256_refused : (Instr.wparam 256 0#32).wf = false := by decide
theorem test_wf_rparam_index_256_refused : (Instr.rparam 256).wf = false := by decide
theorem test_wf_process_65536_refused : (Instr.process 65536).wf = false := by decide
theorem test_wf_boundaries : (Instr.wparam 255 0#32).wf = true ∧ (Instr.rparam 255).wf = true ∧
    (Instr.process 65535).wf = true := by decide
theorem test_default_params_ok : paramsOk Params.default = true := by decide +kernel

/-! ### Decoding words written out from R100 and R101 (V-ENC) -/

theorem test_decode_nop : decode [0b0000_0000_00000000_0000000000000000#32] = .cmd .nop [] := by decide
theorem test_decode_config : decode [0b0001_0000_00000000_0000000000000000#32, 0x472C4400#32] =
    .cmd (.config 0x472C4400#32) [] := by decide
theorem test_decode_activate : decode [0b0010_0000_00000000_0000000000000000#32] = .cmd .activate [] := by decide
theorem test_decode_wparam : decode [0b0011_0000_00011001_0000000000000000#32, 0x3F800000#32] =
    .cmd (.wparam 25 0x3F800000#32) [] := by decide
theorem test_decode_rparam : decode [0b0100_0000_01000001_0000000000000000#32] = .cmd (.rparam 0x41) [] := by decide
theorem test_decode_process : decode [0b0101_0000_00000000_1111111111111111#32] = .cmd (.process 65535) [] := by decide
theorem test_decode_sample : decode [0b0110_0000_00000000_0000000000000000#32, 0x3F800000#32, 0#32, 7#32] =
    .cmd (.sample 0x3F800000#32 0#32) [7#32] := by decide
theorem test_decode_teardown : decode [0b0111_0000_00000000_0000000000000000#32] = .cmd .teardown [] := by decide
theorem test_decode_clrstat : decode [0b1000_0000_00000000_0000000000000000#32] = .cmd .clrstat [] := by decide
theorem test_decode_reserved : decode [0x90000000#32, 1#32] = .reserved [1#32] ∧ decode [0xFFFFFFFF#32] = .reserved [] := by
  decide
theorem test_decode_illegal : decode [0x20000001#32] = .illegal .activate [] ∧ decode [0x01000000#32] = .illegal .nop [] ∧
    decode [0x31FF0000#32, 5#32] = .illegal .wparam [] ∧ decode [0x40410001#32] = .illegal .rparam [] ∧
    decode [0x51000010#32] = .illegal .process [] ∧ decode [0x60010000#32, 1#32, 2#32] = .illegal .sample [] ∧
    decode [0x80000100#32] = .illegal .clrstat [] := by decide
theorem test_decode_waits : decode [0x60000000#32, 1#32] = .wait ∧ decode [0x10000000#32] = .wait := by decide
theorem test_table_word : decodeTableWord 96 (0x60000000 + 0x3F800000 * 2 ^ 32 + 7 * 2 ^ 64) =
    some (.sample 0x3F800000#32 7#32) ∧ decodeTableWord 32 0x30030000 = some (.wparam 3 0#32) ∧
    decodeTableWord 32 0x90000000 = none := by decide

/-! ### One command at a time (V-CMD, Program B, V-CFG) -/

theorem test_reset_status : State.reset.status = 0x00000020#32 := by decide
theorem test_nop : after [.nop] State.reset = State.reset := by decide
theorem test_activate_unconfigured : (after [.activate] State.reset).status = 0x00030420#32 := by decide
theorem test_activate : booted.status = 0x00000023#32 := by decide +kernel
theorem test_config_rate_20_fails : (after [.config 0x41A00000#32] State.reset).status = 0x00062020#32 := by decide +kernel
/-- V-CFG's row 100.0: C = 403, MOD_MARGIN = 3, FADE_LEN = 5, ATT = REL = 0.01f, 45.0, 400.0. -/
theorem test_config_100 : constantsOf Params.default 0x42C80000#32 =
    ⟨0x42C80000#32, 403, 3, 5, 0x3C23D70A#32, 0x3C23D70A#32, 0x42340000#32, 0x43C80000#32, 0x3F7D70A4#32, 0x3F7FBE77#32⟩ := by
  decide +kernel
theorem test_wparam : (after [.wparam 0 0x42F00000#32] State.reset).pend[0] = 0x42F00000#32 := by decide
theorem test_wparam_bad_index : (after [.wparam 26 0#32] State.reset).status = 0x00020220#32 := by decide
theorem test_rparam_status : (after [.rparam 0x41] State.reset).outq = [0x00000020#32] := by decide
theorem test_rparam_bad_index : (after [.rparam 0x47] booted).outq = [0#32] ∧
    (after [.rparam 0x47] booted).status = 0x00020223#32 := by decide +kernel
theorem test_process_not_active : (after [.process 1] (after [.config 0x42C80000#32] State.reset)).status = 0x00040821#32 := by
  decide +kernel
/-- V-STEP's snapshot: d_res = 60/600 * 1 * 100 = 10.0, TEMPO_OUT = 600. -/
theorem test_process : (block 2).status = 0x00000027#32 ∧ (block 2).tempoOut = 0x44160000#32 ∧
    (block 2).snap.dRes = ⟨0x41200000#32, 0x41200000#32⟩ := by decide +kernel
/-- V-STEP: one sample of (1.0, 1.0), STATUS, w, fill_cnt and the word written. -/
theorem test_sample : (after [.sample 0x3F800000#32 0x3F800000#32] (block 1)).status = 0x00000013#32 ∧
    (after [.sample 0x3F800000#32 0x3F800000#32] (block 1)).eng.w = 1 ∧
    (after [.sample 0x3F800000#32 0x3F800000#32] (block 1)).eng.fillCnt = 1 ∧
    (after [.sample 0x3F800000#32 0x3F800000#32] (block 1)).mem.readWord .c1 0 = 0x3C23D70A#32 := by decide +kernel
theorem test_sample_outputs : (after [.sample 0x3F800000#32 0x3F800000#32] (block 1)).outq =
    [0x3C23D70A#32, 0x3C23D70A#32] := by decide +kernel
theorem test_sample_outside_block : (after [.sample 0#32 0#32] State.reset).outq = [0#32, 0#32] ∧
    (after [.sample 0#32 0#32] State.reset).status = 0x00051020#32 := by decide
theorem test_teardown : (after [.teardown] booted).status = 0x00000020#32 ∧ (after [.teardown] booted).const.cap = 0 := by
  decide +kernel
theorem test_teardown_in_block : (after [.teardown] (block 2)).status = 0x00051027#32 := by decide +kernel
theorem test_clrstat : (after [.clrstat] (after [.activate] State.reset)).status = 0x00000020#32 := by decide

/-! ### The port -/

/-- Program B's first three commands, sent as words. -/
theorem test_program_b_head :
    (run 3 [0x40410000#32, 0x50000004#32, 0x10000000#32, 0x41200000#32] State.reset).outq = [0x00000020#32] ∧
    (run 3 [0x40410000#32, 0x50000004#32, 0x10000000#32, 0x41200000#32] State.reset).status = 0x00062420#32 := by
  decide +kernel
/-- V-ENC: a malformed RPARAM returns one zero word. -/
theorem test_illegal_rparam : (run 1 [0x40410001#32] State.reset).outq = [0#32] ∧
    (run 1 [0x40410001#32] State.reset).status = 0x00010120#32 := by decide
theorem test_fetch_word : step (State.reset.withFetchWord 64 (0x30030000 + 0x42480000 * 2 ^ 32)) =
    exec (.wparam 3 0x42480000#32) State.reset := by rfl
theorem test_assembler : parseLine "WPARAM FEEDBACK, 50.0".toList = some [.wparam 3 0x42480000#32] ∧
    parseLine "boot 100 ; start".toList = some [.config 0x42C80000#32, .activate] := by decide +kernel

/-! ### Arithmetic, reads, limiter, resolver -/

/-- IEEE 754: 0.1 + 0.2, 2^-149 / 2 ties to even, 1 / 0, -0.0 + -0.0. -/
theorem test_float : fAdd 0x3DCCCCCD#32 0x3E4CCCCD#32 = 0x3E99999A#32 ∧ fDiv 0x00000001#32 0x40000000#32 = 0#32 ∧
    fDiv 0x3F800000#32 0#32 = 0x7F800000#32 ∧ fAdd 0x80000000#32 0x80000000#32 = 0x80000000#32 := by decide +kernel
/-- R17's range at its ends: 10^38 and 2^-149 lie in it, 10^39 and 10^-45 do not. -/
theorem test_pow_range : powInRange fTen 0x42180000#32 = true ∧ powInRange fTwo 0xC3150000#32 = true ∧
    powInRange fTen 0x421C0000#32 = false ∧ powInRange fTen 0xC2340000#32 = false := by decide +kernel
/-- V-PCT. -/
theorem test_percentage : pctToLin 0x42480000#32 = 0x3F000000#32 ∧ pctToLin 0x42C60000#32 = 0x3F7D70A4#32 ∧
    pctToLin 0x42C70000#32 = 0x3F800000#32 ∧ pctToLin 0xC0A00000#32 = 0#32 ∧ pctToLin 0x00000001#32 = 0#32 := by
  decide +kernel
/-- V-RD rows 3, 5, 9, 10 and 12. -/
theorem test_read : readInterp cap23 ramp .c0 0x40B00000#32 = 0x40B00000#32 ∧
    readInterp cap23 ramp .c0 0xBF000000#32 = 0xC0000000#32 ∧ readInterp cap23 ramp .c0 0x41C40000#32 = 0x3FC00000#32 ∧
    readInterp cap23 ramp .c0 0xB089705F#32 = 0#32 ∧ readInterp cap23 ramp .c0 0x42330000#32 = 0x40100000#32 := by
  decide +kernel
/-- V-LIM step 1. -/
theorem test_limiter : limiterOut (limiterEnv cap23 0#32 0x40000000#32) 0x40000000#32 = 0x3F814AFD#32 := by decide +kernel
/-- V-RES rows 2, 7 and 10, at RATE 44100 with D_MAX 176400. -/
theorem test_resolver :
    resolveDelay Params.default { Constants.zero with rate := 0x472C4400#32, dMax := 0x482C4400#32 } 0x42F00000#32 6 =
      0x46813300#32 ∧
    resolveDelay Params.default { Constants.zero with rate := 0x472C4400#32, dMax := 0x482C4400#32 } 0x7F800000#32 3 = 0#32 ∧
    dividerIndex Params.default 0xC0400000#32 = 0 ∧ dividerIndex Params.default 0x4039999A#32 = 2 := by decide +kernel
/-- V-FSM: the fades at FADE_LEN = 5. -/
theorem test_fade : fadeOf { Constants.zero with fadeLen := 5 } { Engine.reset with fadePos := 3 } = 0x3F19999A#32 := by
  decide +kernel
/-- V-FLAG. -/
theorem test_flags : flagOf Params.default 0x3F000000#32 = true ∧ flagOf Params.default 0x3EFFFFFF#32 = false ∧
    flagOf Params.default 0xFF800000#32 = false := by decide +kernel
/-- V-SM-1's first two updates. -/
theorem test_smoother : smooth 0x3C23D70A#32 0x3F7D70A4#32 0x3F800000#32 0x3C23D70A#32 = 0x3CA30553#32 := by decide +kernel

/-! ### Witnesses: concrete states and operands that meet the hypotheses of the statements -/

/-- The command runs and leaves `after [i] s`. -/
theorem exec_after (i : Instr) (s : State) (h : (match exec i s with | .next _ => true | .fault _ => false | .refused _ => false) = true) :
    exec i s = .next (after [i] s) := by
  unfold after execAll
  split at h
  · rename_i t ht
    simp [ht, execAll]
  · cases h
  · cases h

theorem witness_StepRunsDecodedCommand : decode (State.reset.withIn [0x5000FFFF#32, 3#32]).inq = .cmd (.process 65535) [3#32] ∧
    (Instr.process 65535).wf = true := by decide
theorem witness_StepRunsEncodedCommand : (Instr.wparam 255 7#32).wf = true ∧
    (State.reset.withIn [0x30FF0000#32, 7#32, 9#32]).inq = encode (.wparam 255 7#32) ++ [9#32] := by decide
theorem witness_MalformedWordsRaiseIllegalCmd :
    9 ≤ ((0x90000000#32).extractLsb' 28 4).toNat ∧ 9 ≤ ((0xF0000000#32).extractLsb' 28 4).toNat ∧
    (0x31FF0000#32).extractLsb' 28 4 = Opcode.wparam.bits ∧ [5#32].length = Opcode.wparam.dataWords ∧
    (0x31FF0000#32).extractLsb' 24 4 ≠ 0#4 ∧
    (0x60010000#32).extractLsb' 28 4 = Opcode.sample.bits ∧ [1#32, 2#32].length = Opcode.sample.dataWords ∧
    (0x60010000#32).extractLsb' 16 8 ≠ 0#8 ∧
    (0x40410001#32).extractLsb' 28 4 = Opcode.rparam.bits ∧ (0x40410001#32).extractLsb' 0 16 ≠ 0#16 := by decide
theorem witness_StepWaitsForWholeTransaction : decode State.reset.inq = .wait ∧ decode [0x31FF0000#32] = .wait ∧
    (0x31FF0000#32).extractLsb' 28 4 = Opcode.wparam.bits ∧ ([] : List Word).length < Opcode.wparam.dataWords ∧ (Instr.sample 1#32 2#32).wf = true ∧
    (State.reset.withIn [0x60000000#32, 1#32]).inq = (encode (.sample 1#32 2#32)).take 2 ∧
    2 < (encode (.sample 1#32 2#32)).length := by decide
theorem witness_DecodeOfEncodeIsTheCommand : (Instr.rparam 255).wf = true ∧ (Instr.process 65535).wf = true := by decide
theorem witness_DecodedCommandHasOneSpelling : decode [0x10000000#32, 1#32, 2#32] = .cmd (.config 1#32) [2#32] := by decide
/-- An error recorded and a NOP at the port. -/
def failed : State := (after [.activate] State.reset).withIn [0#32]

theorem witness_OnlyClrstatClearsErrors :
    ((∃ t, step failed = .next t) ∧ (∀ rest, decode failed.inq ≠ .cmd .clrstat rest) ∧
      failed.lastErr ≠ 0#4 ∧ failed.err.getLsbD 2 = true) ∧
    (exec (.config 0x41A80000#32) failed = .next (after [.config 0x41A80000#32] failed) ∧
      firstError failed (.config 0x41A80000#32) = none) ∧
    (exec .activate booted = .next (after [.activate] booted) ∧ firstError booted .activate = none) ∧
    (exec .teardown failed = .next (after [.teardown] failed) ∧ firstError failed .teardown = none) :=
  ⟨⟨⟨_, rfl⟩, ⟨fun _ h => (by cases h), by decide +kernel⟩⟩, ⟨exec_after _ _ (by decide +kernel), by decide +kernel⟩,
    ⟨exec_after _ _ (by decide +kernel), by decide +kernel⟩, ⟨exec_after _ _ (by decide +kernel), by decide +kernel⟩⟩
theorem witness_LegalityTable :
    [Instr.config 0x42C80000#32, .activate, .wparam 26 0#32, .wparam 255 0#32, .rparam 0x47, .rparam 255, .process 65535,
      .sample 0#32 0#32, .teardown].all Instr.wf = true ∧
    firstError booted (.wparam 255 0#32) = some .badIndex ∧ firstError booted (.rparam 255) = some .badIndex ∧
    firstError (block 2) (.config 0x42C80000#32) = some .sequence ∧ firstError State.reset (.config 0x41A00000#32) = some .configFail ∧
    firstError State.reset .activate = some .notConfigured ∧ firstError booted (.wparam 26 0#32) = some .badIndex ∧
    firstError booted (.rparam 0x47) = some .badIndex ∧ firstError booted (.rparam 63) = some .badIndex ∧
    firstError (after [.config 0x42C80000#32] State.reset) (.process 1) = some .notActive ∧
    firstError booted (.sample 0#32 0#32) = some .sequence ∧ firstError (block 2) .teardown = some .sequence ∧
    firstError booted (.rparam 0x46) = none ∧ firstError booted (.wparam 25 0#32) = none ∧
    firstError booted (.process 65535) = none ∧ (∀ k : Fin 26, isNaN booted.pend[k] = false) := by decide +kernel
theorem witness_ClrstatClearsErrorFieldsOnly : exec .clrstat booted = .next (after [.clrstat] booted) := rfl
/-- 20.0 is not above 2 * RATE_MAX_HZ, the next value is; 262000.0 needs more words than BUF_WORDS (V-CFG). -/
theorem witness_ConfigAcceptsExactlyLegalRates :
    fLe fZero State.reset.params.rateMaxHz = true ∧ State.reset.blockRemain = 0#16 ∧
    (isFinite 0x41A00001#32 = true ∧ 2 * fRat State.reset.params.rateMaxHz < fRat 0x41A00001#32 ∧ 1 ≤ fRat 0x41A00001#32 ∧
      capacityOf State.reset.params 0x41A00001#32 ≤ State.reset.params.bufWords) ∧
    ¬ (2 * fRat State.reset.params.rateMaxHz < fRat 0x41A00000#32) ∧
    ¬ (capacityOf State.reset.params 0x487FDC00#32 ≤ State.reset.params.bufWords) := by decide +kernel
theorem witness_ConfigResetsEverythingButErrors : State.reset.blockRemain = 0#16 ∧
    rateAccepted State.reset.params 0x41A80000#32 = true := by decide +kernel
theorem witness_IntegerConstantsAreExact : paramsOk Params.default = true ∧ isFinite 0x3F800000#32 = true ∧
    1 ≤ fRat 0x3F800000#32 ∧ 0 < 1 ∧
    ((100 : Nat) : ℚ) / ((1 : Nat) : ℚ) = 1000 / (ratioRat Params.default.limAttMs * fRat 0x3F800000#32) := by decide +kernel
theorem witness_ActivateResetsEngineKeepsParameters : (after [.config 0x42C80000#32] State.reset).blockRemain = 0#16 ∧
    (after [.config 0x42C80000#32] State.reset).cfg = true := by decide +kernel
theorem witness_TeardownReleasesConfiguration : booted.blockRemain = 0#16 := by decide +kernel
theorem witness_WparamWritesOnePendingRegister : (0 : Fin 26) ≠ 25 := by decide
theorem witness_RparamReturnsTheRegister : (26 ≤ 26 ∧ 26 ≤ 63) ∧ (26 ≤ 63 ∧ 63 ≤ 63) ∧ 0x47 ≤ 0x47 := by decide
theorem witness_ParameterBanksHaveOneWriter :
    exec (.wparam 25 1#32) booted = .next (after [.wparam 25 1#32] booted) ∧
    (after [.wparam 25 1#32] booted).pend ≠ booted.pend ∧
    exec (.process 2) (after [.wparam 25 1#32] booted) = .next (after [.process 2] (after [.wparam 25 1#32] booted)) ∧
    (after [.process 2] (after [.wparam 25 1#32] booted)).active ≠ (after [.wparam 25 1#32] booted).active ∧
    (after [.process 2] booted).snap ≠ booted.snap :=
  ⟨exec_after _ _ (by decide +kernel), by decide +kernel, exec_after _ _ (by decide +kernel), by decide +kernel⟩
theorem witness_OnlyConfigAndTeardownWriteConstants :
    exec (.config 0x42C80000#32) State.reset = .next (after [.config 0x42C80000#32] State.reset) ∧
    exec .teardown booted = .next (after [.teardown] booted) :=
  ⟨exec_after _ _ (by decide +kernel), exec_after _ _ (by decide +kernel)⟩
theorem witness_ProcessTakesTheSnapshot : booted.blockRemain = 0#16 ∧ booted.cfg = true ∧ booted.act = true ∧ 65535 < 65536 ∧
    isNaN (after [.wparam 0 0x7FC00000#32] booted).pend[(0 : Fin 26)] = true ∧
    (∀ k : Fin 26, isNaN booted.pend[k] = false) := by decide +kernel
theorem witness_ProcessDecodesEachRegister : booted.blockRemain = 0#16 ∧ booted.cfg = true ∧ booted.act = true ∧
    booted.params.fbLaw = .percent ∧
    { State.reset with params := { Params.default with fbLaw := .db } }.params.fbLaw = .db := by decide +kernel
/-- A configured, active block with a NaN in its pending TEMPO. -/
def nanTempo : State := after [.wparam 0 0x7FC00000#32] booted

theorem witness_RepeatedProcessChangesOnlyBlockCount :
    (booted.blockRemain = 0#16 ∧ booted.cfg = true ∧ booted.act = true ∧ 65535 < 65536 ∧
      exec (.process 0) booted = .next (after [.process 0] booted)) ∧
    (nanTempo.blockRemain = 0#16 ∧ nanTempo.cfg = true ∧ nanTempo.act = true ∧
      isNaN nanTempo.pend[(0 : Fin 26)] = true ∧ exec (.process 0) nanTempo = .next (after [.process 0] nanTempo)) :=
  ⟨⟨by decide +kernel, by decide +kernel, by decide +kernel, by decide, exec_after _ _ (by decide +kernel)⟩,
    by decide +kernel, by decide +kernel, by decide +kernel, by decide +kernel, exec_after _ _ (by decide +kernel)⟩
theorem witness_PercentageLaw : fGt 0x42C60001#32 0x42C60000#32 = true ∧ fGt 0x42C60000#32 0x42C60000#32 = false ∧
    fGt 0x00000001#32 0#32 = true ∧ fGt 0x80000000#32 0x42C60000#32 = false ∧ fGt 0x80000000#32 0#32 = false := by
  decide +kernel
theorem witness_DecibelLaw : isNaN 0xC2C00001#32 = false ∧ fLt 0xC2C00001#32 Params.default.dbFloor = true ∧
    fLt 0xC2C00000#32 Params.default.dbFloor = false ∧ fGt 0xC2C00000#32 Params.default.dbCeil = false ∧
    fLt 0x41400001#32 Params.default.dbFloor = false ∧ fGt 0x41400001#32 Params.default.dbCeil = true ∧
    fLt 0x80000000#32 Params.default.dbFloor = false ∧ fGt 0x80000000#32 Params.default.dbCeil = false ∧
    isZero 0x80000000#32 = true := by decide +kernel
theorem witness_ResolvedDelayLiesInRange : fLt fZero 0x7F800000#32 = true ∧ fLt fZero 0x00000001#32 = true ∧
    isFinitePos (beatsOf Params.default 10) = true ∧ isFinitePos 0x42C80000#32 = true ∧ fLe fZero 0x43C80000#32 = true := by
  decide +kernel
/-- A state whose next sample commits. -/
def committing : State := { cycling with eng := { Engine.reset with fsm := .fadeOutDone } }

theorem witness_SampleRunsOneStep : (block 1).blockRemain ≠ 0#16 ∧ (block 1).mem.wf = true ∧
    commits (block 1).snap (block 1).eng = false ∧
    committing.blockRemain ≠ 0#16 ∧ committing.eng.fsm = .fadeOutDone ∧ muted committing.snap = false ∧
    committing.params.clearPolicy = .clear ∧
    { committing with params := { Params.default with clearPolicy := .keep } }.params.clearPolicy = .keep := by decide +kernel
theorem witness_CurrentValuesNeverJump :
    exec (.sample 1#32 2#32) (block 1) = .next (after [.sample 1#32 2#32] (block 1)) := exec_after _ _ (by decide +kernel)
theorem witness_OnlyCommitWritesDelayTargets :
    exec (.sample 1#32 2#32) (after [.sample 1#32 2#32] (block 2)) =
      .next (after [.sample 1#32 2#32] (after [.sample 1#32 2#32] (block 2))) ∧
    (after [.sample 1#32 2#32] (block 2)).eng.fsm = .fadeOutDone :=
  ⟨exec_after _ _ (by decide +kernel), by decide +kernel⟩
theorem witness_ParameterTrafficDoesNotReachTheBlock :
    [Instr.wparam 23 0#32, .sample 1#32 2#32, .rparam 0x44, .clrstat, .sample 3#32 4#32, .nop].all isBlockTraffic = true ∧
    [Instr.wparam 26 0#32, .sample 1#32 2#32, .clrstat].all isBlockTraffic = true ∧
    [Instr.wparam 26 0#32, .sample 1#32 2#32, .clrstat].any isRparam = false := by
  decide
/-- The state after one step. -/
def stepped (s : State) : State :=
  match step s with
  | .next t => t
  | .fault _ => s
  | .refused _ => s

/-- A step that answers a next state answers `stepped s`. -/
theorem step_stepped (s : State) (h : (match step s with | .next _ => true | .fault _ => false | .refused _ => false) = true) :
    step s = .next (stepped s) := by
  unfold stepped
  split at h
  · rename_i t ht
    simp [ht]
  · cases h
  · cases h

/-- An open block with V-RD's ramp in its buffer and one SAMPLE at the port. -/
def rampBlock : State := { (block 1) with mem := ramp, inq := [0x60000000#32, 1#32, 2#32] }

theorem witness_StepKeepsMemoryCanonical : rampBlock.mem.wf = true ∧ step rampBlock = .next (stepped rampBlock) :=
  ⟨by decide +kernel, step_stepped _ (by decide +kernel)⟩

/-- An open block after CONFIG, ACTIVATE and PROCESS 2, with one SAMPLE at the port. -/
def sampling : State := (block 2).withIn [0x60000000#32, 1#32, 2#32]

theorem witness_StepKeepsMachineInvariant : sampling.Inv ∧ step sampling = .next (stepped sampling) := by
  refine ⟨⟨by decide +kernel, by decide +kernel, by decide +kernel, ?_, ?_, by decide +kernel, by decide +kernel,
    by decide +kernel, by decide +kernel, by decide +kernel, by decide +kernel, by decide +kernel, ?_, ?_⟩,
    step_stepped _ (by decide +kernel)⟩
  · exact fun h => absurd h (by decide +kernel)
  · exact fun h => absurd h (by decide +kernel)
  · intro t ch
    have h : ∀ t ∈ [Site.ihc, .ilc, .fhc, .flc], ∀ ch ∈ [Chan.c0, .c1], ((sampling.eng.filt.get t).get ch).fill ≤ 3 := by
      decide +kernel
    exact h t (by cases t <;> decide) ch (by cases ch <;> decide)
  · have h : sampling.mem.cells = ⟨[], []⟩ := by decide +kernel
    intro _ ch a _
    rw [h]
    cases ch <;> rfl

theorem witness_StepKeepsNumericRanges : sampling.RangeInv ∧ step sampling = .next (stepped sampling) :=
  ⟨⟨by decide +kernel, by decide +kernel, by decide +kernel, fun _ ch => (by cases ch <;> decide +kernel),
    by decide +kernel, by decide +kernel, by decide +kernel⟩, step_stepped _ (by decide +kernel)⟩

theorem witness_PowerOnMeetsMachineInvariant : paramsOk Params.default = true ∧ Params.default.divTable.length ≤ 2 ^ 24 := by
  decide +kernel

theorem witness_StepKeepsErrorInvariant : (after [.activate] State.reset).ErrInv ∧
    step (after [.activate] State.reset) = .next (stepped (after [.activate] State.reset)) :=
  ⟨⟨by decide +kernel, by decide +kernel, by decide +kernel⟩, step_stepped _ (by decide +kernel)⟩

/-- The whole sequence at FADE_LEN = 2 and `thr` = 2 takes seven samples. -/
theorem witness_DelayChangeRunsTheWholeCrossfade :
    cycling.eng.fsm = .cycle ∧ cycling.eng.fadePos = cycling.const.fadeLen ∧ 1 ≤ cycling.const.fadeLen ∧
    changed cycling.snap cycling.eng.com = true ∧ muted cycling.snap = false ∧ isNaN cycling.snap.tempoC = false ∧
    fillThreshold cycling.params cycling.const (commitEngine cycling.snap cycling.eng) = ((2 : Nat) : Int) ∧ 1 ≤ 2 ∧
    (List.replicate 7 (0#32, 0#32)).length ≤ cycling.blockRemain.toNat ∧ phaseAt 2 2 7 = (.cycle, 2) := by decide +kernel
theorem witness_FirstTwoSamplesCommit : (block 2).eng.fsm = .fillBuf ∧ (block 2).eng.fadePos = 0 ∧
    (block 2).eng.com.valid = false ∧ muted (block 2).snap = false ∧ 1 ≤ (block 2).const.cap ∧
    2 ≤ (block 2).blockRemain.toNat := by decide +kernel
/-- The second part at `fade_pos` 2, 1 and 0: a change in CYCLE, a mute in FADE_IN, a mute in FILL_BUF, and FADE_OUT. -/
theorem witness_MuteHoldsFadeOutDone :
    (cycling.blockRemain ≠ 0#16 ∧ cycling.eng.fsm = .cycle ∧ changed cycling.snap cycling.eng.com = true) ∧
    (muted { cycling with snap := Snapshot.zero, eng := { Engine.reset with fsm := .fadeIn, fadePos := 1 } }.snap = true) ∧
    (muted { cycling with snap := Snapshot.zero, eng := Engine.reset }.snap = true ∧ Engine.reset.fsm = .fillBuf) ∧
    { Engine.reset with fsm := .fadeOut }.fsm = .fadeOut ∧
    holding.eng.fsm = .fadeOutDone ∧ muted holding.snap = true ∧
    (List.replicate 9 (0#32, 0#32)).length ≤ holding.blockRemain.toNat := by decide +kernel
theorem witness_FadeCoefficientIsMonotoneAndExact :
    1 ≤ 2 ^ 24 ∧ Engine.reset.fadePos ≤ { Engine.reset with fadePos := 2 ^ 24 }.fadePos ∧
    { Engine.reset with fadePos := 2 ^ 24 }.fadePos ≤ { Constants.zero with fadeLen := 2 ^ 24 }.fadeLen ∧
    { Constants.zero with fadeLen := 2 ^ 24 }.fadeLen ≤ 2 ^ 24 := by decide +kernel
theorem witness_RoundingIsNearestTiesToEven : 0 < 1 ∧ (2 ^ 25 - 1) * 2 ^ 252 * 1 ≤ (2 ^ 25 - 1) * 2 ^ 252 ∧
    roundMag ((2 ^ 25 - 1) * 2 ^ 252 - 1) 1 < 0x7F800000 ∧ 0x7F7FFFFF < 0x7F800000 := by decide +kernel
theorem witness_IntegerConversionsAreExact : 2 ^ 24 ≤ 2 ^ 24 ∧ 0 ≤ 2 ^ 24 := by decide
/-- Words 0 and C - 1, and the largest position a word index can take. -/
theorem witness_ReadAtIntegerPositionIsTheWord : 22 < cap23.cap ∧ cap23.cap ≤ 2 ^ 24 ∧ 22 + cap23.cap ≤ 2 ^ 24 ∧
    isFinite (fSub (ramp.readWord .c0 ((22 + 1) % cap23.cap)) (ramp.readWord .c0 22)) = true ∧
    isFinite (fSub (ramp.readWord .c0 ((0 + 1) % cap23.cap)) (ramp.readWord .c0 0)) = true ∧ 22 < 2 ^ 23 ∧
    fLe fZero (wrapPosition cap23 0xBF000000#32) = true ∧
    fLt (wrapPosition cap23 0xBF000000#32) (fOfNat cap23.cap) = true := by decide +kernel
/-- Both ends of the range, and the tiny negative position that a wrap rounds to C (V-RD row 10). -/
theorem witness_ReadWrapsIntoTheBuffer : 1 ≤ cap23.cap ∧ cap23.cap ≤ 2 ^ 24 ∧
    fLe (fNeg (fOfNat (2 * cap23.cap))) 0xC2380000#32 = true ∧ fLe 0x42380000#32 (fOfNat (2 * cap23.cap)) = true ∧
    fLe (fNeg (fOfNat (2 * cap23.cap))) 0xB089705F#32 = true ∧ fLe 0xB089705F#32 (fOfNat (2 * cap23.cap)) = true := by
  decide +kernel
theorem witness_PhaseStaysInOneTurn : fLe fZero 0x40C90FDA#32 = true ∧ fLt 0x40C90FDA#32 fTwoPi = true ∧
    fLe fZero (lfoInc { Constants.zero with rate := fHundred } Engine.reset) = true ∧
    fLe (lfoInc { Constants.zero with rate := fHundred } Engine.reset) 0x40490FDB#32 = true ∧
    fLe fZero 0x40490FDB#32 = true := by decide +kernel
theorem witness_MixerLaw : Snapshot.zero.pp = false ∧ { Snapshot.zero with pp := true }.pp = true := by decide
theorem witness_DividerIndexLiesInTable : isNaN 0x7F800000#32 = false ∧ 1 ≤ Params.default.divTable.length ∧
    Params.default.divTable.length ≤ 2 ^ 24 := by decide +kernel
theorem witness_BufWriteStoresOneWord : ramp.wf = true ∧ Chan.c1 ≠ .c0 ∧ 4 * (22 % cap23.cap) - 1 < 4 * (22 % cap23.cap) ∧
    4 * (22 % cap23.cap) + 4 ≤ 92 ∧ 0 ≠ 22 % cap23.cap := by decide +kernel
theorem witness_SmootherWithUnitCoefficientReachesTarget : isFinite 0x00000001#32 = true ∧ isFinite 0xFF7FFFFF#32 = true := by
  decide
theorem witness_LimiterLaw : fGt (0xC0000000#32 &&& 0x7FFFFFFF#32) 0x3FFFFFFF#32 = true ∧
    fGt (0x3FFFFFFF#32 &&& 0x7FFFFFFF#32) 0x3FFFFFFF#32 = false ∧
    fGt (limiterEnv cap23 0#32 0x3F000000#32) fOne = false ∧ fGt (limiterEnv cap23 0#32 0x40000000#32) fOne = true ∧
    isNaN 0x7F800001#32 = true := by decide +kernel
theorem witness_BiquadWarmUpAndBypass : Snapshot.zero.on.get .flc = false ∧ Site.ihc ≠ .ilc ∧ Chan.c0 ≠ .c1 ∧
    { Snapshot.zero with on := ⟨true, false, false, false⟩ }.on.get .ihc = true ∧
    3 ≤ { Biquad.zero with fill := 3 }.fill ∧ (Site.fhc = .ihc ∨ Site.fhc = .fhc) ∧ (Site.ilc = .ilc ∨ Site.ilc = .flc) := by
  decide
theorem witness_OscillatorInversionLatchesAtWrap : Engine.reset.invLat = false ∧ Engine.reset.phase = 0#32 ∧
    { Engine.reset with invLat := true }.invLat = true ∧
    fGe (fAdd fTwoPi (lfoInc { Constants.zero with rate := fHundred } Engine.reset)) fTwoPi = true ∧
    fGe (fAdd 0x40C90FDA#32 (lfoInc { Constants.zero with rate := fHundred } Engine.reset)) fTwoPi = false := by decide +kernel
/-- 10^0.6 and 10^38, which is below the largest finite value. -/
theorem witness_NumericsMeetTheirProperties : (isFinite 0x7F7FFFFF#32 = true ∧ isZero 0x80000000#32 = true ∧
      0 < fRat fTen ∧ powInRange fTen 0x3F19999A#32 = true) ∧
    (2 : ℝ) ^ (-149 : ℤ) ≤ (fRat fTen : ℝ) ^ (fRat 0x42180000#32 : ℝ) ∧
    (fRat fTen : ℝ) ^ (fRat 0x42180000#32 : ℝ) ≤ (2 ^ 24 - 1) * 2 ^ 104 :=
  ⟨by decide +kernel, (powInRange_iff (by decide +kernel)).mp (by decide +kernel)⟩

end Sys2Proof.Tests
end

section

namespace Sys2Proof.Machine

/-! ### Magnitude bits and the one rounding function (00_scope.md R13, R14) -/

/-- The magnitude, in units of 2^-149, of the magnitude bits `b`: `fMag` of a pattern as a function of its `fBits`. -/
def magBits (b : Nat) : Nat :=
  if b / 2 ^ 23 = 0 then b % 2 ^ 23 else (2 ^ 23 + b % 2 ^ 23) * 2 ^ (b / 2 ^ 23 - 1)

theorem fMag_eq_magBits (w : Word) : fMag w = magBits (fBits w) := rfl

/-- A significand `m` at the scale `2^s`, where only the scale 0 takes a significand below `2^23`. `m = 2^24` carries
into the next scale. -/
theorem magBits_scaled {s m : Nat} (hs : s = 0 ∨ 2 ^ 23 ≤ m) (hm : m ≤ 2 ^ 24) :
    magBits (s * 2 ^ 23 + m) = m * 2 ^ s := by
  unfold magBits
  rcases Nat.lt_or_ge m (2 ^ 23) with hsub | hnorm
  · obtain rfl : s = 0 := by omega
    rw [if_pos (by omega), show (0 * 2 ^ 23 + m) % 2 ^ 23 = m by omega, pow_zero, mul_one]
  rcases hm.lt_or_eq with hlt | rfl
  · rw [if_neg (by omega), show (s * 2 ^ 23 + m) % 2 ^ 23 = m - 2 ^ 23 by omega,
      show (s * 2 ^ 23 + m) / 2 ^ 23 - 1 = s by omega, Nat.add_sub_cancel' hnorm]
  · rw [if_neg (by omega), show (s * 2 ^ 23 + 2 ^ 24) % 2 ^ 23 = 0 by omega,
      show (s * 2 ^ 23 + 2 ^ 24) / 2 ^ 23 - 1 = s + 1 by omega]
    ring

/-- All magnitude bits are a significand at a scale. -/
theorem exists_scaled (b : Nat) : ∃ s m, b = s * 2 ^ 23 + m ∧ (s = 0 ∨ 2 ^ 23 ≤ m) ∧ m < 2 ^ 24 := by
  rcases Nat.lt_or_ge b (2 ^ 23) with hsub | hnorm
  · exact ⟨0, b, by omega, .inl rfl, by omega⟩
  · exact ⟨b / 2 ^ 23 - 1, b % 2 ^ 23 + 2 ^ 23, by omega, .inr (by omega), by omega⟩

/-- Larger magnitude bits stand for a larger magnitude. -/
theorem magBits_strictMono : StrictMono magBits := by
  refine strictMono_nat_of_lt_succ fun b => ?_
  obtain ⟨s, m, rfl, hs, hm⟩ := exists_scaled b
  rw [magBits_scaled hs hm.le, add_assoc, magBits_scaled (by omega) hm]
  exact Nat.mul_lt_mul_of_pos_right (Nat.lt_succ_self m) (by positivity)

/-- The exponent of the scale at which `roundMag` rounds `n / d`. -/
def roundScale (n d : Nat) : Nat := Nat.log2 (n / d) - 23

/-- The significand of `n / d` at that scale, rounded down. -/
def significand (n d : Nat) : Nat := n / (d * 2 ^ roundScale n d)

/-- The magnitude bits at or next below `n / d` units of 2^-149, with no upper limit. -/
def roundDown (n d : Nat) : Nat := roundScale n d * 2 ^ 23 + significand n d

/-- `n / d` rounds away from its lower neighbour `b`: it lies above the midpoint of `b` and `b + 1`, or on it and `b`
is odd. -/
def RoundsUp (n d b : Nat) : Prop :=
  (magBits b + magBits (b + 1)) * d < 2 * n ∨ ((magBits b + magBits (b + 1)) * d = 2 * n ∧ b % 2 = 1)

theorem significand_lt (n d : Nat) : significand n d < 2 ^ 24 := by
  rw [significand, ← Nat.div_div_eq_div_mul, Nat.div_lt_iff_lt_mul (by positivity)]
  calc n / d < 2 ^ (Nat.log2 (n / d) + 1) := Nat.lt_log2_self
    _ ≤ 2 ^ (24 + roundScale n d) := Nat.pow_le_pow_right two_pos (by unfold roundScale; omega)
    _ = 2 ^ 24 * 2 ^ roundScale n d := pow_add _ _ _

/-- The significand has 24 bits, all but at the scale of the subnormals. -/
theorem roundScale_eq_zero_or_le_significand (n d : Nat) : roundScale n d = 0 ∨ 2 ^ 23 ≤ significand n d := by
  rcases Nat.eq_zero_or_pos (roundScale n d) with h | h
  · exact .inl h
  have hq : n / d ≠ 0 := by
    intro h0
    simp [roundScale, h0] at h
  rw [significand, ← Nat.div_div_eq_div_mul, Nat.le_div_iff_mul_le (by positivity)]
  refine .inr ?_
  calc 2 ^ 23 * 2 ^ roundScale n d = 2 ^ Nat.log2 (n / d) := by
        rw [← pow_add]
        congr 1
        unfold roundScale at *
        omega
    _ ≤ n / d := Nat.log2_self_le hq

theorem magBits_roundDown (n d : Nat) : magBits (roundDown n d) = significand n d * 2 ^ roundScale n d :=
  magBits_scaled (roundScale_eq_zero_or_le_significand n d) (significand_lt n d).le

theorem magBits_roundDown_succ (n d : Nat) :
    magBits (roundDown n d + 1) = (significand n d + 1) * 2 ^ roundScale n d := by
  rw [roundDown, add_assoc]
  exact magBits_scaled ((roundScale_eq_zero_or_le_significand n d).imp_right Nat.le_succ_of_le) (significand_lt n d)

/-- `n / d` lies between the values of two neighbouring patterns. -/
theorem roundDown_brackets (n : Nat) {d : Nat} (hd : 0 < d) :
    magBits (roundDown n d) * d ≤ n ∧ n < magBits (roundDown n d + 1) * d := by
  rw [magBits_roundDown, magBits_roundDown_succ, mul_assoc, mul_assoc, mul_comm _ d]
  have hu : 0 < d * 2 ^ roundScale n d := by positivity
  exact ⟨Nat.div_mul_le_self _ _, by rw [mul_comm]; exact Nat.lt_mul_div_succ n hu⟩

/-- The neighbours of `n / d` are unique. -/
theorem roundDown_unique {n d b : Nat} (hd : 0 < d) (hlo : magBits b * d ≤ n) (hhi : n < magBits (b + 1) * d) :
    roundDown n d = b := by
  obtain ⟨hlo', hhi'⟩ := roundDown_brackets n hd
  have h1 : magBits (roundDown n d) < magBits (b + 1) := lt_of_mul_lt_mul_right (hlo'.trans_lt hhi) hd.le
  have h2 : magBits b < magBits (roundDown n d + 1) := lt_of_mul_lt_mul_right (hlo.trans_lt hhi') hd.le
  rw [magBits_strictMono.lt_iff_lt] at h1 h2
  omega

/-- `roundMag`'s test on the remainder compares `n / d` with the midpoint of its neighbours. -/
theorem roundsUp_roundDown_iff (n d : Nat) :
    RoundsUp n d (roundDown n d) ↔
      d * 2 ^ roundScale n d < 2 * (n % (d * 2 ^ roundScale n d)) ∨
        (2 * (n % (d * 2 ^ roundScale n d)) = d * 2 ^ roundScale n d ∧ significand n d % 2 = 1) := by
  have hpar : roundDown n d % 2 = significand n d % 2 := by unfold roundDown; omega
  have hdiv : d * 2 ^ roundScale n d * significand n d + n % (d * 2 ^ roundScale n d) = n := Nat.div_add_mod _ _
  have hsum : (magBits (roundDown n d) + magBits (roundDown n d + 1)) * d =
      2 * (d * 2 ^ roundScale n d * significand n d) + d * 2 ^ roundScale n d := by
    rw [magBits_roundDown, magBits_roundDown_succ]
    ring
  rw [RoundsUp, hsum, hpar]
  omega

/-- `roundMag` answers the upper neighbour where `n / d` rounds up, at most infinity. -/
theorem roundMag_of_roundsUp {n d : Nat} (h : RoundsUp n d (roundDown n d)) :
    roundMag n d = min (roundDown n d + 1) 0x7F800000 := by
  rw [roundsUp_roundDown_iff] at h
  rw [roundDown, add_assoc]
  exact congrArg (fun m => min (_ + m) _) (if_pos h)

/-- `roundMag` answers the lower neighbour elsewhere. -/
theorem roundMag_of_not_roundsUp {n d : Nat} (h : ¬ RoundsUp n d (roundDown n d)) :
    roundMag n d = min (roundDown n d) 0x7F800000 := by
  rw [roundsUp_roundDown_iff] at h
  exact congrArg (fun m => min (_ + m) _) (if_neg h)

/-- `roundMag` answers one of the two neighbours, at most infinity. -/
theorem roundMag_eq_or (n d : Nat) :
    roundMag n d = min (roundDown n d) 0x7F800000 ∨ roundMag n d = min (roundDown n d + 1) 0x7F800000 := by
  by_cases hr : RoundsUp n d (roundDown n d)
  · exact .inr (roundMag_of_roundsUp hr)
  · exact .inl (roundMag_of_not_roundsUp hr)

/-- A value in the form of a pattern's rounds to that pattern, from an infinity's bits on to infinity. -/
theorem roundMag_exact {d : Nat} (b : Nat) (hd : 0 < d) : roundMag (magBits b * d) d = min b 0x7F800000 := by
  have hlt : magBits b * d < magBits (b + 1) * d :=
    Nat.mul_lt_mul_of_pos_right (magBits_strictMono b.lt_succ_self) hd
  have hdown : roundDown (magBits b * d) d = b := roundDown_unique hd le_rfl hlt
  rw [roundMag_of_not_roundsUp, hdown]
  rw [hdown, RoundsUp, add_mul]
  omega

/-- Rounding reads the quotient alone, not the fraction that writes it. -/
theorem roundMag_congr {n d n' d' : Nat} (hd : 0 < d) (hd' : 0 < d') (h : n * d' = n' * d) :
    roundMag n d = roundMag n' d' := by
  obtain ⟨hlo, hhi⟩ := roundDown_brackets n hd
  have hlo' : magBits (roundDown n d) * d' ≤ n' := by
    refine le_of_mul_le_mul_right (a := d) ?_ hd
    rw [← h, mul_right_comm]
    exact Nat.mul_le_mul_right d' hlo
  have hhi' : n' < magBits (roundDown n d + 1) * d' := by
    refine lt_of_mul_lt_mul_right (a := d) ?_ hd.le
    rw [← h, mul_right_comm]
    exact Nat.mul_lt_mul_of_pos_right hhi hd'
  have hdown : roundDown n' d' = roundDown n d := roundDown_unique hd' hlo' hhi'
  have hup : RoundsUp n d (roundDown n d) ↔ RoundsUp n' d' (roundDown n' d') := by
    rw [hdown, RoundsUp, RoundsUp]
    generalize magBits (roundDown n d) + magBits (roundDown n d + 1) = v
    have h2 : 2 * n * d' = 2 * n' * d := by rw [mul_assoc, h, mul_assoc]
    rw [← Nat.mul_lt_mul_right hd', ← Nat.mul_left_inj hd'.ne', h2, mul_right_comm v, Nat.mul_lt_mul_right hd,
      Nat.mul_left_inj hd.ne']
  by_cases hr : RoundsUp n d (roundDown n d)
  · rw [roundMag_of_roundsUp hr, roundMag_of_roundsUp (hup.mp hr), hdown]
  · rw [roundMag_of_not_roundsUp hr, roundMag_of_not_roundsUp (mt hup.mpr hr), hdown]

theorem magBits_maxFinite : magBits 0x7F7FFFFF = (2 ^ 24 - 1) * 2 ^ 253 :=
  magBits_scaled (s := 253) (m := 2 ^ 24 - 1) (.inr (by omega)) (by omega)

theorem magBits_infinity : magBits 0x7F800000 = 2 ^ 23 * 2 ^ 254 :=
  magBits_scaled (s := 254) (m := 2 ^ 23) (.inr le_rfl) (by omega)

/-- Overflow begins half a step above the largest finite value: that midpoint's lower neighbour is odd (IEEE 754;
PRESUMED, log entry 16). -/
theorem roundMag_eq_infinity_iff (n : Nat) {d : Nat} (hd : 0 < d) :
    roundMag n d = 0x7F800000 ↔ (2 ^ 25 - 1) * 2 ^ 252 * d ≤ n := by
  obtain ⟨hlo, hhi⟩ := roundDown_brackets n hd
  rcases lt_trichotomy (roundDown n d) 0x7F7FFFFF with hb | hb | hb
  · have hn : n < (2 ^ 24 - 1) * 2 ^ 253 * d := by
      rw [← magBits_maxFinite]
      exact hhi.trans_le (Nat.mul_le_mul_right d (magBits_strictMono.monotone hb))
    have hne : roundMag n d ≠ 0x7F800000 := by
      rcases roundMag_eq_or n d with h | h <;> omega
    simp only [hne, false_iff]
    omega
  · have hmid : RoundsUp n d (roundDown n d) ↔ (2 ^ 25 - 1) * 2 ^ 252 * d ≤ n := by
      rw [hb, RoundsUp, magBits_maxFinite, magBits_infinity]
      omega
    rw [← hmid]
    by_cases hr : RoundsUp n d (roundDown n d)
    · simp only [hr, roundMag_of_roundsUp hr, iff_true]
      omega
    · simp only [hr, roundMag_of_not_roundsUp hr, iff_false]
      omega
  · have hn : 2 ^ 23 * 2 ^ 254 * d ≤ n := by
      rw [← magBits_infinity]
      exact (Nat.mul_le_mul_right d (magBits_strictMono.monotone hb)).trans hlo
    have heq : roundMag n d = 0x7F800000 := by
      rcases roundMag_eq_or n d with h | h <;> omega
    simp only [heq, true_iff]
    omega

/-- The distance of `n / d` from the value of the bits `b`, times `d`. -/
def roundDist (n d b : Nat) : ℤ := |(magBits b : ℤ) * d - n|

theorem roundDist_of_le {n d b : Nat} (h : magBits b * d ≤ n) : roundDist n d b = n - magBits b * d := by
  rw [roundDist, abs_of_nonpos (sub_nonpos_of_le (mod_cast h)), neg_sub]

theorem roundDist_of_ge {n d b : Nat} (h : n ≤ magBits b * d) : roundDist n d b = magBits b * d - n := by
  rw [roundDist, abs_of_nonneg (sub_nonneg_of_le (mod_cast h))]

/-- Of the values at or below `n / d` the lower neighbour is the nearest. -/
theorem roundDist_roundDown_lt {n d b : Nat} (hd : 0 < d) (h : b < roundDown n d) :
    roundDist n d (roundDown n d) < roundDist n d b := by
  have hlo := (roundDown_brackets n hd).1
  have hlt : magBits b * d < magBits (roundDown n d) * d := Nat.mul_lt_mul_of_pos_right (magBits_strictMono h) hd
  rw [roundDist_of_le hlo, roundDist_of_le (hlt.le.trans hlo)]
  zify at hlt
  linarith

/-- Of the values above `n / d` the upper neighbour is the nearest. -/
theorem roundDist_roundDown_succ_lt {n d b : Nat} (hd : 0 < d) (h : roundDown n d + 1 < b) :
    roundDist n d (roundDown n d + 1) < roundDist n d b := by
  have hhi := (roundDown_brackets n hd).2.le
  have hlt : magBits (roundDown n d + 1) * d < magBits b * d := Nat.mul_lt_mul_of_pos_right (magBits_strictMono h) hd
  rw [roundDist_of_ge hhi, roundDist_of_ge (hhi.trans hlt.le)]
  zify at hlt
  linarith

/-- `n / d` rounds up where its upper neighbour is the nearer one, or as near and the lower one odd. -/
theorem roundsUp_iff_roundDist (n : Nat) {d : Nat} (hd : 0 < d) :
    RoundsUp n d (roundDown n d) ↔
      roundDist n d (roundDown n d + 1) < roundDist n d (roundDown n d) ∨
        (roundDist n d (roundDown n d + 1) = roundDist n d (roundDown n d) ∧ roundDown n d % 2 = 1) := by
  obtain ⟨hlo, hhi⟩ := roundDown_brackets n hd
  rw [roundDist_of_le hlo, roundDist_of_ge hhi.le, RoundsUp, add_mul]
  zify
  omega

/-- No bits are nearer to `n / d` than a finite result of `roundMag`, and others are as near only if it is even. -/
theorem roundMag_nearest {n d : Nat} (hd : 0 < d) (hfin : roundMag n d < 0x7F800000) (b : Nat) :
    roundDist n d (roundMag n d) ≤ roundDist n d b ∧
      (roundDist n d (roundMag n d) = roundDist n d b → b = roundMag n d ∨ roundMag n d % 2 = 0) := by
  have hup := roundsUp_iff_roundDist n hd
  have hbelow : b < roundDown n d → roundDist n d (roundDown n d) < roundDist n d b := roundDist_roundDown_lt hd
  have habove : roundDown n d + 1 < b → roundDist n d (roundDown n d + 1) < roundDist n d b :=
    roundDist_roundDown_succ_lt hd
  have hb : b < roundDown n d ∨ b = roundDown n d ∨ b = roundDown n d + 1 ∨ roundDown n d + 1 < b := by omega
  by_cases hr : RoundsUp n d (roundDown n d)
  · have hres : roundMag n d = roundDown n d + 1 := by have := roundMag_of_roundsUp hr; omega
    rw [hup] at hr
    rw [hres]
    rcases hb with hb | rfl | rfl | hb <;> omega
  · have hres : roundMag n d = roundDown n d := by have := roundMag_of_not_roundsUp hr; omega
    rw [hup] at hr
    rw [hres]
    rcases hb with hb | rfl | rfl | hb <;> omega

theorem fMag_ofNat {b : Nat} (h : b < 2 ^ 31) : fMag (BitVec.ofNat 32 b) = magBits b :=
  congrArg magBits (fBits_fPack (neg := false) h)

/-- Settles O49: the threshold of overflow, then the neighbours of `n / d` compared by their distances. -/
theorem roundingIsNearestTiesToEven : Obligations.RoundingIsNearestTiesToEven := by
  intro n d hd
  refine ⟨roundMag_eq_infinity_iff n hd, fun hfin b hb => ?_⟩
  rw [fMag_ofNat (by omega), fMag_ofNat (by omega)]
  exact roundMag_nearest hd hfin b

end Sys2Proof.Machine
end

section

namespace Sys2Proof.Machine

/-! ### Values of patterns as rationals (R13, R15) -/

theorem fVal_fPack (neg : Bool) {b : Nat} (h : b < 2 ^ 31) :
    fVal (fPack neg b) = if neg then -(magBits b : ℤ) else magBits b := by
  rw [fVal, fSign_fPack h, fMag_eq_magBits, fBits_fPack h]

theorem isFinite_fPack (neg : Bool) {b : Nat} (h : b < 0x7F800000) : isFinite (fPack neg b) = true := by
  rw [isFinite, fBits_fPack (by omega)]
  exact decide_eq_true h

/-- Patterns compare as their rational values do, an infinity reading as 2^128 (R15). -/
theorem fLe_iff {a b : Word} : fLe a b = true ↔ isNaN a = false ∧ isNaN b = false ∧ fRat a ≤ fRat b := by
  simp [fLe, fRat, div_le_div_iff_of_pos_right, and_assoc]

theorem fLt_iff {a b : Word} : fLt a b = true ↔ isNaN a = false ∧ isNaN b = false ∧ fRat a < fRat b := by
  simp [fLt, fRat, div_lt_div_iff_of_pos_right, and_assoc]

theorem fRat_fZero : fRat fZero = 0 := by decide +kernel
theorem fRat_fOne : fRat fOne = 1 := by decide +kernel

/-- The finite patterns are those below an infinity's 2^277 units. -/
theorem isFinite_iff_fMag_lt {w : Word} : isFinite w = true ↔ fMag w < 2 ^ 23 * 2 ^ 254 := by
  rw [← magBits_infinity, fMag_eq_magBits, magBits_strictMono.lt_iff_lt, isFinite, decide_eq_true_iff]

theorem isFinite_iff_abs_fRat_lt {w : Word} : isFinite w = true ↔ |fRat w| < 2 ^ 128 := by
  have hinf : (2 : ℝ) ^ 128 * 2 ^ 149 = ((2 ^ 23 * 2 ^ 254 : ℕ) : ℝ) := by norm_num
  rw [isFinite_iff_fMag_lt, ← Rat.cast_lt (K := ℝ), Rat.cast_abs, abs_fRat, Rat.cast_pow, Rat.cast_ofNat,
    div_lt_iff₀ (by positivity), hinf, Nat.cast_lt]

/-! ### Integers (R10, R16, R160) -/

/-- A positive integer up to 2^24 fills the significand after a shift. -/
theorem exists_shift_into_significand {n : Nat} (hpos : 0 < n) (h : n ≤ 2 ^ 24) :
    ∃ k ≤ 23, 2 ^ 23 ≤ n * 2 ^ k ∧ n * 2 ^ k ≤ 2 ^ 24 := by
  rcases h.lt_or_eq with hlt | rfl
  · have hlog : Nat.log2 n < 24 := (Nat.log2_lt hpos.ne').mpr hlt
    refine ⟨23 - Nat.log2 n, Nat.sub_le _ _, ?_, ?_⟩
    · calc 2 ^ 23 = 2 ^ Nat.log2 n * 2 ^ (23 - Nat.log2 n) := by rw [← pow_add]; congr 1; omega
        _ ≤ n * 2 ^ (23 - Nat.log2 n) := Nat.mul_le_mul_right _ (Nat.log2_self_le hpos.ne')
    · calc n * 2 ^ (23 - Nat.log2 n) ≤ 2 ^ (Nat.log2 n + 1) * 2 ^ (23 - Nat.log2 n) :=
            Nat.mul_le_mul_right _ Nat.lt_log2_self.le
        _ = 2 ^ 24 := by rw [← pow_add]; congr 1; omega
  · exact ⟨0, by omega, by omega, by omega⟩

/-- An integer up to 2^24 is the value of finite magnitude bits. -/
theorem exists_magBits_eq_nat {n : Nat} (h : n ≤ 2 ^ 24) : ∃ b, b < 0x7F800000 ∧ magBits b = n * 2 ^ 149 := by
  rcases Nat.eq_zero_or_pos n with rfl | hpos
  · exact ⟨0, by omega, rfl⟩
  obtain ⟨k, hk, hlo, hhi⟩ := exists_shift_into_significand hpos h
  refine ⟨(149 - k) * 2 ^ 23 + n * 2 ^ k, by omega, ?_⟩
  rw [magBits_scaled (.inr hlo) hhi, mul_assoc, ← pow_add]
  congr 2
  omega

/-- `f32(n)` of an integer up to 2^24 is exact (R10, R16). -/
theorem fOfNat_exact {n : Nat} (h : n ≤ 2 ^ 24) :
    isFinite (fOfNat n) = true ∧ fVal (fOfNat n) = n * 2 ^ 149 := by
  obtain ⟨b, hb, hval⟩ := exists_magBits_eq_nat h
  have hround : roundMag (n * 2 ^ 149) 1 = b := by
    rw [← hval, ← mul_one (magBits b)]
    rw [roundMag_exact b one_pos, Nat.min_eq_left hb.le]
  rw [fOfNat, hround, fVal_fPack false (by omega), hval]
  exact ⟨isFinite_fPack false hb, by push_cast; rfl⟩

theorem fFloor_of_fVal {w : Word} {k : ℤ} (hf : isFinite w = true) (h : fVal w = k * 2 ^ 149) : fFloor w = k := by
  rw [fFloor, if_pos hf, h]
  exact Int.mul_ediv_cancel k (by norm_num)

theorem fCeil_of_fVal {w : Word} {k : ℤ} (hf : isFinite w = true) (h : fVal w = k * 2 ^ 149) : fCeil w = k := by
  rw [fCeil, if_pos hf, h, ← Int.neg_mul]
  exact neg_eq_iff_eq_neg.mpr (Int.mul_ediv_cancel (-k) (by norm_num))

/-- Settles O50: the integer's value in units of 2^-149 is that of a pattern, which rounding keeps. -/
theorem integerConversionsAreExact : Obligations.IntegerConversionsAreExact := by
  intro n hn
  obtain ⟨hfin, hval⟩ := fOfNat_exact hn
  refine ⟨hfin, ?_, fFloor_of_fVal hfin hval, fCeil_of_fVal hfin hval⟩
  rw [fRat, hval]
  push_cast
  exact mul_div_cancel_right₀ _ (by positivity)

/-! ### SIN, COS and POW (R17) -/

/-- A value in [-1, 1] is a finite one. -/
theorem inUnit_iff {v : Word} : inUnit v = true ↔ isFinite v = true ∧ |fRat v| ≤ 1 := by
  have hneg : fRat (fNeg fOne) = -1 := by decide +kernel
  have hN : isNaN (fNeg fOne) = false ∧ isNaN fOne = false := by decide +kernel
  simp only [inUnit, Bool.and_eq_true, fLe_iff, hneg, fRat_fOne, hN, abs_le]
  constructor
  · rintro ⟨⟨-, hv, hlo⟩, -, -, hhi⟩
    exact ⟨isFinite_iff_abs_fRat_lt.mpr ((abs_le.mpr ⟨hlo, hhi⟩).trans_lt (by norm_num)), hlo, hhi⟩
  · rintro ⟨hfin, hlo, hhi⟩
    have hv := isNaN_eq_false_of_isFinite hfin
    exact ⟨⟨trivial, hv, hlo⟩, hv, trivial, hhi⟩

theorem inUnit_toUnit (v : Word) : inUnit (toUnit v) = true := by
  unfold toUnit
  split
  · assumption
  · decide +kernel

theorem inUnit_of_isZero {v : Word} (h : isZero v = true) : inUnit v = true := by
  have hbits : fBits v = 0 := of_decide_eq_true h
  have hrat : fRat v = 0 := by simp [fRat, fVal, fMag, hbits]
  exact inUnit_iff.mpr ⟨decide_eq_true (by omega), by simp [hrat]⟩

theorem isZero_fSin {x : Word} (h : isZero x = true) : isZero (fSin x) = true := by
  unfold fSin
  split_ifs with hx hs
  · decide
  · exact hs
  · decide

theorem inUnit_fSin {x : Word} (h : isFinite x = true) : inUnit (fSin x) = true := by
  rcases hz : isZero x with _ | _
  · have hx : x ≠ fZero := by rintro rfl; exact absurd hz (by decide)
    rw [fSin, if_neg hx, hz, if_neg Bool.false_ne_true, if_pos h]
    exact inUnit_toUnit _
  · exact inUnit_of_isZero (isZero_fSin hz)

theorem fCos_of_isZero {x : Word} (h : isZero x = true) : fCos x = fOne := if_pos h

theorem inUnit_fCos {x : Word} (h : isFinite x = true) : inUnit (fCos x) = true := by
  rcases hz : isZero x with _ | _
  · rw [fCos, hz, if_neg Bool.false_ne_true, if_pos h]
    exact inUnit_toUnit _
  · rw [fCos_of_isZero hz]
    decide +kernel

theorem isFinitePos_iff {v : Word} : isFinitePos v = true ↔ isFinite v = true ∧ 0 < fRat v := by
  have hz : isNaN fZero = false := by decide
  rw [isFinitePos, Bool.and_eq_true, fLt_iff, fRat_fZero]
  exact ⟨fun ⟨hf, _, _, hpos⟩ => ⟨hf, hpos⟩,
    fun ⟨hf, hpos⟩ => ⟨hf, hz, isNaN_eq_false_of_isFinite hf, hpos⟩⟩

theorem fPow_of_isZero {b e : Word} (hb : isFinitePos b = true) (he : isZero e = true) : fPow b e = fOne := by
  simp [fPow, hb, he]

theorem fPow_fOne {b : Word} (hb : isFinitePos b = true) : fPow b fOne = b := by
  have hz : isZero fOne = false := by decide
  simp [fPow, hb, hz]

/-- In the binary32 range POW is finite and positive, whichever of its branches answers (R17). -/
theorem isFinitePos_fPow {b e : Word} (hb : isFinitePos b = true) (he : isFinite e = true)
    (hr : powInRange b e = true) : isFinitePos (fPow b e) = true := by
  have hone : isFinitePos fOne = true := by decide +kernel
  simp only [fPow, hb, he, hr, Bool.and_self, Bool.true_and, if_true]
  split_ifs with _ _ hfree
  · exact hone
  · exact hb
  · exact hfree
  · exact hone

/-- Settles O60: the free values pass through guards that keep R17's properties, and `powInRange` decides the range. -/
theorem numericsMeetTheirProperties : Obligations.NumericsMeetTheirProperties := by
  refine ⟨fun x hx => inUnit_iff.mp (inUnit_fSin hx), fun x hx => inUnit_iff.mp (inUnit_fCos hx),
    fun x hx => ⟨isZero_fSin hx, fCos_of_isZero hx⟩,
    fun b e hb hpos => fPow_of_isZero (isFinitePos_iff.mpr ⟨hb, hpos⟩),
    fun b hb hpos => fPow_fOne (isFinitePos_iff.mpr ⟨hb, hpos⟩),
    fun b e hb hpos he hr => isFinitePos_iff.mp (isFinitePos_fPow (isFinitePos_iff.mpr ⟨hb, hpos⟩) he hr),
    fun b e hb hpos he hlo hhi => ?_⟩
  exact isFinitePos_iff.mp
    (isFinitePos_fPow (isFinitePos_iff.mpr ⟨hb, hpos⟩) he ((powInRange_iff hpos).mpr ⟨hlo, hhi⟩))

end Sys2Proof.Machine
end

section

namespace Sys2Proof.Machine

/-! ### The rates that CONFIG accepts (R9) -/

/-- Some magnitude bits have twice the value of given ones. -/
theorem exists_magBits_double (b : Nat) : ∃ b', magBits b' = 2 * magBits b := by
  obtain ⟨s, m, rfl, hs, hm⟩ := exists_scaled b
  rw [magBits_scaled hs hm.le]
  rcases Nat.lt_or_ge m (2 ^ 23) with hsub | hnorm
  · obtain rfl : s = 0 := by omega
    exact ⟨0 * 2 ^ 23 + 2 * m, by rw [magBits_scaled (.inl rfl) (by omega)]; ring⟩
  · exact ⟨(s + 1) * 2 ^ 23 + m, by rw [magBits_scaled (.inr hnorm) hm.le]; ring⟩

/-- Doubling a pattern is exact up to the overflow (R14). -/
theorem fMul_fTwo_eq {h : Word} (hn : isNaN h = false) :
    ∃ b, magBits b = 2 * fMag h ∧ fMul fTwo h = fPack (fSign h) (min b 0x7F800000) := by
  obtain ⟨b, hb⟩ := exists_magBits_double (fBits h)
  refine ⟨b, hb, ?_⟩
  have htwo : isNaN fTwo = false ∧ isInf fTwo = false ∧ isZero fTwo = false ∧ fSign fTwo = false ∧
      fMag fTwo = 2 ^ 150 := by decide +kernel
  obtain ⟨htN, htI, htZ, htS, htM⟩ := htwo
  simp only [fMul, hn, htN, htI, htZ, htS, htM, Bool.false_or, Bool.false_and, Bool.false_eq_true, if_false,
    Bool.false_bne]
  split_ifs with hinf
  · have hbits : fBits h = 0x7F800000 := of_decide_eq_true hinf
    have hle : 0x7F800000 ≤ b := by
      rw [← magBits_strictMono.le_iff_le, hb, hbits]
      omega
    rw [Nat.min_eq_right hle]
  · have hmag : 2 ^ 150 * fMag h = magBits b * 2 ^ 149 := by
      rw [hb, fMag_eq_magBits]
      ring
    rw [hmag, roundMag_exact b (by positivity)]

/-- Twice a value that is at least 0, saturated at an infinity's. -/
theorem fVal_fMul_fTwo {h : Word} (hn : isNaN h = false) (h0 : 0 ≤ fVal h) :
    isNaN (fMul fTwo h) = false ∧ fVal (fMul fTwo h) = min (2 * fVal h) (2 ^ 23 * 2 ^ 254 : ℕ) := by
  obtain ⟨b, hb, hmul⟩ := fMul_fTwo_eq hn
  have hbits : min b 0x7F800000 < 2 ^ 31 := by omega
  have hmin : magBits (min b 0x7F800000) = min (2 * fMag h) (2 ^ 23 * 2 ^ 254) := by
    rw [magBits_strictMono.monotone.map_min, hb, magBits_infinity]
  rw [hmul, fVal_fPack _ hbits, hmin]
  refine ⟨?_, ?_⟩
  · rw [isNaN, fBits_fPack hbits]
    exact decide_eq_false (by omega)
  · unfold fVal at *
    split_ifs at * <;> push_cast <;> omega

/-- The model's test `r > 2 * h` on binary32 words is the test on their exact values (R9). -/
theorem fGt_fMul_fTwo_iff {h r : Word} (hh : fLe fZero h = true) (hr : isFinite r = true) :
    fGt r (fMul fTwo h) = true ↔ 2 * fRat h < fRat r := by
  obtain ⟨-, hn, hpos⟩ := fLe_iff.mp hh
  have h0 : 0 ≤ fVal h := by
    rw [fRat_fZero, fRat, le_div_iff₀ (by positivity), zero_mul] at hpos
    exact_mod_cast hpos
  obtain ⟨hN, hval⟩ := fVal_fMul_fTwo hn h0
  have hlt : fVal r < (2 ^ 23 * 2 ^ 254 : ℕ) := by
    have := isFinite_iff_fMag_lt.mp hr
    unfold fVal
    split <;> omega
  have hrat : 2 * fRat h < fRat r ↔ 2 * fVal h < fVal r := by
    rw [fRat, fRat, ← mul_div_assoc, div_lt_div_iff_of_pos_right (by positivity)]
    exact_mod_cast Iff.rfl
  rw [hrat, fGt, fLt, hN, isNaN_eq_false_of_isFinite hr, hval]
  simp only [Bool.not_false, Bool.true_and, decide_eq_true_iff, min_lt_iff, hlt.not_gt, or_false]

/-- CONFIG's acceptance test compares exact real numbers (R9). -/
theorem rateAccepted_iff {p : Params} {r : Word} (h : fLe fZero p.rateMaxHz = true) :
    rateAccepted p r = true ↔
      isFinite r = true ∧ 2 * fRat p.rateMaxHz < fRat r ∧ 1 ≤ fRat r ∧ capacityOf p r ≤ p.bufWords := by
  have hone : isNaN fOne = false := by decide
  rw [rateAccepted, Bool.and_eq_true, Bool.and_eq_true, Bool.and_eq_true, decide_eq_true_iff, and_assoc, and_assoc]
  refine and_congr_right fun hr => ?_
  rw [fGt_fMul_fTwo_iff h hr, fGe, fLe_iff, fRat_fOne]
  simp [hone, isNaN_eq_false_of_isFinite hr]

theorem exec_config (r : Word) (s : State) : exec (.config r) s = execConfig r s := rfl

/-- CONFIG outside a block is decided by its rate (R272). -/
theorem execConfig_of_closed {s : State} (r : Word) (h : s.blockRemain = 0#16) :
    execConfig r s = if rateAccepted s.params r then .next (s.configured r) else .next (s.fail .configFail 0) := by
  have hblk : s.blk = false := by simp [State.blk, h]
  rw [execConfig, hblk, if_neg Bool.false_ne_true]

theorem fail_configFail (s : State) :
    s.fail .configFail 0 = { s with err := s.err ||| 0x20#7, lastErr := 6#4 } := by
  simp [State.fail, State.emit, State.raise, setErrBit, ErrCode.code]

/-- Settles O17: the acceptance test is exact, and CONFIG follows it. -/
theorem configAcceptsExactlyLegalRates : Obligations.ConfigAcceptsExactlyLegalRates := by
  intro s r hmax hclosed
  rw [← rateAccepted_iff hmax, exec_config, execConfig_of_closed r hclosed, ← fail_configFail]
  exact ⟨fun hacc => if_pos hacc, fun hrej => if_neg hrej⟩

/-! ### The constants of CONFIG (R8) -/

theorem ceilDiv_cast (n : Nat) {d : Nat} (hd : 0 < d) : (ceilDiv n d : ℤ) = ⌈(n : ℚ) / d⌉ := by
  rw [← Int.natCast_ceil_eq_ceil (by positivity), Nat.cast_inj, ceilDiv, ← Nat.ceilDiv_eq_add_pred_div]
  refine eq_of_forall_ge_iff fun k => ?_
  rw [ceilDiv_le_iff_le_mul hd, Nat.ceil_le, div_le_iff₀ (by positivity), mul_comm]
  exact_mod_cast Iff.rfl

/-- The nearest integer to `n / d`, halves upward, in one integer division. -/
theorem floor_add_half (n : Nat) {d : Nat} (hd : 0 < d) :
    ((2 * n + d) / (2 * d) : ℕ) = ⌊(n : ℚ) / d + 1 / 2⌋ := by
  have hsum : (n : ℚ) / d + 1 / 2 = ((2 * n + d : ℕ) : ℚ) / ((2 * d : ℕ) : ℚ) := by
    push_cast
    field_simp
  rw [hsum, Rat.floor_natCast_div_natCast]
  push_cast
  rfl

/-- A value of at least 0 is its magnitude. -/
theorem fRat_eq_fMag_div {w : Word} (h : 0 ≤ fRat w) : fRat w = (fMag w : ℚ) / 2 ^ 149 := by
  have habs := abs_fRat w
  rw [abs_of_nonneg (by exact_mod_cast h)] at habs
  exact Rat.cast_injective (α := ℝ) (by simpa using habs)

theorem ratioPos_iff {q : Ratio} : ratioPos q = true ↔ 0 < q.num ∧ 0 < q.den := by simp [ratioPos]

theorem ratioPos_of_paramsOk {p : Params} (h : paramsOk p = true) :
    ratioPos p.maxDelayS = true ∧ ratioPos p.fadeMs = true ∧ ratioPos p.limAttMs = true ∧
      ratioPos p.limRelMs = true := by
  simp only [paramsOk, Bool.and_eq_true] at h
  tauto

theorem depthMaxMs_of_paramsOk {p : Params} (h : paramsOk p = true) : 0 ≤ fRat p.depthMaxMs := by
  have hle : fLe fZero p.depthMaxMs = true := by
    simp only [paramsOk, Bool.and_eq_true] at h
    tauto
  exact fRat_fZero ▸ (fLe_iff.mp hle).2.2

theorem modMarginOf_eq_ceil {p : Params} {r : Word} (hd : 0 ≤ fRat p.depthMaxMs) (hr : 0 ≤ fRat r) :
    (modMarginOf p r : ℤ) = ⌈fRat p.depthMaxMs * fRat r / 1000⌉ + 2 := by
  rw [modMarginOf, Nat.cast_add, ceilDiv_cast _ (by positivity), fRat_eq_fMag_div hd, fRat_eq_fMag_div hr,
    div_mul_div_comm, ← pow_add, div_div]
  simp only [Nat.cast_mul, Nat.cast_pow, Nat.cast_ofNat, Nat.reduceAdd]

theorem capacityOf_eq_ceil {p : Params} {r : Word} (hd : 0 < p.maxDelayS.den) (hr : 0 ≤ fRat r) :
    (capacityOf p r : ℤ) = ⌈ratioRat p.maxDelayS * fRat r⌉ + modMarginOf p r := by
  rw [capacityOf, Nat.cast_add, ceilDiv_cast _ (by positivity), ratioRat, fRat_eq_fMag_div hr]
  congr 2
  push_cast
  ring

theorem fadeLenOf_eq_floor {p : Params} {r : Word} (hd : 0 < p.fadeMs.den) (hr : 0 ≤ fRat r) :
    (fadeLenOf p r : ℤ) = max 1 ⌊ratioRat p.fadeMs * fRat r / 1000 + 1 / 2⌋ := by
  rw [fadeLenOf, Nat.cast_max, floor_add_half _ (by positivity), ratioRat, fRat_eq_fMag_div hr]
  congr 3
  push_cast
  ring

/-- The limiter coefficient of a time rounds the real quotient, whatever fraction writes it (R13, R236). -/
theorem limiterCoef_eq {ms : Ratio} {r : Word} {n d : Nat} (hms : ratioPos ms = true) (hr : 0 < fRat r) (hd : 0 < d)
    (h : (n : ℚ) / d = 1000 / (ratioRat ms * fRat r)) : limiterCoef ms r = fPow fHundredth (fOfRatio n d) := by
  obtain ⟨hnum, hden⟩ := ratioPos_iff.mp hms
  have hmag : 0 < fMag r := by
    rw [fRat_eq_fMag_div hr.le] at hr
    rcases Nat.eq_zero_or_pos (fMag r) with h0 | hpos
    · simp [h0] at hr
    · exact hpos
  have hcross : 1000 * (ms.den * 2 ^ 149) * d = n * (ms.num * fMag r) := by
    rw [ratioRat, fRat_eq_fMag_div hr.le] at h
    field_simp at h
    have hcast : n * ms.num * fMag r = d * 1000 * ms.den * 2 ^ 149 := by exact_mod_cast h
    rw [← mul_assoc n, hcast]
    ring
  have hround : roundMag (1000 * (ms.den * 2 ^ 149) * 2 ^ 149) (ms.num * fMag r) = roundMag (n * 2 ^ 149) d :=
    roundMag_congr (Nat.mul_pos hnum hmag) hd (by rw [mul_right_comm, hcross, mul_right_comm])
  rw [limiterCoef, fOfRatio, fOfRatio, hround]

/-- Settles O19: each constant is its own rule of R8. -/
theorem integerConstantsAreExact : Obligations.IntegerConstantsAreExact := by
  intro p r hp _ hr
  have hpos : 0 < fRat r := zero_lt_one.trans_le hr
  obtain ⟨hdelay, hfade, hatt, hrel⟩ := ratioPos_of_paramsOk hp
  refine ⟨modMarginOf_eq_ceil (depthMaxMs_of_paramsOk hp) hpos.le,
    capacityOf_eq_ceil (ratioPos_iff.mp hdelay).2 hpos.le, fadeLenOf_eq_floor (ratioPos_iff.mp hfade).2 hpos.le,
    fun n d hd h => limiterCoef_eq hatt hpos hd h, fun n d hd h => limiterCoef_eq hrel hpos hd h, rfl, rfl, rfl, rfl⟩

end Sys2Proof.Machine
end

section

namespace Sys2Proof.Machine

/-! ### What a command and a step can do (48_commands.md R270 to R281) -/

/-- `Effect s i t`: the command `i` takes `s` to `t`, with the conditions under which it does so. One constructor for
each way a command ends. -/
inductive Effect (s : State) : Instr → State → Prop where
  /-- NOP. -/
  | idle : Effect s .nop s
  /-- A command suppressed with an error; the port ends a malformed word in the same way (R270, R280). -/
  | suppressed (i : Instr) (e : ErrCode) (results : Nat) : Effect s i (s.fail e results)
  | written (idx : Nat) (k : Fin 26) (v : Word) (hidx : pendIndex idx = some k) :
      Effect s (.wparam idx v) (s.writePend k v)
  | answered (idx : Nat) (v : Word) (hreg : s.readReg idx = some v) : Effect s (.rparam idx) (s.emit [v])
  | cleared : Effect s .clrstat { s with err := 0#7, lastErr := 0#4 }
  | opened (n : Nat) (hblk : s.blk = false) (hcfg : s.cfg = true) (hact : s.act = true)
      (hnan : bankHasNaN s.pend = false) :
      Effect s (.process n) (s.blockOpened n)
  /-- PROCESS that records PARAM_NAN after its effects. -/
  | openedNaN (n : Nat) (hblk : s.blk = false) (hcfg : s.cfg = true) (hact : s.act = true)
      (hnan : bankHasNaN s.pend = true) :
      Effect s (.process n) ((s.blockOpened n).raise .paramNan)
  | sampled (x0 x1 : Word) (hblk : s.blk = true) : Effect s (.sample x0 x1) (s.sampled x0 x1)
  | configured (rate : Word) (hblk : s.blk = false) (hrate : rateAccepted s.params rate = true) :
      Effect s (.config rate) (s.configured rate)
  | activated (hblk : s.blk = false) (hcfg : s.cfg = true) : Effect s .activate s.activated
  | tornDown (hblk : s.blk = false) : Effect s .teardown s.tornDown

theorem effect_of_execWparam {idx : Nat} {v : Word} {s t : State} (h : execWparam idx v s = .next t) :
    Effect s (.wparam idx v) t := by
  unfold execWparam at h
  split at h <;> cases h
  · next hidx => exact .written idx _ v hidx
  · exact .suppressed _ _ _

theorem effect_of_execRparam {idx : Nat} {s t : State} (h : execRparam idx s = .next t) :
    Effect s (.rparam idx) t := by
  unfold execRparam at h
  split at h <;> cases h
  · next hreg => exact .answered idx _ hreg
  · exact .suppressed _ _ _

theorem effect_of_execProcess {n : Nat} {s t : State} (h : execProcess n s = .next t) : Effect s (.process n) t := by
  unfold execProcess at h
  split_ifs at h with hblk hcfg hact hnan <;> cases h
  · exact .suppressed _ _ _
  · exact .suppressed _ _ _
  · exact .suppressed _ _ _
  · exact .openedNaN n (by simpa using hblk) (by simpa using hcfg) (by simpa using hact) hnan
  · exact .opened n (by simpa using hblk) (by simpa using hcfg) (by simpa using hact) (by simpa using hnan)

theorem effect_of_execSample {x0 x1 : Word} {s t : State} (h : execSample x0 x1 s = .next t) :
    Effect s (.sample x0 x1) t := by
  unfold execSample at h
  split_ifs at h with hblk <;> cases h
  · exact .sampled x0 x1 hblk
  · exact .suppressed _ _ _

theorem effect_of_execConfig {rate : Word} {s t : State} (h : execConfig rate s = .next t) :
    Effect s (.config rate) t := by
  unfold execConfig at h
  split_ifs at h with hblk hrate <;> cases h
  · exact .suppressed _ _ _
  · exact .configured rate (by simpa using hblk) hrate
  · exact .suppressed _ _ _

theorem effect_of_execActivate {s t : State} (h : execActivate s = .next t) : Effect s .activate t := by
  unfold execActivate at h
  split_ifs at h with hblk hcfg <;> cases h
  · exact .suppressed _ _ _
  · exact .activated (by simpa using hblk) hcfg
  · exact .suppressed _ _ _

theorem effect_of_execTeardown {s t : State} (h : execTeardown s = .next t) : Effect s .teardown t := by
  unfold execTeardown at h
  split_ifs at h with hblk <;> cases h
  · exact .suppressed _ _ _
  · exact .tornDown (by simpa using hblk)

/-- `Effect` says everything that a command can do. -/
theorem effect_of_exec {i : Instr} {s t : State} (h : exec i s = .next t) : Effect s i t := by
  cases i with
  | nop => cases h; exact .idle
  | config rate => exact effect_of_execConfig h
  | activate => exact effect_of_execActivate h
  | wparam idx v => exact effect_of_execWparam h
  | rparam idx => exact effect_of_execRparam h
  | process n => exact effect_of_execProcess h
  | sample x0 x1 => exact effect_of_execSample h
  | teardown => exact effect_of_execTeardown h
  | clrstat => cases h; exact .cleared

/-- Everything a step can do: wait, take the words of a malformed command, or run a command (R270, R280). -/
theorem step_cases {s t : State} (h : step s = .next t) :
    t = s ∨ (∃ ws results, t = (s.withIn ws).fail .illegalCmd results) ∨ ∃ ws i, Effect (s.withIn ws) i t := by
  unfold step State.serve at h
  split at h
  · cases h; exact .inl rfl
  · cases h; exact .inr (.inl ⟨_, _, rfl⟩)
  · cases h; exact .inr (.inl ⟨_, _, rfl⟩)
  · exact .inr (.inr ⟨_, _, effect_of_exec h⟩)

/-- A property that the port, a suppressed command and every command keep is kept by every step. -/
theorem step_preserves {P : State → Prop} (hport : ∀ s ws, P s → P (s.withIn ws))
    (hcmd : ∀ s t i, P s → Effect s i t → P t) {s t : State} (hs : P s) (h : step s = .next t) : P t := by
  rcases step_cases h with rfl | ⟨ws, results, rfl⟩ | ⟨ws, i, heff⟩
  · exact hs
  · exact hcmd _ _ .nop (hport s ws hs) (.suppressed _ _ _)
  · exact hcmd _ _ i (hport s ws hs) heff

end Sys2Proof.Machine
end

section

namespace Sys2Proof.Machine

/-! ### The index and counter ranges of a sample step (10_state.md R54) -/

/-- The index and counter ranges of R54 for the constants `c`. -/
structure Engine.InRange (c : Constants) (e : Engine) : Prop where
  writeIndex : e.w < c.cap
  fadePos : e.fadePos ≤ c.fadeLen
  fadeInPos : e.fsm = .fadeIn → e.fadePos < c.fadeLen
  fillCnt : e.fillCnt ≤ c.cap

/-- No filter counts above the three warm-up calls of R132. -/
def Engine.WarmUp (e : Engine) : Prop := ∀ t ch, ((e.filt.get t).get ch).fill ≤ 3

/-- No byte at or above the addresses of `cap` words is listed. -/
def Memory.Within (cap : Nat) (m : Memory) : Prop := ∀ ch a, 4 * cap ≤ a → cellAt (m.cells.get ch) a = none

theorem Engine.inRange_reset {c : Constants} (hcap : 0 < c.cap) : Engine.reset.InRange c :=
  ⟨hcap, Nat.zero_le _, (nomatch ·), Nat.zero_le _⟩

theorem Engine.warmUp_reset : Engine.reset.WarmUp := by
  intro t ch
  cases t <;> cases ch <;> exact Nat.zero_le 3

/-- Each action of the state machine keeps the ranges (R174 to R178). -/
theorem Engine.InRange.fsmEngine {p : Params} {c : Constants} {sn : Snapshot} {e : Engine} (h : e.InRange c)
    (hlen : 1 ≤ c.fadeLen) : (fsmEngine p c sn e).InRange c := by
  obtain ⟨hw, hpos, hin, hfill⟩ := h
  have hfadeOut : (fadeOutAction { e with fsm := .fadeOut }).InRange c := by
    refine ⟨hw, (Nat.sub_le _ _).trans hpos, fun hf => ?_, hfill⟩
    simp only [fadeOutAction] at hf
    split at hf <;> cases hf
  rcases fsmEngine_cases p c sn e with
    ⟨-, he⟩ | ⟨-, -, -, he⟩ | ⟨-, -, he⟩ | ⟨-, -, he⟩ | ⟨-, -, he⟩ | ⟨hf, -, he⟩ | ⟨hf, -, he⟩ <;> rw [he]
  · exact hfadeOut
  · exact hfadeOut
  · exact ⟨hw, hpos, hin, hfill⟩
  · exact ⟨Nat.zero_lt_of_lt hw, hpos, (nomatch ·), Nat.zero_le _⟩
  · exact ⟨hw, Nat.zero_le _, fun _ => hlen, hfill⟩
  · have hlt := hin hf
    refine ⟨hw, hlt, fun hf' => ?_, hfill⟩
    simp only [fadeInAction] at hf' ⊢
    split at hf'
    · cases hf'
    · omega
  · exact ⟨hw, le_rfl, fun hf' => (by rw [cycleAction, hf] at hf'; cases hf'), hfill⟩

/-- The end of a sample step keeps the ranges (R155). -/
theorem Engine.InRange.advance {c : Constants} {e : Engine} (h : e.InRange c) : (advance c e).InRange c :=
  ⟨Nat.mod_lt _ (Nat.zero_lt_of_lt h.writeIndex), h.fadePos, h.fadeInPos, Nat.min_le_right _ _⟩

/-- A sample step keeps the index and counter ranges (R54). -/
theorem Engine.InRange.sampleStep {p : Params} {c : Constants} {sn : Snapshot} {e : Engine} {m : Memory} {x : Pair Word}
    (h : e.InRange c) (hlen : 1 ≤ c.fadeLen) : (sampleStep p c sn e m x).eng.InRange c := by
  obtain ⟨hw, hpos, hin, hfill⟩ := h
  have hcontrol : (stepControl p c sn e).InRange c :=
    Engine.InRange.fsmEngine (e := smoothEngine p c e) ⟨hw, hpos, hin, hfill⟩ hlen
  obtain ⟨hw, hpos, hin, hfill⟩ := hcontrol
  unfold Sys2Proof.Machine.sampleStep
  rw [stepAudio_eng_eq, lfoEngine_eq]
  exact Engine.InRange.advance ⟨hw, hpos, hin, hfill⟩

theorem biquadNext_fill_le {F : Biquad} (x y : Word) (h : F.fill ≤ 3) : (biquadNext F x y).fill ≤ 3 := by
  simp only [biquadNext]
  split <;> omega

theorem Engine.WarmUp.siteNext {e : Engine} (h : e.WarmUp) (c : Constants) (sn : Snapshot) (s : Site) (ch : Chan)
    (x : Word) : (siteNext c sn s ch e x).WarmUp := by
  unfold Sys2Proof.Machine.siteNext
  split
  · intro t d
    simp only [Engine.setFilt, Sites.get_set]
    split
    · simp only [Pair.get_set]
      split
      · exact biquadNext_fill_le _ _ (h s ch)
      · exact h s d
    · exact h t d
  · exact h

theorem Engine.WarmUp.chain {e : Engine} (h : e.WarmUp) (c : Constants) (sn : Snapshot) (s1 s2 : Site) (ch : Chan)
    (x : Word) : (chain c sn s1 s2 ch e x).1.WarmUp :=
  (h.siteNext c sn s1 ch x).siteNext c sn s2 ch _

theorem Engine.WarmUp.tapStage {e : Engine} (h : e.WarmUp) (c : Constants) (sn : Snapshot) (fade : Word) (m : Memory)
    (ch : Chan) (pos : Word) : (tapStage c sn fade m ch pos e).1.WarmUp := by
  have henv : Engine.WarmUp { e with env := e.env.set ch (limiterEnv c (e.env.get ch) (readInterp c m ch pos)) } := h
  exact henv.chain c sn .fhc .flc ch _

/-- A sample step keeps the warm-up counters (R132, R138). -/
theorem Engine.WarmUp.sampleStep {e : Engine} (h : e.WarmUp) (p : Params) (c : Constants) (sn : Snapshot) (m : Memory)
    (x : Pair Word) : (sampleStep p c sn e m x).eng.WarmUp := by
  have hlfo : (lfoEngine c sn (stepControl p c sn e)).filt = e.filt := by
    rw [lfoEngine_eq]
    exact (fsmEngine_frame p c sn (smoothEngine p c e)).2.2.2.2.2
  have hstart : (lfoEngine c sn (stepControl p c sn e)).WarmUp := by
    unfold Engine.WarmUp
    rw [hlfo]
    exact h
  exact Engine.WarmUp.chain (Engine.WarmUp.chain (Engine.WarmUp.tapStage (Engine.WarmUp.tapStage hstart
    c sn _ _ .c0 _) c sn _ _ .c1 _) c sn .ihc .ilc .c0 _) c sn .ihc .ilc .c1 _

theorem Memory.Within.writeByte {cap : Nat} {m : Memory} (h : m.Within cap) (ch : Chan) {a : Nat} (v : Byte)
    (ha : a < 4 * cap) : (m.writeByte ch a v).Within cap := by
  intro d b hb
  simp only [Memory.writeByte, Pair.get_set]
  split
  · next hd => rw [cellAt_putCell_other _ _ _ (by omega), ← hd, h d b hb]
  · exact h d b hb

theorem Memory.Within.bufWrite {c : Constants} {m : Memory} (h : m.Within c.cap) (hcap : 0 < c.cap) (ch : Chan)
    (i : Nat) (v : Word) : (bufWrite c m ch i v).Within c.cap := by
  have hi : i % c.cap < c.cap := Nat.mod_lt _ hcap
  exact (((h.writeByte ch _ (by omega)).writeByte ch _ (by omega)).writeByte ch _ (by omega)).writeByte ch _ (by omega)

theorem Memory.within_cleared (cap : Nat) : Memory.cleared.Within cap := by
  intro ch a _
  cases ch <;> rfl

/-- The buffers after the state machine are those before it or cleared ones (R174). -/
theorem fsmMemory_cases (p : Params) (sn : Snapshot) (e : Engine) (m : Memory) :
    fsmMemory p sn e m = m ∨ fsmMemory p sn e m = Memory.cleared := by
  unfold fsmMemory commitMemory
  split
  · cases p.clearPolicy
    · exact .inr rfl
    · exact .inl rfl
  · exact .inl rfl

/-- A sample step writes inside the capacity and leaves no word of the buffers unspecified (R53, R150). -/
theorem sampleStep_mem {p : Params} {c : Constants} {sn : Snapshot} {e : Engine} {m : Memory} {x : Pair Word}
    (hcap : 0 < c.cap) (hzero : m.fill = .zero) (hin : m.Within c.cap) :
    (sampleStep p c sn e m x).mem.fill = .zero ∧ (sampleStep p c sn e m x).mem.Within c.cap := by
  have hfsm : (fsmMemory p sn (smoothEngine p c e) m).fill = .zero ∧
      (fsmMemory p sn (smoothEngine p c e) m).Within c.cap := by
    rcases fsmMemory_cases p sn (smoothEngine p c e) m with h | h <;> rw [h]
    · exact ⟨hzero, hin⟩
    · exact ⟨rfl, Memory.within_cleared _⟩
  exact ⟨hfsm.1, (hfsm.2.bufWrite hcap .c0 _ _).bufWrite hcap .c1 _ _⟩

/-! ### The machine invariant (R53, R54, R281) -/

/-- The capacity has room for the modulation margin's two words at least (R8). -/
theorem two_le_cap_constantsOf (p : Params) (r : Word) : 2 ≤ (constantsOf p r).cap := by
  simp only [constantsOf, capacityOf, modMarginOf]
  omega

theorem one_le_fadeLen_constantsOf (p : Params) (r : Word) : 1 ≤ (constantsOf p r).fadeLen := Nat.le_max_left _ _

/-- The invariant reads the buffers, the block counter, the two mode flags, the engine and the constants, nothing
else. -/
theorem State.Inv.congr {s t : State} (h : s.Inv) (hmem : t.mem = s.mem) (hblk : t.blockRemain = s.blockRemain)
    (hact : t.act = s.act) (hcfg : t.cfg = s.cfg) (heng : t.eng = s.eng) (hconst : t.const = s.const) : t.Inv := by
  have hblk' : t.blk = s.blk := by simp only [State.blk, hblk]
  obtain ⟨h1, h2, h3, h4, h5, h6, h7, h8, h9, h10, h11, h12, h13, h14⟩ := h
  constructor <;> simp only [hmem, hblk', hact, hcfg, heng, hconst] <;> assumption

theorem State.Inv.inRange {s : State} (h : s.Inv) (hcfg : s.cfg = true) : s.eng.InRange s.const :=
  ⟨h.writeIndex hcfg, h.fadePos hcfg, h.fadeInPos hcfg, h.fillCnt hcfg⟩

/-- A configured state with cleared buffers, the engine at its reset values and no block open meets the invariant:
what CONFIG and ACTIVATE leave (R52). -/
theorem State.inv_of_fresh {t : State} (hcfg : t.cfg = true) (hblk : t.blk = false) (hmem : t.mem = Memory.cleared)
    (heng : t.eng = Engine.reset) (hcap : 2 ≤ t.const.cap) (hlen : 1 ≤ t.const.fadeLen) : t.Inv := by
  have hrange : t.eng.InRange t.const := heng ▸ Engine.inRange_reset (by omega)
  exact
    { memWf := hmem ▸ Memory.wf_cleared
      blkAct := fun h => by rw [hblk] at h; cases h
      actCfg := fun _ => hcfg
      idle := fun _ => heng
      unconfigured := fun h => by rw [hcfg] at h; cases h
      memZero := fun _ => hmem ▸ rfl
      cap := fun _ => hcap
      fadeLen := fun _ => hlen
      writeIndex := fun _ => hrange.writeIndex
      fadePos := fun _ => hrange.fadePos
      fadeInPos := fun _ => hrange.fadeInPos
      fillCnt := fun _ => hrange.fillCnt
      warmUp := heng ▸ Engine.warmUp_reset
      inBuffer := fun _ => hmem ▸ Memory.within_cleared _ }

/-- An unconfigured state with the engine and the constants at their reset values meets the invariant: power-on, and
what TEARDOWN leaves (R52). -/
theorem State.inv_of_unconfigured {t : State} (hcfg : t.cfg = false) (hact : t.act = false) (hblk : t.blk = false)
    (hmem : t.mem.wf = true) (heng : t.eng = Engine.reset) (hconst : t.const = Constants.zero) : t.Inv := by
  have hno {P : Prop} (h : t.cfg = true) : P := by rw [hcfg] at h; cases h
  exact
    { memWf := hmem
      blkAct := fun h => by rw [hblk] at h; cases h
      actCfg := fun h => by rw [hact] at h; cases h
      idle := fun _ => heng
      unconfigured := fun _ => hconst
      memZero := hno
      cap := hno
      fadeLen := hno
      writeIndex := hno
      fadePos := hno
      fadeInPos := hno
      fillCnt := hno
      warmUp := heng ▸ Engine.warmUp_reset
      inBuffer := hno }

/-- Opening a block in an active state keeps the invariant: of what it reads PROCESS changes the targets and the block
counter alone (R276). -/
theorem State.Inv.blockOpened {s : State} (h : s.Inv) (hact : s.act = true) (n : Nat) : (s.blockOpened n).Inv :=
  { h with
    blkAct := fun _ => hact
    idle := fun hidle => by rw [State.blockOpened_act, hact] at hidle; cases hidle }

/-- A sample keeps the invariant (R277). -/
theorem State.Inv.sampled {s : State} (h : s.Inv) (hblk : s.blk = true) (x0 x1 : Word) : (s.sampled x0 x1).Inv := by
  have hact : s.act = true := h.blkAct hblk
  have hcfg : s.cfg = true := h.actCfg hact
  have hrange : (s.sampled x0 x1).eng.InRange s.const := (h.inRange hcfg).sampleStep (h.fadeLen hcfg)
  have hcap : 0 < s.const.cap := by have := h.cap hcfg; omega
  obtain ⟨hzero, hin⟩ := sampleStep_mem (p := s.params) (sn := s.snap) (e := s.eng) (x := ⟨x0, x1⟩) hcap
    (h.memZero hcfg) (h.inBuffer hcfg)
  exact
    { memWf := wf_sampleStep _ h.memWf
      blkAct := fun _ => hact
      actCfg := fun _ => hcfg
      idle := fun hidle => by rw [State.sampled_act, hact] at hidle; cases hidle
      unconfigured := fun hno => by rw [State.sampled_cfg, hcfg] at hno; cases hno
      memZero := fun _ => hzero
      cap := h.cap
      fadeLen := h.fadeLen
      writeIndex := fun _ => hrange.writeIndex
      fadePos := fun _ => hrange.fadePos
      fadeInPos := fun _ => hrange.fadeInPos
      fillCnt := fun _ => hrange.fillCnt
      warmUp := Engine.WarmUp.sampleStep h.warmUp _ _ _ _ _
      inBuffer := fun _ => hin }

/-- Every command keeps the machine invariant. -/
theorem State.Inv.effect {s t : State} {i : Instr} (h : s.Inv) (heff : Effect s i t) : t.Inv := by
  cases heff with
  | idle => exact h
  | suppressed => exact h.congr rfl rfl rfl rfl rfl rfl
  | written => exact h.congr rfl rfl rfl rfl rfl rfl
  | answered => exact h.congr rfl rfl rfl rfl rfl rfl
  | cleared => exact h.congr rfl rfl rfl rfl rfl rfl
  | opened n _ _ hact => exact h.blockOpened hact n
  | openedNaN n _ _ hact => exact (h.blockOpened hact n).congr rfl rfl rfl rfl rfl rfl
  | sampled x0 x1 hblk => exact h.sampled hblk x0 x1
  | configured =>
    exact State.inv_of_fresh rfl rfl rfl rfl (two_le_cap_constantsOf _ _) (one_le_fadeLen_constantsOf _ _)
  | activated hblk hcfg => exact State.inv_of_fresh hcfg hblk rfl rfl (h.cap hcfg) (h.fadeLen hcfg)
  | tornDown => exact State.inv_of_unconfigured rfl rfl rfl (Memory.wf_unspecified _) rfl rfl

/-- Settles O39: each command keeps the invariant, and the port's words are no part of it. -/
theorem stepKeepsMachineInvariant : Obligations.StepKeepsMachineInvariant := fun _ _ hs hstep =>
  step_preserves (fun _ _ h => h.congr rfl rfl rfl rfl rfl rfl) (fun _ _ _ h heff => h.effect heff) hs hstep

end Sys2Proof.Machine
end

section

namespace Sys2Proof.Machine

/-! ### The STATUS word (10_state.md R39) -/

/-- A run of STATUS bits is the field whose bits they are. -/
theorem State.extractLsb'_status {s : State} {lo n : Nat} {f : BitVec n}
    (h : ∀ k < n, s.status.getLsbD (lo + k) = f.getLsbD k) : s.status.extractLsb' lo n = f := by
  ext k hk
  rw [BitVec.getElem_extractLsb', h k hk, BitVec.getLsbD_eq_getElem hk]

/-- The single bits of the STATUS word, two of the three reserved ones among them (R39). -/
theorem State.status_bits (s : State) :
    s.status.getLsbD 0 = s.cfg ∧ s.status.getLsbD 1 = s.act ∧ s.status.getLsbD 2 = s.blk ∧
      s.status.getLsbD 3 = false ∧ s.status.getLsbD 7 = false ∧ s.status.getLsbD 15 = false := by
  refine ⟨?_, ?_, ?_, ?_, ?_, ?_⟩ <;> simp only [State.status, BitVec.getLsbD_append] <;> simp

/-- The fields of the STATUS word that are wider than a bit (R39). -/
theorem State.status_fields (s : State) :
    s.status.extractLsb' 4 3 = s.eng.fsm.code ∧ s.status.extractLsb' 8 7 = s.err ∧
      s.status.extractLsb' 16 4 = s.lastErr ∧ s.status.extractLsb' 20 12 = 0#12 := by
  refine ⟨?_, ?_, ?_, ?_⟩ <;> refine State.extractLsb'_status fun k hk => ?_ <;>
    simp (disch := omega) only [State.status, BitVec.getLsbD_append, if_neg, if_pos] <;> congr 1 <;> omega

/-- Settles O12: each field of R39 lies at its own offset of the composed word. -/
theorem statusWordLayout : Obligations.StatusWordLayout := by
  intro s
  obtain ⟨hcfg, hact, hblk, h3, h7, h15⟩ := s.status_bits
  obtain ⟨hfsm, herr, hlast, hrsv⟩ := s.status_fields
  refine ⟨hcfg, hact, ?_, h3, ?_, h7, herr, h15, hlast, hrsv⟩
  · rw [hblk, State.blk_iff, Nat.pos_iff_ne_zero]
    exact BitVec.toNat_ne_iff_ne.symm
  · rw [hfsm]
    cases s.eng.fsm <;> rfl

/-! ### Who writes the parameter banks, the snapshot and the constants (R33, R34, R41, R42, R44) -/

/-- Settles O24: of the commands that write a bank, the snapshot or TEMPO_OUT each is one that the statement names. -/
theorem parameterBanksHaveOneWriter : Obligations.ParameterBanksHaveOneWriter := by
  intro i s t h
  cases effect_of_exec h with
  | written idx k v => exact ⟨fun _ => .inl ⟨idx, v, rfl⟩, by simp, by simp⟩
  | opened n => exact ⟨by simp, fun _ => .inl ⟨n, rfl⟩, fun _ => .inl ⟨n, rfl⟩⟩
  | openedNaN n => exact ⟨by simp, fun _ => .inl ⟨n, rfl⟩, fun _ => .inl ⟨n, rfl⟩⟩
  | configured r =>
    have hr : ∃ r', Instr.config r = .config r' := ⟨r, rfl⟩
    exact ⟨fun _ => .inr hr, fun _ => .inr hr, fun _ => .inr (.inl hr)⟩
  | activated => exact ⟨by simp, by simp, fun _ => .inr (.inr (.inl rfl))⟩
  | tornDown => exact ⟨by simp, by simp, fun _ => .inr (.inr (.inr rfl))⟩
  | idle | suppressed | answered | cleared | sampled => simp

/-- Settles O25: CONFIG and TEARDOWN write the constants, and nothing writes the parameters. -/
theorem onlyConfigAndTeardownWriteConstants : Obligations.OnlyConfigAndTeardownWriteConstants := by
  intro i s t h
  cases effect_of_exec h with
  | configured r => exact ⟨rfl, .inr (.inl ⟨r, rfl, rfl⟩)⟩
  | tornDown => exact ⟨rfl, .inr (.inr ⟨rfl, rfl⟩)⟩
  | idle | suppressed | written | answered | cleared | opened | openedNaN | sampled | activated =>
    exact ⟨rfl, .inl rfl⟩

end Sys2Proof.Machine
end

section

namespace Sys2Proof.Machine

/-! ### How far rounding moves a value (R13, R14) -/

/-- The value of the pattern that `n / d` rounds to, in units of 2^-149. -/
def roundVal (n d : Nat) : Nat := magBits (roundMag n d)

/-- A value below the midpoint of `b` and `b + 1` rounds to `b` at most. -/
theorem roundMag_le_of_two_mul_lt {n d b : Nat} (hd : 0 < d) (h : 2 * n < (magBits b + magBits (b + 1)) * d) :
    roundMag n d ≤ b := by
  have hlo := (roundDown_brackets n hd).1
  have hdown : roundDown n d < b + 1 := by
    by_contra hge
    have hstep : magBits b * d < magBits (b + 1) * d :=
      Nat.mul_lt_mul_of_pos_right (magBits_strictMono b.lt_succ_self) hd
    have hmono : magBits (b + 1) * d ≤ magBits (roundDown n d) * d :=
      Nat.mul_le_mul_right d (magBits_strictMono.monotone (not_lt.mp hge))
    rw [add_mul] at h
    omega
  rcases (Nat.lt_succ_iff.mp hdown).lt_or_eq with hlt | heq
  · rcases roundMag_eq_or n d with hr | hr <;> omega
  · have hr : ¬ RoundsUp n d (roundDown n d) := by
      rw [heq, RoundsUp]
      omega
    rw [roundMag_of_not_roundsUp hr]
    omega

/-- Rounding does not pass a pattern from below. -/
theorem roundMag_le_of_le {n d b : Nat} (hd : 0 < d) (h : n ≤ magBits b * d) : roundMag n d ≤ b := by
  refine roundMag_le_of_two_mul_lt hd ?_
  have hstep : magBits b * d < magBits (b + 1) * d :=
    Nat.mul_lt_mul_of_pos_right (magBits_strictMono b.lt_succ_self) hd
  rw [add_mul]
  omega

theorem roundVal_le {n d b : Nat} (hd : 0 < d) (h : n ≤ magBits b * d) : roundVal n d ≤ magBits b :=
  magBits_strictMono.monotone (roundMag_le_of_le hd h)

@[simp] theorem roundVal_zero (d : Nat) : roundVal 0 d = 0 := by
  have : roundMag 0 d = 0 := by simp [roundMag]
  rw [roundVal, this]
  rfl

/-- A finite rounding errs by half a unit of its scale at most. -/
theorem two_mul_roundDist_le {n d : Nat} (hd : 0 < d) (hfin : roundMag n d < 0x7F800000) :
    2 * roundDist n d (roundMag n d) ≤ 2 ^ roundScale n d * d := by
  obtain ⟨hlo, hhi⟩ := roundDown_brackets n hd
  have hdown := (roundMag_nearest hd hfin (roundDown n d)).1
  have hup := (roundMag_nearest hd hfin (roundDown n d + 1)).1
  rw [roundDist_of_le hlo] at hdown
  rw [roundDist_of_ge hhi.le] at hup
  have hgap : magBits (roundDown n d + 1) * d = magBits (roundDown n d) * d + 2 ^ roundScale n d * d := by
    rw [magBits_roundDown_succ, magBits_roundDown]
    ring
  zify at hgap
  linarith

theorem abs_roundVal_sub (n d : Nat) : |(roundVal n d : ℤ) * d - n| = roundDist n d (roundMag n d) := rfl

/-- The unit of the scale is a 2^23rd of the value at most, all but at the scale of the subnormals. -/
theorem two_pow_roundScale_mul_le (n : Nat) {d : Nat} (hd : 0 < d) :
    2 ^ 23 * (2 ^ roundScale n d * d) ≤ n + 2 ^ 23 * d := by
  rcases roundScale_eq_zero_or_le_significand n d with h0 | hsig
  · rw [h0]
    omega
  · calc
      2 ^ 23 * (2 ^ roundScale n d * d) ≤ significand n d * (2 ^ roundScale n d * d) := Nat.mul_le_mul_right _ hsig
      _ = magBits (roundDown n d) * d := by rw [magBits_roundDown, mul_assoc]
      _ ≤ n := (roundDown_brackets n hd).1
      _ ≤ n + 2 ^ 23 * d := Nat.le_add_right _ _

/-- A finite rounding errs by a 2^24th of the value or by half a unit of 2^-149. -/
theorem roundVal_error {n d : Nat} (hd : 0 < d) (hfin : roundMag n d < 0x7F800000) :
    2 ^ 24 * (roundVal n d * d) ≤ (2 ^ 24 + 1) * n + 2 ^ 23 * d ∧
      (2 ^ 24 - 1) * n ≤ 2 ^ 24 * (roundVal n d * d) + 2 ^ 23 * d := by
  have herr := two_mul_roundDist_le hd hfin
  have hunit := two_pow_roundScale_mul_le n hd
  rw [← abs_roundVal_sub] at herr
  zify at hunit
  obtain ⟨hlo, hhi⟩ := abs_le.mp (le_refl |(roundVal n d : ℤ) * d - n|)
  constructor <;> zify <;> push_cast <;> linarith

/-- Below `2^(24 + s)` the scale is `s` at most. -/
theorem roundScale_le {n d s : Nat} (hd : 0 < d) (h : n < 2 ^ (24 + s) * d) : roundScale n d ≤ s := by
  rcases Nat.eq_zero_or_pos (n / d) with h0 | hpos
  · simp [roundScale, h0]
  have hlog : Nat.log2 (n / d) < 24 + s := (Nat.log2_lt hpos.ne').mpr ((Nat.div_lt_iff_lt_mul hd).mpr h)
  unfold roundScale
  omega

/-- Below `2^(24 + s)` a finite rounding errs upward by half of `2^s` at most. -/
theorem two_mul_roundVal_le {n d s : Nat} (hd : 0 < d) (hfin : roundMag n d < 0x7F800000)
    (h : n < 2 ^ (24 + s) * d) : 2 * (roundVal n d * d) ≤ 2 * n + 2 ^ s * d := by
  have herr := two_mul_roundDist_le hd hfin
  have hunit : 2 ^ roundScale n d * d ≤ 2 ^ s * d :=
    Nat.mul_le_mul_right d (Nat.pow_le_pow_right two_pos (roundScale_le hd h))
  rw [← abs_roundVal_sub] at herr
  zify at hunit ⊢
  have hhi := le_abs_self ((roundVal n d : ℤ) * d - n)
  linarith

/-! ### The operations on values of at least 0 (R14) -/

/-- A value of at least 0 is its magnitude. -/
theorem fLe_fZero_iff {w : Word} : fLe fZero w = true ↔ isNaN w = false ∧ fVal w = fMag w := by
  have hzero : isNaN fZero = false ∧ fVal fZero = 0 := by decide
  simp only [fLe, hzero, Bool.and_eq_true, Bool.not_eq_true', Bool.not_false, true_and, decide_eq_true_iff]
  refine and_congr_right fun _ => ?_
  unfold fVal
  split <;> omega

theorem fLe_iff_fMag {a b : Word} (ha : fLe fZero a = true) (hb : fLe fZero b = true) :
    fLe a b = true ↔ fMag a ≤ fMag b := by
  obtain ⟨hna, hva⟩ := fLe_fZero_iff.mp ha
  obtain ⟨hnb, hvb⟩ := fLe_fZero_iff.mp hb
  simp [fLe, hna, hnb, hva, hvb]

theorem fLt_iff_fMag {a b : Word} (ha : fLe fZero a = true) (hb : fLe fZero b = true) :
    fLt a b = true ↔ fMag a < fMag b := by
  obtain ⟨hna, hva⟩ := fLe_fZero_iff.mp ha
  obtain ⟨hnb, hvb⟩ := fLe_fZero_iff.mp hb
  simp [fLt, hna, hnb, hva, hvb]

/-- A rounded pattern whose sign is set only at zero is a value of at least 0. -/
theorem fPack_roundMag_nonneg {neg : Bool} {n d : Nat} (h : neg = true → n = 0) :
    fLe fZero (fPack neg (roundMag n d)) = true ∧ fMag (fPack neg (roundMag n d)) = roundVal n d := by
  have hlt : roundMag n d < 2 ^ 31 := (roundMag_le n d).trans_lt (by omega)
  have hmag : fMag (fPack neg (roundMag n d)) = roundVal n d := by
    rw [fMag_eq_magBits, fBits_fPack hlt]
    rfl
  refine ⟨fLe_fZero_iff.mpr ⟨isNaN_fPack_roundMag _ _ _, ?_⟩, hmag⟩
  rw [hmag, fVal_fPack _ hlt]
  cases neg with
  | false => rfl
  | true =>
    obtain rfl := h rfl
    have hzero : magBits (roundMag 0 d) = 0 := roundVal_zero d
    simp [hzero]

/-- A negative pattern of at least 0 is a zero. -/
theorem fMag_eq_zero_of_fSign {w : Word} (h : fLe fZero w = true) (hs : fSign w = true) : fMag w = 0 := by
  have hval := (fLe_fZero_iff.mp h).2
  rw [fVal, if_pos hs] at hval
  omega

/-- The exact sum of two finite values, where it is at least 0, is what addition rounds. -/
theorem addNumbers_nonneg {a b : Word} {n : Nat} (ha : isFinite a = true) (hb : isFinite b = true)
    (h : fVal a + fVal b = n) :
    fLe fZero (addNumbers a b) = true ∧ fMag (addNumbers a b) = roundVal n 1 := by
  unfold addNumbers
  rw [isInf_eq_false_of_isFinite ha, isInf_eq_false_of_isFinite hb, if_neg Bool.false_ne_true,
    if_neg Bool.false_ne_true, h]
  split_ifs with hzero hneg
  · obtain rfl : n = 0 := by omega
    rw [roundVal_zero]
    decide
  · obtain rfl : n = 0 := by omega
    rw [roundVal_zero]
    decide
  · rw [Int.natAbs_natCast]
    exact fPack_roundMag_nonneg fun hneg => by simp at hneg; omega

theorem fAdd_nonneg {a b : Word} (ha : fLe fZero a = true) (hb : fLe fZero b = true) (hfa : isFinite a = true)
    (hfb : isFinite b = true) : fLe fZero (fAdd a b) = true ∧ fMag (fAdd a b) = roundVal (fMag a + fMag b) 1 := by
  obtain ⟨hna, hva⟩ := fLe_fZero_iff.mp ha
  obtain ⟨hnb, hvb⟩ := fLe_fZero_iff.mp hb
  have hadd : fAdd a b = addNumbers a b := by simp [fAdd, hna, hnb, isInf_eq_false_of_isFinite hfa]
  rw [hadd]
  exact addNumbers_nonneg hfa hfb (by rw [hva, hvb]; push_cast; rfl)

theorem fBits_fNeg (x : Word) : fBits (fNeg x) = fBits x := by
  simp only [fBits, fNeg, BitVec.toNat_xor, Nat.xor_mod_two_pow]
  simp

theorem fSign_fNeg (x : Word) : fSign (fNeg x) = !fSign x := by
  have hmsb : (0x80000000#32).msb = true := by decide
  rw [fSign, fSign, fNeg, BitVec.msb_xor, hmsb, Bool.xor_true]

theorem fVal_fNeg (x : Word) : fVal (fNeg x) = -fVal x := by
  rw [fVal, fVal, fSign_fNeg, fMag_eq_magBits, fMag_eq_magBits, fBits_fNeg]
  cases fSign x <;> simp

theorem fSub_nonneg {a b : Word} (ha : fLe fZero a = true) (hb : fLe fZero b = true) (hfa : isFinite a = true)
    (hfb : isFinite b = true) (h : fMag b ≤ fMag a) :
    fLe fZero (fSub a b) = true ∧ fMag (fSub a b) = roundVal (fMag a - fMag b) 1 := by
  obtain ⟨hna, hva⟩ := fLe_fZero_iff.mp ha
  obtain ⟨hnb, hvb⟩ := fLe_fZero_iff.mp hb
  have hsub : fSub a b = addNumbers a (fNeg b) := by simp [fSub, hna, hnb, isInf_eq_false_of_isFinite hfa]
  rw [hsub]
  refine addNumbers_nonneg hfa ?_ (by rw [fVal_fNeg, hva, hvb]; omega)
  rw [isFinite, fBits_fNeg]
  exact hfb

/-- Unequal signs of two values of at least 0 belong to a zero. -/
theorem fMag_eq_zero_of_fSign_ne {a b : Word} (ha : fLe fZero a = true) (hb : fLe fZero b = true)
    (h : (fSign a != fSign b) = true) : fMag a = 0 ∨ fMag b = 0 := by
  rcases hs : fSign a with _ | _
  · exact .inr (fMag_eq_zero_of_fSign hb (by simpa [hs] using h))
  · exact .inl (fMag_eq_zero_of_fSign ha hs)

theorem fMul_nonneg {a b : Word} (ha : fLe fZero a = true) (hb : fLe fZero b = true) (hfa : isFinite a = true)
    (hfb : isFinite b = true) :
    fLe fZero (fMul a b) = true ∧ fMag (fMul a b) = roundVal (fMag a * fMag b) (2 ^ 149) := by
  have hmul : fMul a b = fPack (fSign a != fSign b) (roundMag (fMag a * fMag b) (2 ^ 149)) := by
    simp [fMul, isNaN_eq_false_of_isFinite hfa, isNaN_eq_false_of_isFinite hfb, isInf_eq_false_of_isFinite hfa,
      isInf_eq_false_of_isFinite hfb]
  rw [hmul]
  refine fPack_roundMag_nonneg fun hs => ?_
  exact mul_eq_zero.mpr (fMag_eq_zero_of_fSign_ne ha hb hs)

theorem isZero_iff_fMag {w : Word} : isZero w = true ↔ fMag w = 0 := by
  have hzero : magBits 0 = 0 := rfl
  rw [fMag_eq_magBits, ← hzero, magBits_strictMono.injective.eq_iff, isZero, decide_eq_true_iff]

theorem fDiv_nonneg {a b : Word} (ha : fLe fZero a = true) (hb : fLe fZero b = true) (hfa : isFinite a = true)
    (hfb : isFinite b = true) (hpos : 0 < fMag b) :
    fLe fZero (fDiv a b) = true ∧ fMag (fDiv a b) = roundVal (fMag a * 2 ^ 149) (fMag b) := by
  have hz : isZero b = false := by
    rw [← Bool.not_eq_true, isZero_iff_fMag]
    exact hpos.ne'
  have hdiv : fDiv a b = fPack (fSign a != fSign b) (roundMag (fMag a * 2 ^ 149) (fMag b)) := by
    simp [fDiv, isNaN_eq_false_of_isFinite hfa, isNaN_eq_false_of_isFinite hfb, isInf_eq_false_of_isFinite hfa,
      isInf_eq_false_of_isFinite hfb, hz]
  rw [hdiv]
  refine fPack_roundMag_nonneg fun hs => ?_
  have hmag := (fMag_eq_zero_of_fSign_ne ha hb hs).resolve_right hpos.ne'
  rw [hmag, zero_mul]

end Sys2Proof.Machine
end

section

namespace Sys2Proof.Machine

/-! ### Clamps and the resolved delay (00_scope.md R15, 44_smoothing.md R207) -/

theorem isNaN_eq_false_of_fLe_left {a b : Word} (h : fLe a b = true) : isNaN a = false := (fLe_iff.mp h).1

theorem isNaN_eq_false_of_fLe_right {a b : Word} (h : fLe a b = true) : isNaN b = false := (fLe_iff.mp h).2.1

theorem fLe_trans {a b c : Word} (hab : fLe a b = true) (hbc : fLe b c = true) : fLe a c = true := by
  obtain ⟨hna, -, hab⟩ := fLe_iff.mp hab
  obtain ⟨-, hnc, hbc⟩ := fLe_iff.mp hbc
  exact fLe_iff.mpr ⟨hna, hnc, hab.trans hbc⟩

theorem fLe_of_fLt {a b : Word} (h : fLt a b = true) : fLe a b = true := by
  obtain ⟨hna, hnb, hlt⟩ := fLt_iff.mp h
  exact fLe_iff.mpr ⟨hna, hnb, hlt.le⟩

/-- Of two values that are no NaN one is at least the other (R15). -/
theorem fLe_of_fLt_eq_false {a b : Word} (ha : isNaN a = false) (hb : isNaN b = false) (h : fLt a b = false) :
    fLe b a = true := by
  refine fLe_iff.mpr ⟨hb, ha, not_lt.mp fun hlt => ?_⟩
  rw [fLt_iff.mpr ⟨ha, hb, hlt⟩] at h
  cases h

theorem fLe_fMax_right {v lo : Word} (hv : isNaN v = false) (hlo : isNaN lo = false) : fLe lo (fMax v lo) = true := by
  unfold fMax
  split
  · exact fLe_iff.mpr ⟨hlo, hlo, le_rfl⟩
  · next h => exact fLe_of_fLt_eq_false hv hlo (by simpa [fGt] using h)

/-- A clamped value lies between its bounds (R15). -/
theorem fClamp_mem {v lo hi : Word} (hv : isNaN v = false) (h : fLe lo hi = true) :
    fLe lo (fClamp v lo hi) = true ∧ fLe (fClamp v lo hi) hi = true := by
  have hhi : isNaN hi = false := isNaN_eq_false_of_fLe_right h
  have hmax : fLe lo (fMax v lo) = true := fLe_fMax_right hv (isNaN_eq_false_of_fLe_left h)
  unfold fClamp fMin
  split
  · exact ⟨h, fLe_iff.mpr ⟨hhi, hhi, le_rfl⟩⟩
  · next hlt => exact ⟨hmax, fLe_of_fLt_eq_false hhi (isNaN_eq_false_of_fLe_right hmax) (by simpa using hlt)⟩

theorem isFinite_of_isFinitePos {v : Word} (h : isFinitePos v = true) : isFinite v = true := (isFinitePos_iff.mp h).1

/-- A positive value is no zero. -/
theorem isZero_eq_false_of_fLt {v : Word} (h : fLt fZero v = true) : isZero v = false := by
  have hle := fLe_of_fLt h
  rw [fLt_iff_fMag (by decide) hle] at h
  rw [← Bool.not_eq_true, isZero_iff_fMag]
  exact (Nat.zero_le _).trans_lt h |>.ne'

/-- A product with a positive finite factor is no NaN, unless the other factor is one (R14). -/
theorem isNaN_fMul_of_isFinitePos {a b : Word} (ha : isNaN a = false) (hb : isFinitePos b = true) :
    isNaN (fMul a b) = false := by
  have hfin := isFinite_of_isFinitePos hb
  have hz : isZero b = false := isZero_eq_false_of_fLt (Bool.and_eq_true_iff.mp hb).2
  have hinf : isNaN (fPack (fSign a != fSign b) 0x7F800000) = false := by
    cases fSign a != fSign b <;> decide
  simp only [fMul, ha, hz, isNaN_eq_false_of_isFinite hfin, isInf_eq_false_of_isFinite hfin,
    Bool.and_false, Bool.or_false, Bool.false_eq_true, if_false]
  split_ifs
  · exact hinf
  · exact isNaN_fPack_roundMag _ _ _

/-- A positive finite value divided by a positive one is no NaN, the divisor +inf included (R14). -/
theorem isNaN_fDiv_of_pos {a b : Word} (ha : isFinitePos a = true) (hb : fLt fZero b = true) :
    isNaN (fDiv a b) = false := by
  have hfin := isFinite_of_isFinitePos ha
  have hza : isZero a = false := isZero_eq_false_of_fLt (Bool.and_eq_true_iff.mp ha).2
  have hnb : isNaN b = false := isNaN_eq_false_of_fLe_right (fLe_of_fLt hb)
  have hzero : isNaN (fPack (fSign a != fSign b) 0) = false := by
    cases fSign a != fSign b <;> decide
  simp only [fDiv, hnb, hza, isZero_eq_false_of_fLt hb, isNaN_eq_false_of_isFinite hfin,
    isInf_eq_false_of_isFinite hfin, Bool.false_or, Bool.false_and, Bool.false_eq_true, if_false]
  split_ifs
  · exact hzero
  · exact isNaN_fPack_roundMag _ _ _

/-- Settles O32: the product that R207 clamps is never a NaN. -/
theorem resolvedDelayLiesInRange : Obligations.ResolvedDelayLiesInRange := by
  intro p c tempo i htempo hbeats hrate hmax
  have hquot : isNaN (fDiv fSixty tempo) = false := isNaN_fDiv_of_pos (by decide) htempo
  exact fClamp_mem (isNaN_fMul_of_isFinitePos (isNaN_fMul_of_isFinitePos hquot hbeats) hrate) hmax

/-! ### The oscillator phase (45_lfo.md R222, R227) -/

/-- The constants of the phase argument in units of 2^-149: TWO_PI, 5.75, 6.0 and 12.25. -/
theorem phase_constants :
    fMag fTwoPi = 13176795 * 2 ^ 128 ∧ fMag 0x40B80000#32 = 12058624 * 2 ^ 128 ∧
      magBits 0x40C00000 = 12582912 * 2 ^ 128 ∧ magBits 0x41440000 = 25690112 * 2 ^ 128 := by decide +kernel

theorem isFinite_of_fMag_lt {w : Word} {n : Nat} (h : fMag w < n) (hn : n ≤ 2 ^ 277) : isFinite w = true :=
  isFinite_iff_fMag_lt.mpr (by omega)

/-- With an increment up to 5.75, short of TWO_PI by more than two roundings can add, one subtraction brings the phase
back into its turn (R222, R227). -/
theorem lfoEngine_phase_mem {c : Constants} {sn : Snapshot} {e : Engine} (h0 : fLe fZero e.phase = true)
    (hlt : fLt e.phase fTwoPi = true) (hi0 : fLe fZero (lfoInc c e) = true)
    (hi : fLe (lfoInc c e) 0x40B80000#32 = true) :
    fLe fZero (lfoEngine c sn e).phase = true ∧ fLt (lfoEngine c sn e).phase fTwoPi = true := by
  obtain ⟨hpi, hmax, hsix, hsum⟩ := phase_constants
  have hpi0 : fLe fZero fTwoPi = true := by decide
  rw [fLt_iff_fMag h0 hpi0, hpi] at hlt
  rw [fLe_iff_fMag hi0 (by decide), hmax] at hi
  obtain ⟨hph0, hph⟩ := fAdd_nonneg h0 hi0 (isFinite_of_fMag_lt hlt (by omega))
    (isFinite_of_fMag_lt (Nat.lt_succ_of_le hi) (by omega))
  have hphle : fMag (fAdd e.phase (lfoInc c e)) ≤ 25690112 * 2 ^ 128 := by
    rw [hph, ← hsum]
    exact roundVal_le one_pos (by rw [hsum]; omega)
  unfold lfoEngine
  dsimp only
  split
  · next hge =>
    rw [fGe, fLe_iff_fMag hpi0 hph0] at hge
    have hphfin := isFinite_of_fMag_lt (Nat.lt_succ_of_le hphle) (by omega)
    obtain ⟨hw0, hw⟩ := fSub_nonneg hph0 hpi0 hphfin (by decide) hge
    refine ⟨hw0, ?_⟩
    have hwle : fMag (fSub (fAdd e.phase (lfoInc c e)) fTwoPi) ≤ 12582912 * 2 ^ 128 := by
      rw [hw, ← hsix]
      exact roundVal_le one_pos (by rw [hsix, hpi]; omega)
    rw [fLt_iff_fMag hw0 hpi0, hpi]
    omega
  · next hge =>
    refine ⟨hph0, ?_⟩
    rw [fGe, fLe_iff_fMag hpi0 hph0, not_le] at hge
    exact (fLt_iff_fMag hph0 hpi0).mpr hge

/-- Settles O57: an increment of at most half a turn is below 5.75. -/
theorem phaseStaysInOneTurn : Obligations.PhaseStaysInOneTurn := by
  intro c sn e h0 hlt hi0 hi
  exact lfoEngine_phase_mem h0 hlt hi0 (fLe_trans hi (by decide))

end Sys2Proof.Machine
end

section

namespace Sys2Proof.Machine

/-! ### The smoothed LFO rate stays below its bound (44_smoothing.md R190, R203)

One update is `(tgt * K) + (cur * OMK)` with `OMK = 1.0 - K` rounded, so with a bound `M` on `cur` and `tgt` well below
`M` the exact combination lies below `M`, but each of the four roundings may add to it. In units of 2^-149, with `T`,
`C` and `K` for the values of `tgt`, `cur` and the coefficient, the sum still rounds to `M` at most:
where `K` is below 2^-25, OMK is 1.0 and the first product is below half the unit of `M`;
from there to 3 * 2^-25 the second product falls short of `M` by that half unit at least;
above it the exact combination falls short of `M` by more than the roundings add. -/

/-- `1.0 - K`, rounded, in units of 2^-149. -/
def oneMinus (K : Nat) : Nat := roundVal (2 ^ 149 - K) 1

theorem magBits_one : magBits 0x3F800000 = 2 ^ 149 ∧ magBits 0x3F7FFFFF = 2 ^ 149 - 2 ^ 125 := by decide +kernel

theorem oneMinus_le (K : Nat) : oneMinus K ≤ 2 ^ 149 := by
  rw [← magBits_one.1]
  exact roundVal_le one_pos (by rw [magBits_one.1]; omega)

theorem oneMinus_le_pred {K : Nat} (h : 2 ^ 124 < K) : oneMinus K ≤ 2 ^ 149 - 2 ^ 125 := by
  have hround : roundMag (2 ^ 149 - K) 1 ≤ 0x3F7FFFFF :=
    roundMag_le_of_two_mul_lt one_pos (by rw [magBits_one.1, magBits_one.2]; omega)
  rw [← magBits_one.2]
  exact magBits_strictMono.monotone hround

theorem two_mul_oneMinus_le {K : Nat} (h : 0 < K) : 2 * oneMinus K ≤ 2 * (2 ^ 149 - K) + 2 ^ 125 := by
  have hround : roundMag (2 ^ 149 - K) 1 ≤ 0x3F800000 := roundMag_le_of_le one_pos (by rw [magBits_one.1]; omega)
  have := two_mul_roundVal_le (s := 125) one_pos (by omega : roundMag (2 ^ 149 - K) 1 < 0x7F800000) (by omega)
  rw [oneMinus]
  omega

/-- A value a 2^24th or more below a normal one rounds to half its unit below it at least. -/
theorem two_mul_roundVal_add_le {n d s m : Nat} (hd : 0 < d) (hlo : 2 ^ 23 ≤ m) (hhi : m < 2 ^ 24)
    (h : 2 ^ 24 * n ≤ (2 ^ 24 - 1) * (m * 2 ^ (s + 1) * d)) :
    2 * roundVal n d + 2 ^ (s + 1) ≤ 2 * (m * 2 ^ (s + 1)) := by
  rcases hlo.lt_or_eq with hlt | rfl
  · obtain ⟨k, rfl⟩ : ∃ k, m = k + 1 := ⟨m - 1, by omega⟩
    have hb : magBits ((s + 1) * 2 ^ 23 + k) = k * 2 ^ (s + 1) := magBits_scaled (.inr (by omega)) (by omega)
    have hb' : magBits ((s + 1) * 2 ^ 23 + k + 1) = (k + 1) * 2 ^ (s + 1) := by
      rw [add_assoc]
      exact magBits_scaled (.inr hlo) hhi.le
    have hround : roundVal n d ≤ k * 2 ^ (s + 1) := by
      rw [← hb]
      refine magBits_strictMono.monotone (roundMag_le_of_two_mul_lt hd ?_)
      have hunit : 2 ^ 23 * (2 ^ (s + 1) * d) ≤ k * (2 ^ (s + 1) * d) := Nat.mul_le_mul_right _ (by omega)
      have hpos : 0 < 2 ^ (s + 1) * d := by positivity
      rw [mul_assoc (k + 1), add_one_mul] at h
      rw [hb, hb', ← add_mul, mul_assoc, add_mul, add_one_mul]
      omega
    generalize 2 ^ (s + 1) = unit at hround ⊢
    rw [add_one_mul]
    omega
  · have hb : magBits (s * 2 ^ 23 + (2 ^ 24 - 1)) = (2 ^ 24 - 1) * 2 ^ s :=
      magBits_scaled (.inr (by omega)) (by omega)
    have hround : roundVal n d ≤ (2 ^ 24 - 1) * 2 ^ s := by
      rw [← hb]
      refine roundVal_le hd ?_
      rw [pow_succ 2 s, mul_assoc, mul_right_comm (2 ^ s)] at h
      rw [hb, mul_assoc]
      omega
    rw [pow_succ 2 s]
    omega

/-- Magnitude bits of at least one half are normal ones. -/
theorem exists_normal {b : Nat} (h : 2 ^ 148 ≤ magBits b) :
    ∃ s m, 2 ^ 23 ≤ m ∧ m < 2 ^ 24 ∧ magBits b = m * 2 ^ (s + 1) ∧ magBits (b + 1) = (m + 1) * 2 ^ (s + 1) := by
  obtain ⟨s, m, rfl, hs, hm⟩ := exists_scaled b
  rw [magBits_scaled hs hm.le] at h
  cases s with
  | zero => omega
  | succ s =>
    have hlo : 2 ^ 23 ≤ m := hs.resolve_left (by omega)
    exact ⟨s, m, hlo, hm, magBits_scaled hs hm.le, by rw [add_assoc]; exact magBits_scaled (.inr (by omega)) hm⟩

/-- The exact second product falls short of `M` by `M * K`, but for half a unit of the rounded `1.0 - K`. -/
theorem two_mul_mul_oneMinus_le {M C K : Nat} (hC : C ≤ M) (hpos : 0 < K) (hK : K ≤ 2 ^ 149) :
    2 * (C * oneMinus K) + 2 * (M * K) ≤ (2 ^ 150 + 2 ^ 125) * M := by
  have hO := two_mul_oneMinus_le hpos
  calc 2 * (C * oneMinus K) + 2 * (M * K) ≤ 2 * (M * oneMinus K) + 2 * (M * K) :=
        Nat.add_le_add_right (Nat.mul_le_mul_left 2 (Nat.mul_le_mul_right _ hC)) _
    _ = (2 * oneMinus K + 2 * K) * M := by ring
    _ ≤ (2 ^ 150 + 2 ^ 125) * M := Nat.mul_le_mul_right M (by omega)

/-- One smoother update from a current value of at most `M = magBits b` towards a target of at most three fifths of it
stays at `M` at most, for every coefficient in (0, 1]. -/
theorem roundMag_smooth_le {b T C K : Nat} (hb : b < 0x7F800000) (hM : 2 ^ 148 ≤ magBits b)
    (hT : 5 * T ≤ 3 * magBits b) (hC : C ≤ magBits b) (hpos : 0 < K) (hK : K ≤ 2 ^ 149) :
    roundMag (roundVal (T * K) (2 ^ 149) + roundVal (C * oneMinus K) (2 ^ 149)) 1 ≤ b := by
  have hd : 0 < 2 ^ 149 := by positivity
  have hTK : T * K ≤ magBits b * 2 ^ 149 := Nat.mul_le_mul (by omega) hK
  have hCO : C * oneMinus K ≤ magBits b * 2 ^ 149 := Nat.mul_le_mul hC (oneMinus_le K)
  have hA := (roundVal_error hd ((roundMag_le_of_le hd hTK).trans_lt hb)).1
  have hBfin : roundMag (C * oneMinus K) (2 ^ 149) < 0x7F800000 := (roundMag_le_of_le hd hCO).trans_lt hb
  obtain ⟨s, m, hlo, hhi, hb0, hb1⟩ := exists_normal hM
  have hunit : magBits b ≤ 2 ^ 24 * 2 ^ (s + 1) := hb0 ▸ Nat.mul_le_mul_right _ hhi.le
  have hsum : (magBits b + magBits (b + 1)) * 1 = 2 * magBits b + 2 ^ (s + 1) := by
    rw [hb0, hb1]
    ring
  refine roundMag_le_of_two_mul_lt one_pos ?_
  rw [hsum]
  rcases Nat.lt_or_ge (2 ^ 124) K with hlarge | hsmall
  · rcases Nat.lt_or_ge (3 * 2 ^ 124) K with hlarger | hmiddle
    · have hB := two_mul_roundVal_le (s := s + 1) hd hBfin (by
        have hlt : magBits b < 2 ^ 24 * 2 ^ (s + 1) := hb0 ▸ Nat.mul_lt_mul_of_pos_right hhi (by positivity)
        rw [pow_add]
        omega)
      have hexact := two_mul_mul_oneMinus_le hC hpos hK
      have hMK : magBits b * (3 * 2 ^ 124) ≤ magBits b * K := Nat.mul_le_mul_left _ hlarger.le
      have hTMK : 5 * T * K ≤ 3 * magBits b * K := Nat.mul_le_mul_right K hT
      rw [mul_assoc, mul_assoc] at hTMK
      omega
    · have hB : 2 * roundVal (C * oneMinus K) (2 ^ 149) + 2 ^ (s + 1) ≤ 2 * magBits b := by
        rw [hb0]
        refine two_mul_roundVal_add_le hd hlo hhi ?_
        have hshort : C * oneMinus K ≤ magBits b * (2 ^ 149 - 2 ^ 125) := Nat.mul_le_mul hC (oneMinus_le_pred hlarge)
        rw [← hb0]
        omega
      have hTK' : T * K ≤ T * (3 * 2 ^ 124) := Nat.mul_le_mul_left T hmiddle
      omega
  · have hBle : roundVal (C * oneMinus K) (2 ^ 149) ≤ magBits b := roundVal_le hd hCO
    have hTK' : T * K ≤ T * 2 ^ 124 := Nat.mul_le_mul_left T hsmall
    omega

end Sys2Proof.Machine
end

section

namespace Sys2Proof.Machine

/-! ### The rate bound and the increment (00_scope.md R9, 45_lfo.md R222, R223) -/

/-- What the invariant reads of legal parameters (R7). -/
theorem smoothing_of_paramsOk {p : Params} (h : paramsOk p = true) :
    fLe fZero p.rateMinHz = true ∧ fLe p.rateMinHz p.rateMaxHz = true ∧ isFinitePos p.kGain = true ∧
      fLe p.kGain fOne = true := by
  simp only [paramsOk, Bool.and_eq_true] at h
  tauto

theorem tempo_of_paramsOk {p : Params} (h : paramsOk p = true) :
    isFinitePos p.tempoMinBpm = true ∧ p.divTable ≠ [] ∧ ∀ v ∈ p.divTable, isFinitePos v = true := by
  simp only [paramsOk, Bool.and_eq_true, Bool.not_eq_true', List.isEmpty_eq_false_iff, List.all_eq_true] at h
  tauto

theorem rateMax_of_paramsOk {p : Params} (h : paramsOk p = true) : fLe fZero p.rateMaxHz = true := by
  obtain ⟨hmin, hmax, -, -⟩ := smoothing_of_paramsOk h
  exact fLe_trans hmin hmax

/-- A rate that CONFIG accepts is finite, at least 1 and above twice RATE_MAX_HZ (R9). -/
theorem rate_of_rateAccepted {p : Params} {r : Word} (hp : paramsOk p = true) (h : rateAccepted p r = true) :
    fLe fZero r = true ∧ isFinite r = true ∧ 2 ^ 149 ≤ fMag r ∧ 2 * fMag p.rateMaxHz < fMag r := by
  have hmax := rateMax_of_paramsOk hp
  obtain ⟨hfin, htwice, hone, -⟩ := (rateAccepted_iff hmax).mp h
  have hr : 0 ≤ fRat r := zero_le_one.trans hone
  have hmaxRat : 0 ≤ fRat p.rateMaxHz := fRat_fZero ▸ (fLe_iff.mp hmax).2.2
  have hle : fLe fZero r = true :=
    fLe_iff.mpr ⟨by decide, isNaN_eq_false_of_isFinite hfin, by rw [fRat_fZero]; exact hr⟩
  rw [fRat_eq_fMag_div hr] at hone htwice
  rw [fRat_eq_fMag_div hmaxRat, ← mul_div_assoc, div_lt_div_iff_of_pos_right (by positivity)] at htwice
  rw [one_le_div (by positivity)] at hone
  exact ⟨hle, hfin, by exact_mod_cast hone, by exact_mod_cast htwice⟩

/-- The invariant's bound on `cur_rate`, seven eighths of RATE. -/
def rateBound (rate : Word) : Word := fMul 0x3F600000#32 rate

/-- The bound, as magnitude bits: seven eighths of RATE up to one rounding. -/
theorem fMag_rateBound {rate : Word} (h0 : fLe fZero rate = true) (hfin : isFinite rate = true)
    (hone : 2 ^ 149 ≤ fMag rate) :
    ∃ b, b < 0x7F800000 ∧ fLe fZero (rateBound rate) = true ∧ fMag (rateBound rate) = magBits b ∧
      999 * fMag rate ≤ 1144 * magBits b ∧ 1142 * magBits b ≤ 1000 * fMag rate := by
  have hseven : fLe fZero 0x3F600000#32 = true ∧ isFinite 0x3F600000#32 = true ∧
      fMag 0x3F600000#32 = 7 * 2 ^ 146 := by decide
  obtain ⟨hs0, hsfin, hsmag⟩ := hseven
  obtain ⟨hb0, hbmag⟩ := fMul_nonneg hs0 h0 hsfin hfin
  rw [hsmag] at hbmag
  have hbits : fBits rate < 0x7F800000 := of_decide_eq_true hfin
  have hb : roundMag (7 * 2 ^ 146 * fMag rate) (2 ^ 149) < 0x7F800000 :=
    (roundMag_le_of_le (by positivity) (by rw [← fMag_eq_magBits]; omega)).trans_lt hbits
  obtain ⟨hup, hdown⟩ := roundVal_error (by positivity) hb
  refine ⟨_, hb, hb0, hbmag, ?_, ?_⟩ <;> unfold roundVal at hup hdown <;> omega

theorem isFinite_of_fMag_le_magBits {w : Word} {b : Nat} (hb : b < 0x7F800000) (h : fMag w ≤ magBits b) :
    isFinite w = true := by
  rw [isFinite_iff_fMag_lt, ← magBits_infinity]
  exact h.trans_lt (magBits_strictMono hb)

theorem fOne_value : fLe fZero fOne = true ∧ isFinite fOne = true ∧ fMag fOne = 2 ^ 149 := by decide

/-- One update of the LFO rate's smoother keeps its bound (R190, R203). -/
theorem smooth_rate_mem {p : Params} {rate tgt cur : Word} (hp : paramsOk p = true) (hrate : rateAccepted p rate = true)
    (ht0 : fLe fZero tgt = true) (ht : fLe tgt p.rateMaxHz = true) (hc0 : fLe fZero cur = true)
    (hc : fLe cur (rateBound rate) = true) :
    fLe fZero (smooth p.kGain (fSub fOne p.kGain) tgt cur) = true ∧
      fLe (smooth p.kGain (fSub fOne p.kGain) tgt cur) (rateBound rate) = true := by
  obtain ⟨-, -, hkpos, hkone⟩ := smoothing_of_paramsOk hp
  obtain ⟨hr0, hrfin, hrone, hrmax⟩ := rate_of_rateAccepted hp hrate
  obtain ⟨b, hb, hb0, hbmag, hblo, -⟩ := fMag_rateBound hr0 hrfin hrone
  obtain ⟨h10, h1fin, h1mag⟩ := fOne_value
  have hkfin : isFinite p.kGain = true := isFinite_of_isFinitePos hkpos
  have hklt : fLt fZero p.kGain = true := (Bool.and_eq_true_iff.mp hkpos).2
  have hk0 : fLe fZero p.kGain = true := fLe_of_fLt hklt
  rw [fLt_iff_fMag (by decide) hk0] at hklt
  rw [fLe_iff_fMag hk0 h10, h1mag] at hkone
  rw [fLe_iff_fMag ht0 (rateMax_of_paramsOk hp)] at ht
  rw [fLe_iff_fMag hc0 hb0, hbmag] at hc
  have htfin : isFinite tgt = true := isFinite_of_fMag_le_magBits hb (by omega)
  have hcfin : isFinite cur = true := isFinite_of_fMag_le_magBits hb hc
  obtain ⟨ho0, homag⟩ := fSub_nonneg h10 hk0 h1fin hkfin (by rw [h1mag]; exact hkone)
  rw [h1mag] at homag
  have holt : fMag (fSub fOne p.kGain) ≤ 2 ^ 149 := by rw [homag]; exact oneMinus_le _
  obtain ⟨hA0, hA⟩ := fMul_nonneg ht0 hk0 htfin hkfin
  obtain ⟨hB0, hB⟩ := fMul_nonneg hc0 ho0 hcfin
    (isFinite_of_fMag_lt (Nat.lt_succ_of_le holt) (by omega))
  have hAfin : isFinite (fMul tgt p.kGain) = true :=
    isFinite_of_fMag_le_magBits hb (hA ▸ roundVal_le (by positivity) (Nat.mul_le_mul (by omega) hkone))
  have hBfin : isFinite (fMul cur (fSub fOne p.kGain)) = true :=
    isFinite_of_fMag_le_magBits hb (hB ▸ roundVal_le (by positivity) (Nat.mul_le_mul hc holt))
  obtain ⟨hS0, hS⟩ := fAdd_nonneg hA0 hB0 hAfin hBfin
  refine ⟨hS0, (fLe_iff_fMag hS0 hb0).mpr ?_⟩
  rw [hS, hA, hB, homag, hbmag]
  exact magBits_strictMono.monotone (roundMag_smooth_le hb (by omega) (by omega) hc ((Nat.zero_le _).trans_lt hklt) hkone)

/-- A finite sum has finite operands. -/
theorem isFinite_of_isFinite_addNumbers {a b : Word} (ha : isNaN a = false) (hb : isNaN b = false)
    (h : isFinite (addNumbers a b) = true) : isFinite a = true ∧ isFinite b = true := by
  have hfinite {w : Word} (hn : isNaN w = false) (hi : ¬ isInf w = true) : isFinite w = true := by
    have := isFinite_or_isInf_or_isNaN w
    simp_all
  unfold addNumbers at h
  split_ifs at h with hia hib
  · rw [isInf_eq_false_of_isFinite h] at hia
    cases hia
  · rw [isInf_eq_false_of_isFinite h] at hib
    cases hib
  all_goals exact ⟨hfinite ha hia, hfinite hb hib⟩

theorem isFinite_fNaN (op : FpOp) (a b : Word) : isFinite (fNaN op a b) = false := by
  by_contra h
  have := isNaN_eq_false_of_isFinite (Bool.not_eq_false _ ▸ h)
  rw [isNaN_fNaN] at this
  cases this

theorem isFinite_of_isFinite_fAdd {a b : Word} (h : isFinite (fAdd a b) = true) :
    isFinite a = true ∧ isFinite b = true := by
  unfold fAdd at h
  split_ifs at h with hn
  · rw [isFinite_fNaN] at h
    cases h
  · simp only [Bool.or_eq_true, not_or, Bool.not_eq_true] at hn
    exact isFinite_of_isFinite_addNumbers hn.1.1 hn.1.2 h

theorem isFinite_of_isFinite_fSub {a b : Word} (h : isFinite (fSub a b) = true) : isFinite a = true := by
  unfold fSub at h
  split_ifs at h with hn
  · rw [isFinite_fNaN] at h
    cases h
  · simp only [Bool.or_eq_true, not_or, Bool.not_eq_true] at hn
    have hnb : isNaN (fNeg b) = false := by
      rw [isNaN, fBits_fNeg]
      exact hn.1.2
    exact (isFinite_of_isFinite_addNumbers hn.1.1 hnb h).1

theorem isFinite_of_isFinite_fDiv {a b : Word} (h : isFinite (fDiv a b) = true) : isFinite a = true := by
  have hinf : isFinite (fPack (fSign a != fSign b) 0x7F800000) = false := by
    cases fSign a != fSign b <;> decide
  unfold fDiv at h
  split_ifs at h with hn hi
  · rw [isFinite_fNaN] at h
    cases h
  · rw [hinf] at h
    cases h
  all_goals
    simp only [Bool.or_eq_true, not_or, Bool.not_eq_true] at hn hi
    have := isFinite_or_isInf_or_isNaN a
    simp_all

/-- A finite phase comes of a finite phase and a finite increment. -/
theorem isFinite_of_lfoEngine {c : Constants} {sn : Snapshot} {e : Engine}
    (h : isFinite (lfoEngine c sn e).phase = true) : isFinite e.phase = true ∧ isFinite (lfoInc c e) = true := by
  unfold lfoEngine at h
  dsimp only at h
  split at h
  · exact isFinite_of_isFinite_fAdd (isFinite_of_isFinite_fSub h)
  · exact isFinite_of_isFinite_fAdd h

/-- With `cur_rate` in its bound a finite increment is at most 5.75 (R223). -/
theorem lfoInc_mem {c : Constants} {e : Engine} (hr0 : fLe fZero c.rate = true) (hrfin : isFinite c.rate = true)
    (hrone : 2 ^ 149 ≤ fMag c.rate) (hc0 : fLe fZero e.cur.rate = true) (hc : fLe e.cur.rate (rateBound c.rate) = true)
    (hfin : isFinite (lfoInc c e) = true) :
    fLe fZero (lfoInc c e) = true ∧ fLe (lfoInc c e) 0x40B80000#32 = true := by
  obtain ⟨b, hb, hb0, hbmag, -, hbhi⟩ := fMag_rateBound hr0 hrfin hrone
  rw [fLe_iff_fMag hc0 hb0, hbmag] at hc
  have hpi : fLe fZero fTwoPi = true ∧ isFinite fTwoPi = true := by decide
  obtain ⟨hpi0, hpifin⟩ := hpi
  obtain ⟨hpimag, hmaxmag, -, -⟩ := phase_constants
  obtain ⟨hY0, hY⟩ := fMul_nonneg hpi0 hc0 hpifin (isFinite_of_fMag_le_magBits hb hc)
  have hYfin : isFinite (fMul fTwoPi e.cur.rate) = true := isFinite_of_isFinite_fDiv hfin
  have hYbits : roundMag (fMag fTwoPi * fMag e.cur.rate) (2 ^ 149) < 0x7F800000 := by
    rw [isFinite_iff_fMag_lt, hY, ← magBits_infinity] at hYfin
    exact magBits_strictMono.lt_iff_lt.mp hYfin
  have hYerr := (roundVal_error (by positivity) hYbits).1
  rw [← hY, hpimag] at hYerr
  obtain ⟨hI0, hI⟩ := fDiv_nonneg hY0 hr0 hYfin hrfin (by omega)
  refine ⟨hI0, (fLe_iff_fMag hI0 (by decide)).mpr ?_⟩
  rw [hI, fMag_eq_magBits 0x40B80000#32]
  refine roundVal_le (by omega) ?_
  rw [← fMag_eq_magBits, hmaxmag]
  omega

end Sys2Proof.Machine
end

section

namespace Sys2Proof.Machine

/-! ### What PROCESS decodes (10_state.md R36, 44_smoothing.md R203 to R207) -/

/-- The snapshot of the pending bank holds no NaN (R36). -/
theorem isNaN_snapshotBank (b : Bank) (k : Fin 26) : isNaN (snapshotBank b)[k] = false := by
  have hz : isNaN fZero = false := by decide
  have hget : (snapshotBank b)[k] = substNaN b[k] := by simp [snapshotBank]
  rw [hget, substNaN]
  split
  · exact hz
  · next h => simpa using h

theorem fZero_fLe_fOfNat (n : Nat) : fLe fZero (fOfNat n) = true :=
  (fPack_roundMag_nonneg fun h => by cases h).1

/-- The divider index lies in the table (R205). -/
theorem dividerIndex_lt_length {p : Params} {v : Word} (hv : isNaN v = false) (h1 : 1 ≤ p.divTable.length)
    (hK : p.divTable.length ≤ 2 ^ 24) : dividerIndex p v < p.divTable.length := by
  obtain ⟨hlast, hlastval⟩ := fOfNat_exact (n := p.divTable.length - 1) (by omega)
  have hlast0 := fZero_fLe_fOfNat (p.divTable.length - 1)
  obtain ⟨hlo, hhi⟩ := fClamp_mem hv hlast0
  rw [fLe_iff_fMag hlo hlast0] at hhi
  obtain ⟨-, hval⟩ := fLe_fZero_iff.mp hlo
  rw [(fLe_fZero_iff.mp hlast0).2] at hlastval
  have hfin : isFinite (fClamp v fZero (fOfNat (p.divTable.length - 1))) = true :=
    isFinite_iff_fMag_lt.mpr (hhi.trans_lt (isFinite_iff_fMag_lt.mp hlast))
  rw [dividerIndex, fFloor, if_pos hfin, hval]
  generalize fMag (fClamp v fZero (fOfNat (p.divTable.length - 1))) = x at hhi ⊢
  omega

/-- Every beat count that R205 selects is positive and finite. -/
theorem isFinitePos_beatsOf {p : Params} {i : Nat} (hall : ∀ v ∈ p.divTable, isFinitePos v = true)
    (hi : i < p.divTable.length) : isFinitePos (beatsOf p i) = true := by
  have hget : beatsOf p i = p.divTable[i] := by simp [beatsOf, hi]
  rw [hget]
  exact hall _ (List.getElem_mem hi)

/-- A clamped tempo is positive (R206). -/
theorem fLt_fZero_clampTempo {p : Params} {v : Word} (hv : isNaN v = false) (hmin : isFinitePos p.tempoMinBpm = true) :
    fLt fZero (clampTempo p v) = true := by
  obtain ⟨hfin, hpos⟩ := isFinitePos_iff.mp hmin
  obtain ⟨-, hn, hle⟩ := fLe_iff.mp (fLe_fMax_right hv (isNaN_eq_false_of_isFinite hfin))
  exact fLt_iff.mpr ⟨by decide, hn, by rw [fRat_fZero]; exact hpos.trans_le hle⟩

/-- The resolved delays of a decoded snapshot lie in [0, D_MAX] (R54, R207). -/
theorem decodeSnapshot_dRes_mem {p : Params} {c : Constants} (hp : paramsOk p = true) (hK : p.divTable.length ≤ 2 ^ 24)
    (hrate : isFinitePos c.rate = true) (hmax : fLe fZero c.dMax = true) (b : Bank) (ch : Chan) :
    fLe fZero ((decodeSnapshot p c (snapshotBank b)).dRes.get ch) = true ∧
      fLe ((decodeSnapshot p c (snapshotBank b)).dRes.get ch) c.dMax = true := by
  obtain ⟨htempo, hne, hall⟩ := tempo_of_paramsOk hp
  have hget : (decodeSnapshot p c (snapshotBank b)).dRes.get ch =
      resolveDelay p c (clampTempo p (snapshotBank b)[(0 : Fin 26)]) (dividerIndex p (snapshotBank b)[divIndex ch]) := by
    cases ch <;> rfl
  have hidx : dividerIndex p (snapshotBank b)[divIndex ch] < p.divTable.length :=
    dividerIndex_lt_length (isNaN_snapshotBank b _) (List.length_pos_iff.mpr hne) hK
  rw [hget]
  exact resolvedDelayLiesInRange p c _ _ (fLt_fZero_clampTempo (isNaN_snapshotBank b 0) htempo)
    (isFinitePos_beatsOf hall hidx) hrate hmax

/-- The decoded LFO rate lies in [RATE_MIN_HZ, RATE_MAX_HZ] (R203). -/
theorem decodeSnapshot_rateC_mem {p : Params} (hp : paramsOk p = true) (c : Constants) (b : Bank) :
    fLe fZero (decodeSnapshot p c (snapshotBank b)).rateC = true ∧
      fLe (decodeSnapshot p c (snapshotBank b)).rateC p.rateMaxHz = true := by
  obtain ⟨hmin, hmax, -, -⟩ := smoothing_of_paramsOk hp
  obtain ⟨hlo, hhi⟩ := fClamp_mem (isNaN_snapshotBank b 21) hmax
  exact ⟨fLe_trans hmin hlo, hhi⟩

/-! ### The oscillator of a sample step (47_sample_step.md R255) -/

/-- The state machine writes no target but the delays' (R174, R204). -/
theorem fsmEngine_tgt_rate (p : Params) (c : Constants) (sn : Snapshot) (e : Engine) :
    (fsmEngine p c sn e).tgt.rate = e.tgt.rate := by
  rcases fsmEngine_cases p c sn e with
    ⟨_, h⟩ | ⟨_, _, _, h⟩ | ⟨_, _, h⟩ | ⟨_, _, h⟩ | ⟨_, _, h⟩ | ⟨_, _, h⟩ | ⟨_, _, h⟩ <;> rw [h] <;> rfl

/-- After steps 1 and 2 the current values are smoothed, the rate's target and the phase as before. -/
theorem stepControl_oscillator (p : Params) (c : Constants) (sn : Snapshot) (e : Engine) :
    (stepControl p c sn e).cur = smoothAll p c e.tgt e.cur ∧ (stepControl p c sn e).tgt.rate = e.tgt.rate ∧
      (stepControl p c sn e).phase = e.phase := by
  obtain ⟨hcur, hphase, -⟩ := fsmEngine_frame p c sn (smoothEngine p c e)
  exact ⟨hcur, fsmEngine_tgt_rate p c sn (smoothEngine p c e), hphase⟩

/-- A sample step leaves the smoothed values, the rate's target, and the phase that the oscillator advances. -/
theorem sampleStep_oscillator (p : Params) (c : Constants) (sn : Snapshot) (e : Engine) (m : Memory) (x : Pair Word) :
    (sampleStep p c sn e m x).eng.cur = smoothAll p c e.tgt e.cur ∧
      (sampleStep p c sn e m x).eng.tgt.rate = e.tgt.rate ∧
      (sampleStep p c sn e m x).eng.phase = (lfoEngine c sn (stepControl p c sn e)).phase := by
  obtain ⟨hcur, htgt, -⟩ := stepControl_oscillator p c sn e
  unfold sampleStep
  rw [stepAudio_eng_eq]
  refine ⟨?_, ?_, rfl⟩ <;> rw [lfoEngine_eq]
  · exact hcur
  · exact htgt

/-! ### The numeric invariant (10_state.md R54) -/

/-- The invariant reads the parameters, STATUS.CFG, the constants, the snapshot and the engine, nothing else. -/
theorem State.RangeInv.congr {s t : State} (h : s.RangeInv) (hparams : t.params = s.params) (hcfg : t.cfg = s.cfg)
    (hconst : t.const = s.const) (hsnap : t.snap = s.snap) (heng : t.eng = s.eng) : t.RangeInv := by
  obtain ⟨h1, h2, h3, h4, h5, h6, h7⟩ := h
  constructor <;> simp only [hparams, hcfg, hconst, hsnap, heng] <;> assumption

/-- An unconfigured state with legal parameters meets the invariant. -/
theorem State.rangeInv_of_unconfigured {t : State} (hp : paramsOk t.params = true)
    (hK : t.params.divTable.length ≤ 2 ^ 24) (hcfg : t.cfg = false) : t.RangeInv := by
  have hno {P : Prop} (h : t.cfg = true) : P := by rw [hcfg] at h; cases h
  exact ⟨hp, hK, hno, hno, hno, hno, hno⟩

/-- A state with the constants of an accepted rate, the snapshot and the engine at their reset values meets the
invariant: what CONFIG and ACTIVATE leave (R52). -/
theorem State.rangeInv_of_fresh {t : State} (hp : paramsOk t.params = true) (hK : t.params.divTable.length ≤ 2 ^ 24)
    (hrate : rateAccepted t.params t.const.rate = true) (hconst : t.const = constantsOf t.params t.const.rate)
    (hsnap : t.snap = Snapshot.zero) (heng : t.eng = Engine.reset) : t.RangeInv := by
  obtain ⟨hr0, hrfin, hrone, -⟩ := rate_of_rateAccepted hp hrate
  obtain ⟨-, -, hbound, -⟩ := fMag_rateBound hr0 hrfin hrone
  have hdmax : fLe fZero t.const.dMax = true := by
    rw [hconst]
    exact fZero_fLe_fOfNat _
  have hzero : fLe fZero fZero = true ∧ fLt fZero fTwoPi = true := by decide
  exact
    { params := hp
      dividers := hK
      constants := fun _ => ⟨hrate, hconst⟩
      delays := fun _ ch => by rw [hsnap]; cases ch <;> exact ⟨hzero.1, hdmax⟩
      rateTarget := fun _ => by rw [heng]; exact ⟨hzero.1, rateMax_of_paramsOk hp⟩
      rateNow := fun _ => by rw [heng]; exact ⟨hzero.1, hbound⟩
      phase := fun _ _ => by rw [heng]; exact hzero }

/-- PROCESS takes the delays and the rate's target from clamped registers (R203, R207). -/
theorem State.RangeInv.blockOpened {s : State} (h : s.RangeInv) (hcfg : s.cfg = true) (n : Nat) :
    (s.blockOpened n).RangeInv := by
  obtain ⟨hrate, hconst⟩ := h.constants hcfg
  obtain ⟨hr0, hrfin, hrone, -⟩ := rate_of_rateAccepted h.params hrate
  have hrpos : isFinitePos s.const.rate = true := by
    rw [isFinitePos, hrfin, Bool.true_and, fLt_iff_fMag (by decide) hr0]
    exact (show fMag fZero < 2 ^ 149 by decide).trans_le hrone
  have hdmax : fLe fZero s.const.dMax = true := by
    rw [hconst]
    exact fZero_fLe_fOfNat _
  exact
    { h with
      delays := fun _ => decodeSnapshot_dRes_mem h.params h.dividers hrpos hdmax s.pend
      rateTarget := fun _ => decodeSnapshot_rateC_mem h.params s.const s.pend }

/-- A sample keeps the smoothed rate in its bound and the phase in its turn (R222, R227). -/
theorem State.RangeInv.sampled {s : State} (h : s.RangeInv) (x0 x1 : Word) : (s.sampled x0 x1).RangeInv := by
  obtain ⟨hcur, htgt, hphase⟩ := sampleStep_oscillator s.params s.const s.snap s.eng s.mem ⟨x0, x1⟩
  obtain ⟨hcur', -, hphase'⟩ := stepControl_oscillator s.params s.const s.snap s.eng
  have hnow (hcfg : s.cfg = true) : fLe fZero (smoothAll s.params s.const s.eng.tgt s.eng.cur).rate = true ∧
      fLe (smoothAll s.params s.const s.eng.tgt s.eng.cur).rate (rateBound s.const.rate) = true := by
    obtain ⟨hrate, hconst⟩ := h.constants hcfg
    obtain ⟨ht0, ht⟩ := h.rateTarget hcfg
    obtain ⟨hc0, hc⟩ := h.rateNow hcfg
    have homk : s.const.omkGain = fSub fOne s.params.kGain := by rw [hconst]; rfl
    rw [smoothAll, homk]
    exact smooth_rate_mem h.params hrate ht0 ht hc0 hc
  exact
    { params := h.params
      dividers := h.dividers
      constants := h.constants
      delays := h.delays
      rateTarget := fun hcfg => by
        rw [State.sampled_eng, State.stepOf, htgt]
        exact h.rateTarget hcfg
      rateNow := fun hcfg => by
        rw [State.sampled_eng, State.stepOf, hcur]
        exact hnow hcfg
      phase := fun hcfg hfin => by
        rw [State.sampled_eng, State.stepOf, hphase] at hfin ⊢
        obtain ⟨hphfin, hincfin⟩ := isFinite_of_lfoEngine hfin
        rw [hphase'] at hphfin
        obtain ⟨hph0, hph⟩ := h.phase hcfg hphfin
        obtain ⟨hr0, hrfin, hrone, -⟩ := rate_of_rateAccepted h.params (h.constants hcfg).1
        obtain ⟨hn0, hn⟩ := hnow hcfg
        rw [← hcur'] at hn0 hn
        obtain ⟨hi0, hi⟩ := lfoInc_mem hr0 hrfin hrone hn0 hn hincfin
        exact lfoEngine_phase_mem (hphase' ▸ hph0) (hphase' ▸ hph) hi0 hi }

/-- Every command keeps the numeric ranges. -/
theorem State.RangeInv.effect {s t : State} {i : Instr} (h : s.RangeInv) (heff : Effect s i t) : t.RangeInv := by
  cases heff with
  | idle => exact h
  | suppressed => exact h.congr rfl rfl rfl rfl rfl
  | written => exact h.congr rfl rfl rfl rfl rfl
  | answered => exact h.congr rfl rfl rfl rfl rfl
  | cleared => exact h.congr rfl rfl rfl rfl rfl
  | opened n _ hcfg => exact h.blockOpened hcfg n
  | openedNaN n _ hcfg => exact (h.blockOpened hcfg n).congr rfl rfl rfl rfl rfl
  | sampled x0 x1 => exact h.sampled x0 x1
  | configured r _ hrate => exact State.rangeInv_of_fresh h.params h.dividers hrate rfl rfl rfl
  | activated _ hcfg =>
    obtain ⟨hrate, hconst⟩ := h.constants hcfg
    exact State.rangeInv_of_fresh h.params h.dividers hrate hconst rfl rfl
  | tornDown => exact State.rangeInv_of_unconfigured h.params h.dividers rfl

/-- Settles O40: each command keeps the ranges, and the port's words are no part of them. -/
theorem stepKeepsNumericRanges : Obligations.StepKeepsNumericRanges := fun _ _ hs hstep =>
  step_preserves (fun _ _ h => h.congr rfl rfl rfl rfl rfl) (fun _ _ _ h heff => h.effect heff) hs hstep

/-- Settles O41: power-on is an unconfigured state (R52). -/
theorem powerOnMeetsMachineInvariant : Obligations.PowerOnMeetsMachineInvariant :=
  ⟨fun _ => State.inv_of_unconfigured rfl rfl rfl (Memory.wf_unspecified 0) rfl rfl,
    fun _ hp hK => State.rangeInv_of_unconfigured hp hK rfl⟩

end Sys2Proof.Machine
end

section

namespace Sys2Proof

/-! ### The decoder reads back what the encoder writes (30_encoding.md R100 to R106) -/

/-- The command word of fields that fit, and that are zero where the opcode has none, decodes to those fields (R104). -/
theorem decodeWord_cmdWord {opc : Opcode} {idx n : Nat} (hidx : idx < 256) (hn : n < 65536)
    (hidx0 : opc ≠ .wparam ∧ opc ≠ .rparam → idx = 0) (hn0 : opc ≠ .process → n = 0) :
    decodeWord (cmdWord opc idx n) = .cmd opc idx n := by
  have hidxField : ¬ (opc ≠ .wparam ∧ opc ≠ .rparam ∧ idxField (cmdWord opc idx n) ≠ 0#8) :=
    fun ⟨hw, hr, hne⟩ => hne (by simp [hidx0 ⟨hw, hr⟩])
  have hnField : ¬ (opc ≠ .process ∧ nField (cmdWord opc idx n) ≠ 0#16) := fun ⟨hp, hne⟩ => hne (by simp [hn0 hp])
  simp only [decodeWord, opcField_cmdWord, opcodeOf_bits, rsvField_cmdWord, ne_eq, not_true_eq_false, if_false]
  rw [if_neg hidxField, if_neg hnField, idxField_cmdWord, nField_cmdWord, BitVec.toNat_ofNat, BitVec.toNat_ofNat,
    Nat.mod_eq_of_lt hidx, Nat.mod_eq_of_lt hn]

/-- A command word at the head of the port takes the data words of its opcode from the words that follow it. -/
theorem decode_cons_cmdWord {opc : Opcode} {idx n : Nat} (ws : List Word) (hidx : idx < 256) (hn : n < 65536)
    (hidx0 : opc ≠ .wparam ∧ opc ≠ .rparam → idx = 0) (hn0 : opc ≠ .process → n = 0) :
    decode (cmdWord opc idx n :: ws) = withData opc idx n ws := by
  rw [decode, decodeWord_cmdWord hidx hn hidx0 hn0]

/-- The words of a well-formed command decode to it and leave the words behind them (R103, R104). -/
theorem decode_encode_append {i : Instr} (h : i.wf = true) (ws : List Word) :
    decode (encode i ++ ws) = .cmd i ws := by
  cases i with
  | wparam idx v => exact decode_cons_cmdWord _ (of_decide_eq_true h) (by decide) (by simp) (by simp)
  | rparam idx => exact decode_cons_cmdWord _ (of_decide_eq_true h) (by decide) (by simp) (by simp)
  | process n => exact decode_cons_cmdWord _ (by decide) (of_decide_eq_true h) (by simp) (by simp)
  | nop | config | activate | sample | teardown | clrstat =>
    exact decode_cons_cmdWord _ (by decide) (by decide) (fun _ => rfl) (fun _ => rfl)

end Sys2Proof
end

section

namespace Sys2Proof.Machine

/-! ### A step runs the command at the port (20_memory.md R88, 48_commands.md R270) -/

/-- A step with a command at the head of the port is that command, its words taken. -/
theorem step_of_decode_cmd {s : State} {i : Instr} {rest : List Word} (h : decode s.inq = .cmd i rest) :
    step s = exec i (s.withIn rest) := by
  rw [step, State.serve, h]

/-- Settles O2. -/
theorem stepRunsDecodedCommand : Obligations.StepRunsDecodedCommand := fun _ _ _ hdec _ => step_of_decode_cmd hdec

/-- Settles O3: the words sent decode to the command, which the step then runs. -/
theorem stepRunsEncodedCommand : Obligations.StepRunsEncodedCommand := by
  intro s i ws hwf hinq
  exact step_of_decode_cmd (hinq ▸ decode_encode_append hwf ws)

/-! ### The buffers' canonical form (20_memory.md R80, 42_delay_buffer.md R150, R156) -/

/-- Every command keeps the buffers' canonical form: SAMPLE writes words through `BufWrite`, CONFIG, ACTIVATE and
TEARDOWN leave nothing listed, and no other command touches the buffers. -/
theorem wf_mem_of_effect {s t : State} {i : Instr} (h : s.mem.wf = true) (heff : Effect s i t) : t.mem.wf = true := by
  cases heff with
  | sampled x0 x1 => exact wf_sampleStep ⟨x0, x1⟩ h
  | configured | activated => exact Memory.wf_cleared
  | tornDown => exact Memory.wf_unspecified s.epoch
  | idle | suppressed | written | answered | cleared | opened | openedNaN => exact h

/-- Settles O38: each command keeps the canonical form, and the port's words are no part of it. -/
theorem stepKeepsMemoryCanonical : Obligations.StepKeepsMemoryCanonical := fun _ _ hs hstep =>
  step_preserves (P := fun s => s.mem.wf = true) (fun _ _ h => h) (fun _ _ _ h heff => wf_mem_of_effect h heff) hs hstep

/-! ### PROCESS twice on one pending bank (20_memory.md R85, 44_smoothing.md R208) -/

/-- A block opened on the pending bank of another takes the same snapshot, from which PROCESS sets the same targets. -/
theorem State.blockOpened_blockOpened (s : State) (m n : Nat) :
    (s.blockOpened m).blockOpened n = { s.blockOpened m with blockRemain := BitVec.ofNat 16 n } := rfl

/-- The decoding does not read the error fields. -/
theorem State.blockOpened_raise (s : State) (e : ErrCode) (n : Nat) :
    (s.raise e).blockOpened n = (s.blockOpened n).raise e := rfl

theorem setErrBit_idem (err : BitVec 7) (e : ErrCode) : setErrBit (setErrBit err e) e = setErrBit err e := by
  simp only [setErrBit, BitVec.or_assoc, BitVec.or_self]

/-- An error recorded twice is recorded once: the bit is sticky (R304). -/
theorem State.raise_raise (s : State) (e : ErrCode) : (s.raise e).raise e = s.raise e := by
  simp only [State.raise, setErrBit_idem]

/-- The state after a PROCESS that runs: the block opened, and PARAM_NAN recorded where the pending bank holds a NaN
(R276, R303). -/
def State.processed (s : State) (n : Nat) : State :=
  if bankHasNaN s.pend then (s.blockOpened n).raise .paramNan else s.blockOpened n

theorem exec_process (n : Nat) (s : State) : exec (.process n) s = execProcess n s := rfl

/-- PROCESS runs in an active block that is closed. -/
theorem exec_process_of_ready {s : State} (n : Nat) (hblk : s.blockRemain = 0#16) (hcfg : s.cfg = true)
    (hact : s.act = true) : exec (.process n) s = .next (s.processed n) := by
  have hclosed : s.blk = false := by simp [State.blk, hblk]
  simp only [exec_process, execProcess, State.processed, hclosed, hcfg, hact, Bool.not_true, Bool.false_eq_true,
    if_false]
  split <;> rfl

/-- The second PROCESS finds the first's NaN again, or again none. -/
theorem State.processed_processed (s : State) (m n : Nat) :
    (s.processed m).processed n = { s.processed m with blockRemain := BitVec.ofNat 16 n } := by
  by_cases hnan : bankHasNaN s.pend = true
  · have h (r : Nat) : s.processed r = (s.blockOpened r).raise .paramNan := if_pos hnan
    calc (s.processed m).processed n
        = (((s.blockOpened m).raise .paramNan).blockOpened n).raise .paramNan := by rw [h m]; exact if_pos hnan
      _ = ((s.blockOpened m).blockOpened n).raise .paramNan := by rw [State.blockOpened_raise, State.raise_raise]
      _ = { s.processed m with blockRemain := BitVec.ofNat 16 n } := by rw [h m, State.blockOpened_blockOpened]; rfl
  · have h (r : Nat) : s.processed r = s.blockOpened r := if_neg hnan
    calc (s.processed m).processed n = (s.blockOpened m).blockOpened n := by rw [h m]; exact if_neg hnan
      _ = { s.processed m with blockRemain := BitVec.ofNat 16 n } := by rw [h m, State.blockOpened_blockOpened]

/-- What a PROCESS of no samples leaves is ready for the next PROCESS. -/
theorem State.processed_zero_ready (s : State) :
    (s.processed 0).blockRemain = 0#16 ∧ (s.processed 0).cfg = s.cfg ∧ (s.processed 0).act = s.act := by
  unfold State.processed
  split <;> exact ⟨rfl, rfl, rfl⟩

/-- Settles O28: the second PROCESS decodes the bank that the first one left pending. -/
theorem repeatedProcessChangesOnlyBlockCount : Obligations.RepeatedProcessChangesOnlyBlockCount := by
  intro s t n hblk hcfg hact _ hexec
  rw [exec_process_of_ready 0 hblk hcfg hact] at hexec
  cases hexec
  obtain ⟨hblk', hcfg', hact'⟩ := s.processed_zero_ready
  rw [exec_process_of_ready n hblk' (hcfg'.trans hcfg) (hact'.trans hact), State.processed_processed]

end Sys2Proof.Machine
end

section

namespace Sys2Proof.Machine

/-! ### Parameter traffic inside a block (20_memory.md R89, 47_sample_step.md R258, 70_reset_and_hazards.md R335) -/

/-- Two states agree on all that a SAMPLE reads and on the block's audio state. They may differ in the queues of the
port, the parameter banks and the error fields. -/
structure State.SameAudio (s u : State) : Prop where
  params : s.params = u.params
  const : s.const = u.const
  snap : s.snap = u.snap
  eng : s.eng = u.eng
  mem : s.mem = u.mem
  blockRemain : s.blockRemain = u.blockRemain

theorem State.SameAudio.refl (s : State) : s.SameAudio s := ⟨rfl, rfl, rfl, rfl, rfl, rfl⟩

theorem State.SameAudio.trans {s t u : State} (h : s.SameAudio t) (h' : t.SameAudio u) : s.SameAudio u :=
  ⟨h.params.trans h'.params, h.const.trans h'.const, h.snap.trans h'.snap, h.eng.trans h'.eng, h.mem.trans h'.mem,
    h.blockRemain.trans h'.blockRemain⟩

/-- What a sample step computes is a function of the audio state. -/
theorem State.SameAudio.stepOf {s u : State} (h : s.SameAudio u) (x0 x1 : Word) : s.stepOf x0 x1 = u.stepOf x0 x1 := by
  simp only [State.stepOf, h.params, h.const, h.snap, h.eng, h.mem]

theorem exec_wparam (idx : Nat) (v : Word) (s : State) : exec (.wparam idx v) s = execWparam idx v s := rfl

theorem exec_rparam (idx : Nat) (s : State) : exec (.rparam idx) s = execRparam idx s := rfl

theorem exec_sample (x0 x1 : Word) (s : State) : exec (.sample x0 x1) s = execSample x0 x1 s := rfl

theorem exists_sample_of_isSample {i : Instr} (h : isSample i = true) : ∃ x0 x1, i = .sample x0 x1 := by
  cases i with
  | sample x0 x1 => exact ⟨x0, x1, rfl⟩
  | nop | config | activate | wparam | rparam | process | teardown | clrstat => cases h

/-- Of the commands that succeed in a block all but SAMPLE keep the audio state, and of those RPARAM alone returns a
word (R89, R258). -/
theorem exec_traffic {i : Instr} (htraffic : isBlockTraffic i = true) (hsample : isSample i = false) (s : State) :
    ∃ t, exec i s = .next t ∧ t.SameAudio s ∧ (isRparam i = false → t.outq = s.outq) := by
  cases i with
  | nop => exact ⟨s, rfl, .refl s, fun _ => rfl⟩
  | clrstat => exact ⟨_, rfl, ⟨rfl, rfl, rfl, rfl, rfl, rfl⟩, fun _ => rfl⟩
  | wparam idx v =>
    rw [exec_wparam, execWparam]
    split
    · exact ⟨_, rfl, ⟨rfl, rfl, rfl, rfl, rfl, rfl⟩, fun _ => rfl⟩
    · exact ⟨_, rfl, ⟨rfl, rfl, rfl, rfl, rfl, rfl⟩, fun _ => List.append_nil _⟩
  | rparam idx =>
    rw [exec_rparam, execRparam]
    split <;> exact ⟨_, rfl, ⟨rfl, rfl, rfl, rfl, rfl, rfl⟩, fun h => by cases h⟩
  | sample => cases hsample
  | config | activate | process | teardown => cases htraffic

/-- A SAMPLE returns the same words in two states of one audio state, and leaves them one. -/
theorem State.SameAudio.exec_sample {s u : State} (h : s.SameAudio u) (x0 x1 : Word) :
    ∃ t v ys, exec (.sample x0 x1) s = .next t ∧ exec (.sample x0 x1) u = .next v ∧ t.SameAudio v ∧
      t.outq = s.outq ++ ys ∧ v.outq = u.outq ++ ys := by
  have hblk : u.blk = s.blk := by simp only [State.blk, h.blockRemain]
  rw [Machine.exec_sample, Machine.exec_sample, execSample, execSample, hblk]
  by_cases hopen : s.blk = true
  · have hstep := h.stepOf x0 x1
    rw [if_pos hopen, if_pos hopen]
    refine ⟨_, _, _, rfl, rfl, ⟨h.params, h.const, h.snap, ?_, ?_, ?_⟩, rfl, ?_⟩
    · rw [State.sampled_eng, State.sampled_eng, hstep]
    · rw [State.sampled_mem, State.sampled_mem, hstep]
    · rw [State.sampled_blockRemain, State.sampled_blockRemain, h.blockRemain]
    · rw [State.sampled_outq, hstep]
  · rw [if_neg hopen, if_neg hopen]
    exact ⟨_, _, _, rfl, rfl, ⟨h.params, h.const, h.snap, h.eng, h.mem, h.blockRemain⟩, rfl, rfl⟩

theorem execAll_cons_of_next {i : Instr} {s t : State} (h : exec i s = .next t) (l : List Instr) :
    execAll (i :: l) s = execAll l t := by
  rw [execAll, h]

/-- A list of block traffic and its samples alone, from two states of one audio state, end in one audio state. Without
an RPARAM they return the same words where the words returned before were the same. -/
theorem execAll_traffic (l : List Instr) : ∀ {s u : State}, s.SameAudio u → l.all isBlockTraffic = true →
    ∃ t v, execAll l s = .next t ∧ execAll (l.filter isSample) u = .next v ∧ t.SameAudio v ∧
      (l.any isRparam = false → s.outq = u.outq → t.outq = v.outq) := by
  induction l with
  | nil => exact fun {s u} h _ => ⟨s, u, rfl, rfl, h, fun _ hout => hout⟩
  | cons i l ih =>
    intro s u h hall
    obtain ⟨htraffic, hrest⟩ : isBlockTraffic i = true ∧ l.all isBlockTraffic = true := by simpa using hall
    by_cases hsample : isSample i = true
    · obtain ⟨x0, x1, rfl⟩ : ∃ x0 x1, i = .sample x0 x1 := exists_sample_of_isSample hsample
      obtain ⟨s', u', ys, hs, hu, h', houts, houtu⟩ := h.exec_sample x0 x1
      obtain ⟨t, v, ht, hv, htv, hout⟩ := ih h' hrest
      refine ⟨t, v, (execAll_cons_of_next hs l).trans ht, ?_, htv, fun hno heq => ?_⟩
      · rw [List.filter_cons_of_pos hsample, execAll_cons_of_next hu, hv]
      · exact hout (by simpa [isRparam] using hno) (by rw [houts, houtu, heq])
    · obtain ⟨s', hs, hkeep, houts⟩ := exec_traffic htraffic (by simpa using hsample) s
      obtain ⟨t, v, ht, hv, htv, hout⟩ := ih (hkeep.trans h) hrest
      refine ⟨t, v, (execAll_cons_of_next hs l).trans ht, ?_, htv, fun hno heq => ?_⟩
      · rw [List.filter_cons_of_neg hsample, hv]
      · obtain ⟨hi, hl⟩ : isRparam i = false ∧ l.any isRparam = false := by simpa using hno
        exact hout hl ((houts hi).trans heq)

/-- Settles O37: the list and its samples alone start in the same state. -/
theorem parameterTrafficDoesNotReachTheBlock : Obligations.ParameterTrafficDoesNotReachTheBlock := by
  intro l s hall
  obtain ⟨t, u, ht, hu, h, hout⟩ := execAll_traffic l (.refl s) hall
  exact ⟨t, u, ht, hu, fun hno => hout hno rfl, h.eng, h.mem, h.blockRemain, h.snap⟩

end Sys2Proof.Machine
end

section

namespace Sys2Proof

/-! ### A command word is its four fields (30_encoding.md R100) -/

theorem toNat_opcField (cw : Word) : (opcField cw).toNat = cw.toNat / 2 ^ 28 := by
  have hcw := cw.isLt
  rw [opcField, BitVec.extractLsb'_toNat, Nat.shiftRight_eq_div_pow, Nat.mod_eq_of_lt (by omega)]

theorem toNat_rsvField (cw : Word) : (rsvField cw).toNat = cw.toNat / 2 ^ 24 % 2 ^ 4 := by
  rw [rsvField, BitVec.extractLsb'_toNat, Nat.shiftRight_eq_div_pow]

theorem toNat_idxField (cw : Word) : (idxField cw).toNat = cw.toNat / 2 ^ 16 % 2 ^ 8 := by
  rw [idxField, BitVec.extractLsb'_toNat, Nat.shiftRight_eq_div_pow]

theorem toNat_nField (cw : Word) : (nField cw).toNat = cw.toNat % 2 ^ 16 := by
  rw [nField, BitVec.extractLsb'_toNat, Nat.shiftRight_zero]

/-- The four fields leave no bit of a word out. -/
theorem eq_iff_fields {a b : Word} :
    a = b ↔ opcField a = opcField b ∧ rsvField a = rsvField b ∧ idxField a = idxField b ∧ nField a = nField b := by
  refine ⟨fun h => h ▸ ⟨rfl, rfl, rfl, rfl⟩, fun h => ?_⟩
  simp only [← BitVec.toNat_inj, toNat_opcField, toNat_rsvField, toNat_idxField, toNat_nField] at h ⊢
  omega

/-- The words of an opcode with both operand fields 0: the match column of the opcode table with a full mask (R102). -/
theorem eq_cmdWord_zero_iff {cw : Word} {opc : Opcode} :
    cw = cmdWord opc 0 0 ↔ opcField cw = opc.bits ∧ rsvField cw = 0#4 ∧ idxField cw = 0#8 ∧ nField cw = 0#16 := by
  rw [eq_iff_fields, opcField_cmdWord, rsvField_cmdWord, idxField_cmdWord, nField_cmdWord]

theorem opcField_and (a b : Word) : opcField (a &&& b) = opcField a &&& opcField b := BitVec.extractLsb'_and

theorem rsvField_and (a b : Word) : rsvField (a &&& b) = rsvField a &&& rsvField b := BitVec.extractLsb'_and

theorem idxField_and (a b : Word) : idxField (a &&& b) = idxField a &&& idxField b := BitVec.extractLsb'_and

theorem nField_and (a b : Word) : nField (a &&& b) = nField a &&& nField b := BitVec.extractLsb'_and

/-- The mask of WPARAM and RPARAM lets IDX vary (R102). -/
theorem and_idxMask_eq_cmdWord_iff {cw : Word} {opc : Opcode} :
    cw &&& 0xFF00FFFF#32 = cmdWord opc 0 0 ↔ opcField cw = opc.bits ∧ rsvField cw = 0#4 ∧ nField cw = 0#16 := by
  have hopc : opcField 0xFF00FFFF#32 = BitVec.allOnes 4 := rfl
  have hrsv : rsvField 0xFF00FFFF#32 = BitVec.allOnes 4 := rfl
  have hidx : idxField 0xFF00FFFF#32 = 0#8 := rfl
  have hn : nField 0xFF00FFFF#32 = BitVec.allOnes 16 := rfl
  simp only [eq_cmdWord_zero_iff, opcField_and, rsvField_and, idxField_and, nField_and, hopc, hrsv, hidx, hn,
    BitVec.and_allOnes, BitVec.and_zero, true_and]

/-- The mask of PROCESS lets N vary (R102). -/
theorem and_nMask_eq_cmdWord_iff {cw : Word} {opc : Opcode} :
    cw &&& 0xFFFF0000#32 = cmdWord opc 0 0 ↔ opcField cw = opc.bits ∧ rsvField cw = 0#4 ∧ idxField cw = 0#8 := by
  have hopc : opcField 0xFFFF0000#32 = BitVec.allOnes 4 := rfl
  have hrsv : rsvField 0xFFFF0000#32 = BitVec.allOnes 4 := rfl
  have hidx : idxField 0xFFFF0000#32 = BitVec.allOnes 8 := rfl
  have hn : nField 0xFFFF0000#32 = 0#16 := rfl
  simp only [eq_cmdWord_zero_iff, opcField_and, rsvField_and, idxField_and, nField_and, hopc, hrsv, hidx, hn,
    BitVec.and_allOnes, BitVec.and_zero, and_true]

/-! ### The command words that decode (30_encoding.md R101, R102, R104, R105) -/

/-- A command word that decodes is the encoding of its operands. -/
theorem eq_cmdWord_of_decodeWord {cw : Word} {opc : Opcode} {idx n : Nat} (h : decodeWord cw = .cmd opc idx n) :
    cw = cmdWord opc idx n := by
  obtain ⟨hopc, hrsv, -, -, rfl, rfl⟩ := decodeWord_cmd_fields h
  rw [eq_iff_fields, opcField_cmdWord, rsvField_cmdWord, idxField_cmdWord, nField_cmdWord, BitVec.ofNat_toNat,
    BitVec.ofNat_toNat]
  exact ⟨hopc, hrsv, (BitVec.setWidth_eq _).symm, (BitVec.setWidth_eq _).symm⟩

/-- The operands of a command word that decodes fit their fields, and are 0 where the opcode has none (R102). -/
theorem operands_of_decodeWord {cw : Word} {opc : Opcode} {idx n : Nat} (h : decodeWord cw = .cmd opc idx n) :
    idx < 256 ∧ n < 65536 ∧ (opc ≠ .wparam ∧ opc ≠ .rparam → idx = 0) ∧ (opc ≠ .process → n = 0) := by
  obtain ⟨-, -, hidx, hn, rfl, rfl⟩ := decodeWord_cmd_fields h
  refine ⟨toNat_idx_lt cw, toNat_n_lt cw, fun ⟨hw, hr⟩ => ?_, fun hp => ?_⟩
  · rw [hidx hw hr]; rfl
  · rw [hn hp]; rfl

/-- An opcode is decoded on exactly the words with its OPC field whose must-be-zero fields are 0 (R102, R104). -/
theorem exists_decodeWord_cmd_iff {cw : Word} {opc : Opcode} :
    (∃ idx n, decodeWord cw = .cmd opc idx n) ↔ opcField cw = opc.bits ∧ rsvField cw = 0#4 ∧
      (opc ≠ .wparam → opc ≠ .rparam → idxField cw = 0#8) ∧ (opc ≠ .process → nField cw = 0#16) := by
  constructor
  · rintro ⟨idx, n, h⟩
    obtain ⟨hopc, hrsv, hidx, hn, -, -⟩ := decodeWord_cmd_fields h
    exact ⟨hopc, hrsv, hidx, hn⟩
  · rintro ⟨hopc, hrsv, hidx, hn⟩
    refine ⟨(idxField cw).toNat, (nField cw).toNat, ?_⟩
    rw [decodeWord, hopc, opcodeOf_bits]
    simp only [hrsv, ne_eq, not_true_eq_false, if_false]
    rw [if_neg fun ⟨hw, hr, hne⟩ => hne (hidx hw hr), if_neg fun ⟨hp, hne⟩ => hne (hn hp)]

/-- An opcode with neither operand field is decoded on one word alone. -/
theorem exists_decodeWord_cmd_iff_eq {cw : Word} {opc : Opcode} (h : opc ≠ .wparam ∧ opc ≠ .rparam ∧ opc ≠ .process) :
    (∃ idx n, decodeWord cw = .cmd opc idx n) ↔ cw = cmdWord opc 0 0 := by
  obtain ⟨hw, hr, hp⟩ := h
  simp only [exists_decodeWord_cmd_iff, eq_cmdWord_zero_iff, hw, hr, hp, ne_eq, not_false_eq_true, true_implies]

theorem exists_decodeWord_cmd_iff_idxMask {cw : Word} {opc : Opcode} (h : opc = .wparam ∨ opc = .rparam) :
    (∃ idx n, decodeWord cw = .cmd opc idx n) ↔ cw &&& 0xFF00FFFF#32 = cmdWord opc 0 0 := by
  rw [exists_decodeWord_cmd_iff, and_idxMask_eq_cmdWord_iff]
  obtain rfl | rfl := h <;> simp

theorem exists_decodeWord_process_iff_nMask {cw : Word} :
    (∃ idx n, decodeWord cw = .cmd .process idx n) ↔ cw &&& 0xFFFF0000#32 = cmdWord .process 0 0 := by
  rw [exists_decodeWord_cmd_iff, and_nMask_eq_cmdWord_iff]
  simp

theorem opcodeOf_eq_none_iff {b : BitVec 4} : opcodeOf b = none ↔ 9 ≤ b.toNat := by
  revert b
  decide

/-- The reserved words are those of OPC 0x9 to 0xF, whatever their other bits (R101, R105). -/
theorem decodeWord_eq_reserved_iff {cw : Word} : decodeWord cw = .reserved ↔ 9 ≤ (opcField cw).toNat := by
  rw [← opcodeOf_eq_none_iff, decodeWord]
  cases opcodeOf (opcField cw) with
  | none => simp only
  | some opc =>
    simp only [reduceCtorEq, iff_false]
    split_ifs <;> simp

/-! ### Each command has one spelling (30_encoding.md R103, R105) -/

/-- The command that takes the data words behind a command word is written as that word and those data words, and its
operands are the word's. -/
theorem wf_and_encode_of_withData {opc : Opcode} {idx n : Nat} {ds rest : List Word} {i : Instr}
    (h : withData opc idx n ds = .cmd i rest) (hidx : idx < 256) (hn : n < 65536)
    (hidx0 : opc ≠ .wparam ∧ opc ≠ .rparam → idx = 0) (hn0 : opc ≠ .process → n = 0) :
    i.wf = true ∧ cmdWord opc idx n :: ds = encode i ++ rest := by
  cases opc with
  | wparam =>
    obtain rfl := hn0 (by decide)
    cases ds with
    | nil => cases h
    | cons v ds => cases h; exact ⟨decide_eq_true hidx, rfl⟩
  | rparam =>
    obtain rfl := hn0 (by decide)
    cases h; exact ⟨decide_eq_true hidx, rfl⟩
  | process =>
    obtain rfl := hidx0 (by decide)
    cases h; exact ⟨decide_eq_true hn, rfl⟩
  | config =>
    obtain rfl := hidx0 (by decide)
    obtain rfl := hn0 (by decide)
    cases ds with
    | nil => cases h
    | cons rate ds => cases h; exact ⟨rfl, rfl⟩
  | sample =>
    obtain rfl := hidx0 (by decide)
    obtain rfl := hn0 (by decide)
    match ds, h with
    | [], h | [_], h => cases h
    | _ :: _ :: _, h => cases h; exact ⟨rfl, rfl⟩
  | nop | activate | teardown | clrstat =>
    obtain rfl := hidx0 (by decide)
    obtain rfl := hn0 (by decide)
    cases h; exact ⟨rfl, rfl⟩

end Sys2Proof

namespace Sys2Proof.Machine

/-! ### The statements about the encoding (30_encoding.md R100 to R105, R111) -/

/-- Settles O8. -/
theorem decodeOfEncodeIsTheCommand : Obligations.DecodeOfEncodeIsTheCommand := fun _ ws hwf =>
  decode_encode_append hwf ws

/-- Settles O9: the head word is the encoding of its fields, and the data words behind it are the command's. -/
theorem decodedCommandHasOneSpelling : Obligations.DecodedCommandHasOneSpelling := by
  intro ws rest i h
  obtain ⟨cw, ds, opc, idx, n, rfl, hword, hdata⟩ := decode_cmd_cases h
  obtain ⟨hidx, hn, hidx0, hn0⟩ := operands_of_decodeWord hword
  rw [eq_cmdWord_of_decodeWord hword]
  exact wf_and_encode_of_withData hdata hidx hn hidx0 hn0

/-- Settles O10: each match column is its opcode's word with operands 0, and each mask column covers the fields that the
decoder compares. -/
theorem decoderMatchesOpcodeTable : Obligations.DecoderMatchesOpcodeTable := by
  intro cw
  refine ⟨exists_decodeWord_cmd_iff_eq (by decide), exists_decodeWord_cmd_iff_eq (by decide),
    exists_decodeWord_cmd_iff_eq (by decide), exists_decodeWord_cmd_iff_idxMask (.inl rfl),
    exists_decodeWord_cmd_iff_idxMask (.inr rfl), exists_decodeWord_process_iff_nMask,
    exists_decodeWord_cmd_iff_eq (by decide), exists_decodeWord_cmd_iff_eq (by decide),
    exists_decodeWord_cmd_iff_eq (by decide), fun opc i n h => ?_, ?_⟩
  · obtain ⟨-, -, -, -, hi, hn⟩ := decodeWord_cmd_fields h
    exact ⟨hi, hn⟩
  · rw [decodeWord_eq_reserved_iff, toNat_opcField]
    omega

/-- Settles O7: four examples are encodings, which decode to their commands; the other two are rejected words. -/
theorem specExampleWordsDecode : Obligations.SpecExampleWordsDecode :=
  ⟨decode_encode_append (i := .process 256) rfl [], decode_encode_append (i := .wparam 3 0x42480000#32) rfl [],
    decode_encode_append (i := .rparam 0x41) rfl [],
    decode_encode_append (i := .sample 0x3F800000#32 0x00000000#32) rfl [], by decide, by decide, rfl, rfl, rfl, rfl⟩

end Sys2Proof.Machine
end

section

namespace Sys2Proof.Machine

/-! ### One call of a biquad: warming up, then filtering (41_biquad.md R132, R136) -/

theorem biquadOut_of_warmingUp {F : Biquad} (h : F.fill < 3) (k : Coeffs) (x : Word) : biquadOut k F x = x := if_pos h

theorem biquadOut_of_filled {F : Biquad} (h : 3 ≤ F.fill) (k : Coeffs) (x : Word) :
    biquadOut k F x = biquadEq k F x := if_neg (Nat.not_lt.mpr h)

theorem biquadNext_of_warmingUp {F : Biquad} (h : F.fill < 3) (x y : Word) :
    biquadNext F x y = ⟨x, F.x1, y, F.y1, F.fill + 1⟩ := by rw [biquadNext, if_pos h]

theorem biquadNext_of_filled {F : Biquad} (h : 3 ≤ F.fill) (x y : Word) :
    biquadNext F x y = ⟨x, F.x1, y, F.y1, F.fill⟩ := by rw [biquadNext, if_neg (Nat.not_lt.mpr h)]

/-- A warm-up call records its input in both histories. -/
theorem biquadNext_biquadOut_of_warmingUp {F : Biquad} (h : F.fill < 3) (k : Coeffs) (x : Word) :
    biquadNext F x (biquadOut k F x) = ⟨x, F.x1, x, F.y1, F.fill + 1⟩ := by
  rw [biquadOut_of_warmingUp h, biquadNext_of_warmingUp h]

/-- From reset, the three warm-up calls one after the other (R132, R138). -/
theorem biquad_warmUp (k : Coeffs) (a b d : Word) :
    biquadNext Biquad.zero a (biquadOut k Biquad.zero a) = ⟨a, 0#32, a, 0#32, 1⟩ ∧
    biquadNext ⟨a, 0#32, a, 0#32, 1⟩ b (biquadOut k ⟨a, 0#32, a, 0#32, 1⟩ b) = ⟨b, a, b, a, 2⟩ ∧
    biquadNext ⟨b, a, b, a, 2⟩ d (biquadOut k ⟨b, a, b, a, 2⟩ d) = ⟨d, b, d, b, 3⟩ :=
  ⟨biquadNext_biquadOut_of_warmingUp (by decide) k a, biquadNext_biquadOut_of_warmingUp (by decide : 1 < 3) k b,
    biquadNext_biquadOut_of_warmingUp (by decide : 2 < 3) k d⟩

/-! ### A filter site calls its own biquad, and only while it is on (46_mixer_limiter.md R239) -/

@[simp] theorem Engine.setFilt_filt_same (e : Engine) (t : Site) (ch : Chan) (F : Biquad) :
    ((e.setFilt t ch F).filt.get t).get ch = F := by simp [Engine.setFilt]

theorem Engine.setFilt_filt_other (e : Engine) {t u : Site} {ch d : Chan} (F : Biquad) (h : u ≠ t ∨ d ≠ ch) :
    ((e.setFilt t ch F).filt.get u).get d = (e.filt.get u).get d := by
  rw [Engine.setFilt]
  by_cases hu : u = t
  · subst hu
    have hd : d ≠ ch := h.resolve_left (absurd rfl)
    rw [Sites.get_set_same, Pair.get_set_other _ _ hd]
  · rw [Sites.get_set_other _ _ hu]

section
variable {sn : Snapshot} {t : Site} (c : Constants) (ch : Chan) (e : Engine) (x : Word)

theorem siteOut_of_off (h : sn.on.get t = false) : siteOut c sn t ch e x = x := by simp [siteOut, h]

theorem siteOut_of_on (h : sn.on.get t = true) :
    siteOut c sn t ch e x = biquadOut (siteCoeffs c sn t) ((e.filt.get t).get ch) x := if_pos h

theorem siteNext_of_off (h : sn.on.get t = false) : siteNext c sn t ch e x = e := by simp [siteNext, h]

theorem siteNext_of_on (h : sn.on.get t = true) :
    siteNext c sn t ch e x = e.setFilt t ch (biquadNext ((e.filt.get t).get ch) x (siteOut c sn t ch e x)) := if_pos h

/-- A site on one channel leaves the other seven biquads as they are (R130, R131). -/
theorem siteNext_filt_other (sn : Snapshot) {u : Site} {d : Chan} (h : u ≠ t ∨ d ≠ ch) :
    ((siteNext c sn t ch e x).filt.get u).get d = (e.filt.get u).get d := by
  cases hon : sn.on.get t with
  | false => rw [siteNext_of_off c ch e x hon]
  | true => rw [siteNext_of_on c ch e x hon, Engine.setFilt_filt_other e _ h]

end

/-! ### The coefficients (41_biquad.md R133 to R135) -/

theorem isHighCut_iff {t : Site} : isHighCut t = true ↔ t = .ihc ∨ t = .fhc := by cases t <;> decide

theorem isHighCut_eq_false_iff {t : Site} : isHighCut t = false ↔ t = .ilc ∨ t = .flc := by cases t <;> decide

/-- The constant `-2.0` of R135. -/
theorem fNeg_fTwo : fNeg fTwo = 0xC0000000#32 := by decide

/-- R133's numerator over R135's `a0`. -/
theorem coeffsOf_highCut (cs sn q : Word) :
    let a0 := fAdd fOne (fDiv sn (fMul fTwo q))
    coeffsOf true cs sn q =
      ⟨fDiv (fDiv (fSub fOne cs) fTwo) a0, fDiv (fSub fOne cs) a0, fDiv (fDiv (fSub fOne cs) fTwo) a0,
        fDiv (fMul 0xC0000000#32 cs) a0, fDiv (fSub fOne (fDiv sn (fMul fTwo q))) a0⟩ := by
  simp only [coeffsOf, numer0, numer1, fNeg_fTwo, if_true]

/-- R134's numerator over R135's `a0`. -/
theorem coeffsOf_lowCut (cs sn q : Word) :
    let a0 := fAdd fOne (fDiv sn (fMul fTwo q))
    coeffsOf false cs sn q =
      ⟨fDiv (fDiv (fAdd fOne cs) fTwo) a0, fDiv (fNeg (fAdd fOne cs)) a0, fDiv (fDiv (fAdd fOne cs) fTwo) a0,
        fDiv (fMul 0xC0000000#32 cs) a0, fDiv (fSub fOne (fDiv sn (fMul fTwo q))) a0⟩ := by
  simp only [coeffsOf, numer0, numer1, fNeg_fTwo, Bool.false_eq_true, if_false]

/-- Settles O56: a call either warms up or filters, a site either calls its own biquad or holds it, and its variant
picks the numerator. -/
theorem biquadWarmUpAndBypass : Obligations.BiquadWarmUpAndBypass := by
  refine ⟨fun k a b d x => ?_, fun c sn t ch e x hoff => ?_,
    fun c sn _ _ ch _ e x h => siteNext_filt_other c ch e x sn h,
    fun c sn t ch e x hon => ?_, fun k F x hfill => ?_, fun c sn t => ⟨fun h => ?_, fun h => ?_⟩⟩
  · obtain ⟨h1, h2, h3⟩ := biquad_warmUp k a b d
    simp only [h1, h2, h3]
    exact ⟨biquadOut_of_warmingUp (by decide) k a, biquadOut_of_warmingUp (by decide : 1 < 3) k b,
      biquadOut_of_warmingUp (by decide : 2 < 3) k d, trivial, biquadOut_of_filled le_rfl k x,
      congrArg Biquad.fill (biquadNext_of_filled le_rfl x _)⟩
  · exact ⟨siteOut_of_off c ch e x hoff, siteNext_of_off c ch e x hoff⟩
  · exact ⟨siteOut_of_on c ch e x hon, by rw [siteNext_of_on c ch e x hon, Engine.setFilt_filt_same]⟩
  · exact ⟨biquadOut_of_filled hfill k x, biquadNext_of_filled hfill x _⟩
  · rw [siteCoeffs, isHighCut_iff.mpr h]
    exact coeffsOf_highCut _ _ _
  · rw [siteCoeffs, isHighCut_eq_false_iff.mpr h]
    exact coeffsOf_lowCut _ _ _

end Sys2Proof.Machine
end

section

namespace Sys2Proof.Machine

/-! ### The buffer write (42_delay_buffer.md R150) -/

/-- Settles O53: a buffer write is the word write at `i mod C`. -/
theorem bufWriteStoresOneWord : Obligations.BufWriteStoresOneWord :=
  fun _ m ch _ v hwf => ⟨Memory.readWord_writeWord_same ch _ v hwf,
    fun _ _ hbyte => Memory.readByte_writeWord_other m v hbyte,
    fun _ _ hword => Memory.readWord_writeWord_other m v hword⟩

end Sys2Proof.Machine
end

section

namespace Sys2Proof.Machine

/-! ### Signed sums lie between the patterns that bound the exact sum (00_scope.md R14) -/

theorem fZero_value : isFinite fZero = true ∧ fVal fZero = 0 := by decide

theorem fHalf_value : isFinite fHalf = true ∧ fVal fHalf = 2 ^ 148 := by decide +kernel

theorem natAbs_fVal (w : Word) : (fVal w).natAbs = fMag w := by
  unfold fVal
  split <;> omega

theorem isFinite_iff_natAbs_lt {w : Word} : isFinite w = true ↔ (fVal w).natAbs < 2 ^ 277 := by
  rw [natAbs_fVal, isFinite_iff_fMag_lt, ← pow_add]

@[simp] theorem isFinite_fNeg (x : Word) : isFinite (fNeg x) = isFinite x := by rw [isFinite, isFinite, fBits_fNeg]

theorem fLe_iff_fVal {a b : Word} (ha : isFinite a = true) (hb : isFinite b = true) :
    fLe a b = true ↔ fVal a ≤ fVal b := by
  simp [fLe, isNaN_eq_false_of_isFinite ha, isNaN_eq_false_of_isFinite hb]

theorem fLt_iff_fVal {a b : Word} (ha : isFinite a = true) (hb : isFinite b = true) :
    fLt a b = true ↔ fVal a < fVal b := by
  simp [fLt, isNaN_eq_false_of_isFinite ha, isNaN_eq_false_of_isFinite hb]

theorem fLt_eq_false_of_fLe {a b : Word} (h : fLe b a = true) : fLt a b = false :=
  Bool.eq_false_iff.mpr fun hlt => (fLt_iff.mp hlt).2.2.not_ge (fLe_iff.mp h).2.2

theorem fGe_eq_false_of_fLt {a b : Word} (h : fLt a b = true) : fGe a b = false :=
  Bool.eq_false_iff.mpr fun hge => (fLt_iff.mp h).2.2.not_ge (fLe_iff.mp hge).2.2

/-- A value other than zero has one pattern. -/
theorem eq_of_fVal_eq {a b : Word} (h : fVal a = fVal b) (h0 : fVal a ≠ 0) : a = b := by
  have hmag : fMag a = fMag b := by rw [← natAbs_fVal, h, natAbs_fVal]
  have hbits : fBits a = fBits b := magBits_strictMono.injective hmag
  have hsign : fSign a = fSign b := by
    unfold fVal at h h0
    split_ifs at h h0 with ha hb hb
    · rw [ha, hb]
    · omega
    · omega
    · rw [Bool.not_eq_true] at ha hb
      rw [ha, hb]
  exact BitVec.eq_of_toNat_eq (by rw [toNat_eq, toNat_eq b, hsign, hbits])

/-- Rounding does not pass a pattern from above. -/
theorem le_roundMag {n d b : Nat} (hd : 0 < d) (hb : b ≤ 0x7F800000) (h : magBits b * d ≤ n) : b ≤ roundMag n d := by
  have hlt : magBits b < magBits (roundDown n d + 1) :=
    lt_of_mul_lt_mul_right (h.trans_lt (roundDown_brackets n hd).2) hd.le
  rw [magBits_strictMono.lt_iff_lt] at hlt
  rcases roundMag_eq_or n d with hr | hr <;> omega

/-- The value that a sum of `s` units of 2^-149 rounds to. -/
def signedRound (s : ℤ) : ℤ := if s < 0 then -(roundVal s.natAbs 1) else roundVal s.natAbs 1

theorem signedRound_neg (s : ℤ) : signedRound (-s) = -signedRound s := by
  unfold signedRound
  rw [Int.natAbs_neg]
  rcases lt_trichotomy s 0 with h | rfl | h
  · rw [if_pos h, if_neg (by omega), neg_neg]
  · simp
  · rw [if_neg h.not_gt, if_pos (by omega)]

theorem addNumbers_value {a b : Word} (ha : isFinite a = true) (hb : isFinite b = true) :
    fVal (addNumbers a b) = signedRound (fVal a + fVal b) := by
  rw [addNumbers, isInf_eq_false_of_isFinite ha, isInf_eq_false_of_isFinite hb, if_neg Bool.false_ne_true,
    if_neg Bool.false_ne_true]
  by_cases h0 : fVal a + fVal b = 0
  · have hzero : fVal (if fSign a && fSign b then fNegZero else fZero) = 0 := by split <;> decide
    rw [if_pos h0, hzero, h0]
    simp [signedRound]
  · rw [if_neg h0, fVal_fPack _ ((roundMag_le _ _).trans_lt (by omega))]
    simp only [signedRound, roundVal, decide_eq_true_eq]

theorem fAdd_value {a b : Word} (ha : isFinite a = true) (hb : isFinite b = true) :
    fVal (fAdd a b) = signedRound (fVal a + fVal b) := by
  have hadd : fAdd a b = addNumbers a b := by
    simp [fAdd, isNaN_eq_false_of_isFinite ha, isNaN_eq_false_of_isFinite hb, isInf_eq_false_of_isFinite ha]
  rw [hadd, addNumbers_value ha hb]

/-- Rounding does not pass a finite pattern of either sign from below. -/
theorem signedRound_le {s : ℤ} {x : Word} (hx : isFinite x = true) (h : s ≤ fVal x) : signedRound s ≤ fVal x := by
  have hbits : fBits x < 0x7F800000 := of_decide_eq_true hx
  have hmag := fMag_eq_magBits x
  have hval := natAbs_fVal x
  unfold signedRound
  split
  · next hneg =>
    rcases lt_or_ge (fVal x) 0 with hxneg | hxpos
    · have hle : magBits (fBits x) ≤ roundVal s.natAbs 1 :=
        magBits_strictMono.monotone (le_roundMag one_pos hbits.le (by omega))
      omega
    · omega
  · next hpos =>
    have hle : roundVal s.natAbs 1 ≤ magBits (fBits x) := roundVal_le one_pos (by omega)
    omega

/-- Rounding does not pass a finite pattern of either sign from above. -/
theorem le_signedRound {s : ℤ} {x : Word} (hx : isFinite x = true) (h : fVal x ≤ s) : fVal x ≤ signedRound s := by
  have hneg : signedRound (-s) ≤ fVal (fNeg x) :=
    signedRound_le (by rw [isFinite_fNeg, hx]) (by rw [fVal_fNeg]; omega)
  rw [signedRound_neg, fVal_fNeg] at hneg
  omega

/-- A sum between two finite patterns is a finite one between them. -/
theorem fAdd_mem {a b x y : Word} (ha : isFinite a = true) (hb : isFinite b = true) (hx : isFinite x = true)
    (hy : isFinite y = true) (hlo : fVal x ≤ fVal a + fVal b) (hhi : fVal a + fVal b ≤ fVal y) :
    isFinite (fAdd a b) = true ∧ fVal x ≤ fVal (fAdd a b) ∧ fVal (fAdd a b) ≤ fVal y := by
  have hval := fAdd_value ha hb
  have hge := le_signedRound hx hlo
  have hle := signedRound_le hy hhi
  rw [← hval] at hge hle
  rw [isFinite_iff_natAbs_lt] at hx hy
  exact ⟨isFinite_iff_natAbs_lt.mpr (by omega), hge, hle⟩

/-- A sum that is a finite pattern's value is exact. -/
theorem fAdd_exact {a b x : Word} (ha : isFinite a = true) (hb : isFinite b = true) (hx : isFinite x = true)
    (h : fVal a + fVal b = fVal x) : isFinite (fAdd a b) = true ∧ fVal (fAdd a b) = fVal x := by
  obtain ⟨hfin, hlo, hhi⟩ := fAdd_mem ha hb hx hx h.ge h.le
  exact ⟨hfin, hhi.antisymm hlo⟩

theorem fSub_eq_fAdd_fNeg {a b : Word} (ha : isFinite a = true) (hb : isFinite b = true) :
    fSub a b = fAdd a (fNeg b) := by
  have hnb : isNaN (fNeg b) = false := isNaN_eq_false_of_isFinite (by rw [isFinite_fNeg, hb])
  simp [fSub, fAdd, isNaN_eq_false_of_isFinite ha, isNaN_eq_false_of_isFinite hb, isInf_eq_false_of_isFinite ha, hnb]

theorem fSub_mem {a b x y : Word} (ha : isFinite a = true) (hb : isFinite b = true) (hx : isFinite x = true)
    (hy : isFinite y = true) (hlo : fVal x ≤ fVal a - fVal b) (hhi : fVal a - fVal b ≤ fVal y) :
    isFinite (fSub a b) = true ∧ fVal x ≤ fVal (fSub a b) ∧ fVal (fSub a b) ≤ fVal y := by
  have hneg := fVal_fNeg b
  rw [fSub_eq_fAdd_fNeg ha hb]
  exact fAdd_mem ha (by rw [isFinite_fNeg, hb]) hx hy (by omega) (by omega)

theorem fSub_exact {a b x : Word} (ha : isFinite a = true) (hb : isFinite b = true) (hx : isFinite x = true)
    (h : fVal a - fVal b = fVal x) : isFinite (fSub a b) = true ∧ fVal (fSub a b) = fVal x := by
  obtain ⟨hfin, hlo, hhi⟩ := fSub_mem ha hb hx hx h.ge h.le
  exact ⟨hfin, hhi.antisymm hlo⟩

theorem isFinite_subtrahend_of_isFinite_fSub {a b : Word} (h : isFinite (fSub a b) = true) : isFinite b = true := by
  unfold fSub at h
  split_ifs at h with hn
  · rw [isFinite_fNaN] at h
    cases h
  · simp only [Bool.or_eq_true, not_or, Bool.not_eq_true] at hn
    have hnb : isNaN (fNeg b) = false := by
      rw [isNaN, fBits_fNeg]
      exact hn.1.2
    rw [← isFinite_fNeg]
    exact (isFinite_of_isFinite_addNumbers hn.1.1 hnb h).2

/-- A zero times a finite value is a zero, of either sign. -/
theorem fMul_of_fVal_eq_zero {a b : Word} (ha : isFinite a = true) (hb : isFinite b = true) (h : fVal a = 0) :
    isFinite (fMul a b) = true ∧ fVal (fMul a b) = 0 := by
  have hround : roundMag (fMag a * fMag b) (2 ^ 149) = 0 := by
    rw [← natAbs_fVal a, h]
    simp [roundMag]
  have hmul : fMul a b = fPack (fSign a != fSign b) 0 := by
    simp [fMul, isNaN_eq_false_of_isFinite ha, isNaN_eq_false_of_isFinite hb, isInf_eq_false_of_isFinite ha,
      isInf_eq_false_of_isFinite hb, ← hround]
  rw [hmul]
  cases fSign a != fSign b <;> decide

/-! ### Exact conversions of a read position (R10, R153, R160) -/

/-- A significand of up to 24 bits at a normal scale is the value of finite magnitude bits. -/
theorem exists_magBits_eq_mul_pow {n s : Nat} (h : n ≤ 2 ^ 24) (hlo : 23 ≤ s) (hhi : s ≤ 252) :
    ∃ b, b < 0x7F800000 ∧ magBits b = n * 2 ^ s := by
  rcases Nat.eq_zero_or_pos n with rfl | hpos
  · exact ⟨0, by omega, (zero_mul _).symm⟩
  obtain ⟨k, hk, hsig, hsig'⟩ := exists_shift_into_significand hpos h
  refine ⟨(s - k) * 2 ^ 23 + n * 2 ^ k, by omega, ?_⟩
  rw [magBits_scaled (.inr hsig) hsig', mul_assoc, ← pow_add]
  congr 2
  omega

/-- `f32(2 * C)` is exact too: the doubled capacity has the capacity's significand. -/
theorem fOfNat_double_exact {n : Nat} (h : n ≤ 2 ^ 24) :
    isFinite (fOfNat (2 * n)) = true ∧ fVal (fOfNat (2 * n)) = 2 * (n * 2 ^ 149) := by
  obtain ⟨b, hb, hval⟩ := exists_magBits_eq_mul_pow (s := 150) h (by omega) (by omega)
  have hunits : 2 * n * 2 ^ 149 = magBits b * 1 := by omega
  rw [fOfNat, hunits, roundMag_exact b one_pos, Nat.min_eq_left hb.le, fVal_fPack false (by omega), hval]
  exact ⟨isFinite_fPack false hb, by push_cast; ring⟩

/-- A position half way behind a word below 2^23 is exact. -/
theorem fAdd_half_exact {k : Nat} (h : k < 2 ^ 23) :
    isFinite (fAdd (fOfNat k) fHalf) = true ∧ fVal (fAdd (fOfNat k) fHalf) = (2 * k + 1) * 2 ^ 148 := by
  obtain ⟨b, hb, hval⟩ := exists_magBits_eq_mul_pow (n := 2 * k + 1) (s := 148) (by omega) (by omega) (by omega)
  obtain ⟨hkf, hkv⟩ := fOfNat_exact (n := k) (by omega)
  obtain ⟨hhf, hhv⟩ := fHalf_value
  have hx : fVal (fPack false b) = (2 * k + 1) * 2 ^ 148 := by
    rw [fVal_fPack false (by omega), hval]
    push_cast
    rfl
  rw [← hx]
  exact fAdd_exact hkf hhf (isFinite_fPack false hb) (by rw [hx, hkv, hhv]; ring)

end Sys2Proof.Machine
end

section

namespace Sys2Proof.Machine

/-! ### The wrap of a read position (42_delay_buffer.md R153, R154) -/

theorem wrapUp_of_nonneg {q : Word} (h : fLe fZero q = true) (n : Nat) (capF : Word) : wrapUp n capF q = q := by
  cases n with
  | zero => rfl
  | succ n => rw [wrapUp, fLt_eq_false_of_fLe h, if_neg Bool.false_ne_true]

theorem wrapUp_of_neg {q : Word} (h : fLt q fZero = true) (n : Nat) (capF : Word) :
    wrapUp (n + 1) capF q = wrapUp n capF (fAdd q capF) := if_pos h

theorem wrapDown_of_lt {q capF : Word} (h : fLt q capF = true) (n : Nat) : wrapDown n capF q = q := by
  cases n with
  | zero => rfl
  | succ n => rw [wrapDown, fGe_eq_false_of_fLt h, if_neg Bool.false_ne_true]

theorem wrapDown_of_ge {q capF : Word} (h : fLe capF q = true) (n : Nat) :
    wrapDown (n + 1) capF q = wrapDown n capF (fSub q capF) := if_pos h

/-- The loops run twice at least, which is all that R154's positions need. -/
theorem exists_wrapFuel_eq : ∃ n, wrapFuel = n + 2 := ⟨2 ^ 27 - 2, rfl⟩

/-- A position in [0, C) is where it is. -/
theorem wrapPosition_of_mem {c : Constants} {p : Word} (h0 : fLe fZero p = true) (h : fLt p (fOfNat c.cap) = true) :
    wrapPosition c p = p := by
  rw [wrapPosition, wrapUp_of_nonneg h0, wrapDown_of_lt h]

/-- A negative position that one lap brings into [0, C). -/
theorem wrapPosition_of_neg {c : Constants} {p : Word} (hneg : fLt p fZero = true)
    (h0 : fLe fZero (fAdd p (fOfNat c.cap)) = true) (h : fLt (fAdd p (fOfNat c.cap)) (fOfNat c.cap) = true) :
    wrapPosition c p = fAdd p (fOfNat c.cap) := by
  obtain ⟨n, hn⟩ := exists_wrapFuel_eq
  rw [wrapPosition, hn, wrapUp_of_neg hneg, wrapUp_of_nonneg h0, wrapDown_of_lt h]

/-- A position from C on that one lap brings into [0, C). -/
theorem wrapPosition_of_ge {c : Constants} {p : Word} (hp : fLe fZero p = true) (hge : fLe (fOfNat c.cap) p = true)
    (h : fLt (fSub p (fOfNat c.cap)) (fOfNat c.cap) = true) : wrapPosition c p = fSub p (fOfNat c.cap) := by
  obtain ⟨n, hn⟩ := exists_wrapFuel_eq
  rw [wrapPosition, hn, wrapUp_of_nonneg hp, wrapDown_of_ge hge, wrapDown_of_lt h]

section
variable {capF q : Word} (hcap : isFinite capF = true) (hpos : 0 < fVal capF) (hq : isFinite q = true)
include hcap hpos hq

/-- Two laps up bring a position of at least -2C to 0 or above. The last lap may round up to C (V-RD row 10). -/
theorem wrapUp_mem (n : Nat) (hlo : -(2 * fVal capF) ≤ fVal q) (hhi : fVal q ≤ 2 * fVal capF) :
    isFinite (wrapUp (n + 2) capF q) = true ∧ 0 ≤ fVal (wrapUp (n + 2) capF q) ∧
      fVal (wrapUp (n + 2) capF q) ≤ 2 * fVal capF := by
  obtain ⟨hzf, hzv⟩ := fZero_value
  have hnegf : isFinite (fNeg capF) = true := by rw [isFinite_fNeg, hcap]
  have hnegv := fVal_fNeg capF
  rcases le_or_gt 0 (fVal q) with h0 | h0
  · rw [wrapUp_of_nonneg ((fLe_iff_fVal hzf hq).mpr (by omega))]
    exact ⟨hq, h0, hhi⟩
  rw [wrapUp_of_neg ((fLt_iff_fVal hq hzf).mpr (by omega))]
  obtain ⟨hq1, hlo1, hhi1⟩ := fAdd_mem hq hcap hnegf hcap (by omega) (by omega)
  rcases le_or_gt 0 (fVal (fAdd q capF)) with h1 | h1
  · rw [wrapUp_of_nonneg ((fLe_iff_fVal hzf hq1).mpr (by omega))]
    exact ⟨hq1, h1, by omega⟩
  rw [wrapUp_of_neg ((fLt_iff_fVal hq1 hzf).mpr (by omega))]
  obtain ⟨hq2, hlo2, hhi2⟩ := fAdd_mem hq1 hcap hzf hcap (by omega) (by omega)
  rw [wrapUp_of_nonneg ((fLe_iff_fVal hzf hq2).mpr hlo2)]
  exact ⟨hq2, by omega, by omega⟩

/-- Two laps down bring a position of at most 2C below C: the second takes C itself to 0. -/
theorem wrapDown_mem (n : Nat) (hlo : 0 ≤ fVal q) (hhi : fVal q ≤ 2 * fVal capF) :
    isFinite (wrapDown (n + 2) capF q) = true ∧ 0 ≤ fVal (wrapDown (n + 2) capF q) ∧
      fVal (wrapDown (n + 2) capF q) < fVal capF := by
  obtain ⟨hzf, hzv⟩ := fZero_value
  rcases lt_or_ge (fVal q) (fVal capF) with h0 | h0
  · rw [wrapDown_of_lt ((fLt_iff_fVal hq hcap).mpr h0)]
    exact ⟨hq, hlo, h0⟩
  rw [wrapDown_of_ge ((fLe_iff_fVal hcap hq).mpr h0)]
  obtain ⟨hq1, hlo1, hhi1⟩ := fSub_mem hq hcap hzf hcap (by omega) (by omega)
  rcases lt_or_ge (fVal (fSub q capF)) (fVal capF) with h1 | h1
  · rw [wrapDown_of_lt ((fLt_iff_fVal hq1 hcap).mpr h1)]
    exact ⟨hq1, by omega, h1⟩
  rw [wrapDown_of_ge ((fLe_iff_fVal hcap hq1).mpr h1)]
  obtain ⟨hq2, hzero⟩ := fSub_exact hq1 hcap hzf (by omega)
  rw [wrapDown_of_lt ((fLt_iff_fVal hq2 hcap).mpr (by omega))]
  exact ⟨hq2, by omega, by omega⟩

end

theorem readInterp_of_mem {c : Constants} {p : Word} (m : Memory) (ch : Chan)
    (h0 : fLe fZero (wrapPosition c p) = true) (h : fLt (wrapPosition c p) (fOfNat c.cap) = true) :
    readInterp c m ch p = interpolate c m ch (wrapPosition c p) := by
  simp only [readInterp, h0, h, Bool.and_true, if_true]

/-- Settles O52: two laps up, then two laps down. -/
theorem readWrapsIntoTheBuffer : Obligations.ReadWrapsIntoTheBuffer := by
  intro c m ch p hpos hcap hlo hhi
  obtain ⟨hFf, hFv⟩ := fOfNat_exact hcap
  obtain ⟨hDf, hDv⟩ := fOfNat_double_exact hcap
  have hnp := isNaN_eq_false_of_fLe_left hhi
  have hneg := fVal_fNeg (fOfNat (2 * c.cap))
  have hp : -(2 * fVal (fOfNat c.cap)) ≤ fVal p ∧ fVal p ≤ 2 * fVal (fOfNat c.cap) := by
    simp only [fLe, Bool.and_eq_true, decide_eq_true_iff] at hlo hhi
    omega
  have hpf : isFinite p = true := isFinite_iff_natAbs_lt.mpr (by omega)
  have hFpos : 0 < fVal (fOfNat c.cap) := by omega
  obtain ⟨n, hn⟩ := exists_wrapFuel_eq
  obtain ⟨huf, hu0, hu⟩ := wrapUp_mem hFf hFpos hpf n hp.1 hp.2
  obtain ⟨hdf, hd0, hd⟩ := wrapDown_mem hFf hFpos huf n hu0 hu
  rw [← hn] at hdf hd0 hd
  obtain ⟨hzf, hzv⟩ := fZero_value
  have hwrap0 : fLe fZero (wrapPosition c p) = true := (fLe_iff_fVal hzf hdf).mpr (hzv ▸ hd0)
  have hwrap : fLt (wrapPosition c p) (fOfNat c.cap) = true := (fLt_iff_fVal hdf hFf).mpr hd
  exact ⟨hwrap0, hwrap, readInterp_of_mem m ch hwrap0 hwrap⟩

/-! ### The interpolation (42_delay_buffer.md R153, R159) -/

theorem interpolate_of_floor {c : Constants} {q : Word} {k : Nat} (hfloor : fFloor q = k) (hk : k < c.cap)
    (m : Memory) (ch : Chan) :
    interpolate c m ch q = fAdd (m.readWord ch k)
      (fMul (fSub q (fOfNat k)) (fSub (m.readWord ch ((k + 1) % c.cap)) (m.readWord ch k))) := by
  simp only [interpolate, hfloor, Int.toNat_natCast, Nat.mod_eq_of_lt hk]

/-- The word index of a position in [0, C). -/
theorem exists_fFloor_eq {cap : Nat} (hcap : cap ≤ 2 ^ 24) {q : Word} (h0 : fLe fZero q = true)
    (h : fLt q (fOfNat cap) = true) : ∃ k : Nat, fFloor q = k ∧ k < cap := by
  obtain ⟨hFf, hFv⟩ := fOfNat_exact hcap
  have hval := (fLe_fZero_iff.mp h0).2
  have hlt : fVal q < fVal (fOfNat cap) := by
    simp only [fLt, Bool.and_eq_true, decide_eq_true_iff] at h
    omega
  have hqf : isFinite q = true := isFinite_iff_natAbs_lt.mpr (by omega)
  refine ⟨fMag q / 2 ^ 149, ?_, by omega⟩
  rw [fFloor, if_pos hqf, hval]
  push_cast
  rfl

section
variable {c : Constants} {k : Nat} (hk : k < c.cap) (hcap : c.cap ≤ 2 ^ 24)
include hk hcap

/-- A value that is a word index lies in [0, C). -/
theorem mem_of_fVal_eq_index {q : Word} (hqf : isFinite q = true) (hqv : fVal q = k * 2 ^ 149) :
    fLe fZero q = true ∧ fLt q (fOfNat c.cap) = true := by
  obtain ⟨hFf, hFv⟩ := fOfNat_exact hcap
  obtain ⟨hzf, hzv⟩ := fZero_value
  exact ⟨(fLe_iff_fVal hzf hqf).mpr (by omega), (fLt_iff_fVal hqf hFf).mpr (by omega)⟩

/-- At a position that wraps to a word index the fraction is a zero, and the read is the word's value. -/
theorem fVal_readInterp_of_index {m : Memory} {ch : Chan} {p : Word}
    (hdiff : isFinite (fSub (m.readWord ch ((k + 1) % c.cap)) (m.readWord ch k)) = true)
    (hqf : isFinite (wrapPosition c p) = true) (hqv : fVal (wrapPosition c p) = k * 2 ^ 149) :
    fVal (readInterp c m ch p) = fVal (m.readWord ch k) := by
  obtain ⟨hq0, hq⟩ := mem_of_fVal_eq_index hk hcap hqf hqv
  obtain ⟨hkf, hkv⟩ := fOfNat_exact (hk.le.trans hcap)
  obtain ⟨hzf, hzv⟩ := fZero_value
  obtain ⟨hff, hfv⟩ := fSub_exact hqf hkf hzf (by omega)
  obtain ⟨hmf, hmv⟩ := fMul_of_fVal_eq_zero hff hdiff (hfv.trans hzv)
  have hword := isFinite_subtrahend_of_isFinite_fSub hdiff
  rw [readInterp_of_mem m ch hq0 hq, interpolate_of_floor (fFloor_of_fVal hqf hqv) hk]
  exact (fAdd_exact hword hmf hword (by omega)).2

theorem wrapPosition_index : wrapPosition c (fOfNat k) = fOfNat k := by
  obtain ⟨hkf, hkv⟩ := fOfNat_exact (hk.le.trans hcap)
  obtain ⟨h0, h⟩ := mem_of_fVal_eq_index hk hcap hkf hkv
  exact wrapPosition_of_mem h0 h

/-- One capacity above a word index wraps down to it. -/
theorem wrapPosition_index_above (hsum : k + c.cap ≤ 2 ^ 24) :
    isFinite (wrapPosition c (fOfNat (k + c.cap))) = true ∧
      fVal (wrapPosition c (fOfNat (k + c.cap))) = k * 2 ^ 149 := by
  obtain ⟨hkf, hkv⟩ := fOfNat_exact (hk.le.trans hcap)
  obtain ⟨hFf, hFv⟩ := fOfNat_exact hcap
  obtain ⟨hpf, hpv⟩ := fOfNat_exact hsum
  obtain ⟨hzf, hzv⟩ := fZero_value
  obtain ⟨hqf, hqv⟩ := fSub_exact hpf hFf hkf (by rw [hpv, hFv, hkv]; push_cast; ring)
  rw [hkv] at hqv
  have hp0 : fLe fZero (fOfNat (k + c.cap)) = true := (fLe_iff_fVal hzf hpf).mpr (by omega)
  have hge : fLe (fOfNat c.cap) (fOfNat (k + c.cap)) = true := (fLe_iff_fVal hFf hpf).mpr (by omega)
  rw [wrapPosition_of_ge hp0 hge (mem_of_fVal_eq_index hk hcap hqf hqv).2]
  exact ⟨hqf, hqv⟩

/-- One capacity below a word index wraps up to it. -/
theorem wrapPosition_index_below :
    isFinite (wrapPosition c (fNeg (fOfNat (c.cap - k)))) = true ∧
      fVal (wrapPosition c (fNeg (fOfNat (c.cap - k)))) = k * 2 ^ 149 := by
  obtain ⟨hkf, hkv⟩ := fOfNat_exact (hk.le.trans hcap)
  obtain ⟨hFf, hFv⟩ := fOfNat_exact hcap
  obtain ⟨hdf, hdv⟩ := fOfNat_exact ((Nat.sub_le c.cap k).trans hcap)
  obtain ⟨hzf, hzv⟩ := fZero_value
  have hpf : isFinite (fNeg (fOfNat (c.cap - k))) = true := by rw [isFinite_fNeg, hdf]
  have hpv := fVal_fNeg (fOfNat (c.cap - k))
  rw [hdv] at hpv
  push_cast [hk.le] at hpv
  obtain ⟨hqf, hqv⟩ := fAdd_exact hpf hFf hkf (by rw [hpv, hFv, hkv]; ring)
  rw [hkv] at hqv
  have hneg : fLt (fNeg (fOfNat (c.cap - k))) fZero = true := (fLt_iff_fVal hpf hzf).mpr (by omega)
  obtain ⟨hq0, hq⟩ := mem_of_fVal_eq_index hk hcap hqf hqv
  rw [wrapPosition_of_neg hneg hq0 hq]
  exact ⟨hqf, hqv⟩

/-- Half way behind the word `k` the fraction is 0.5, bit for bit. -/
theorem readInterp_half (hk23 : k < 2 ^ 23) (m : Memory) (ch : Chan) :
    readInterp c m ch (fAdd (fOfNat k) fHalf) =
      fAdd (m.readWord ch k) (fMul fHalf (fSub (m.readWord ch ((k + 1) % c.cap)) (m.readWord ch k))) := by
  obtain ⟨hkf, hkv⟩ := fOfNat_exact (hk.le.trans hcap)
  obtain ⟨hFf, hFv⟩ := fOfNat_exact hcap
  obtain ⟨hpf, hpv⟩ := fAdd_half_exact hk23
  obtain ⟨hzf, hzv⟩ := fZero_value
  obtain ⟨hhf, hhv⟩ := fHalf_value
  generalize fAdd (fOfNat k) fHalf = p at hpf hpv
  have h0 : fLe fZero p = true := (fLe_iff_fVal hzf hpf).mpr (by omega)
  have h : fLt p (fOfNat c.cap) = true := (fLt_iff_fVal hpf hFf).mpr (by omega)
  have hwrap := wrapPosition_of_mem h0 h
  have hfloor : fFloor p = k := by
    rw [fFloor, if_pos hpf, hpv]
    push_cast
    omega
  have hfrac : fSub p (fOfNat k) = fHalf := by
    have hval := (fSub_exact hpf hkf hhf (by omega)).2
    exact eq_of_fVal_eq hval (by omega)
  rw [readInterp_of_mem m ch (hwrap.symm ▸ h0) (hwrap.symm ▸ h), hwrap, interpolate_of_floor hfloor hk, hfrac]

end

/-- Settles O51: the integer positions by their wrapped value, the half-way ones by their exact fraction, and the
formula at the floor of the wrapped position. -/
theorem readAtIntegerPositionIsTheWord : Obligations.ReadAtIntegerPositionIsTheWord := by
  refine ⟨fun c m ch k hk hcap hdiff => ⟨?_, fun hsum => ?_, ?_⟩,
    fun c m ch k hk hcap hk23 => readInterp_half hk hcap hk23 m ch, fun c m ch p hcap h0 h => ?_⟩
  · obtain ⟨hkf, hkv⟩ := fOfNat_exact (hk.le.trans hcap)
    rw [← wrapPosition_index hk hcap] at hkf hkv
    exact fVal_readInterp_of_index hk hcap hdiff hkf hkv
  · obtain ⟨hqf, hqv⟩ := wrapPosition_index_above hk hcap hsum
    exact fVal_readInterp_of_index hk hcap hdiff hqf hqv
  · obtain ⟨hqf, hqv⟩ := wrapPosition_index_below hk hcap
    exact fVal_readInterp_of_index hk hcap hdiff hqf hqv
  · obtain ⟨k, hfloor, hk⟩ := exists_fFloor_eq hcap h0 h
    exact ⟨k, hfloor, hk, by rw [readInterp_of_mem m ch h0 h, interpolate_of_floor hfloor hk]⟩

end Sys2Proof.Machine
end

section

namespace Sys2Proof.Machine

/-! ### The fade coefficient (43_crossfade_fsm.md R178, R182) -/

/-- `roundMag` stays between the neighbours of `n / d`, at most infinity. -/
theorem roundMag_mem (n d : Nat) :
    min (roundDown n d) 0x7F800000 ≤ roundMag n d ∧ roundMag n d ≤ min (roundDown n d + 1) 0x7F800000 := by
  rcases roundMag_eq_or n d with hr | hr <;> omega

/-- Rounding keeps the order (R14). -/
theorem roundMag_mono {n n' d : Nat} (hd : 0 < d) (h : n ≤ n') : roundMag n d ≤ roundMag n' d := by
  have hlt : magBits (roundDown n d) < magBits (roundDown n' d + 1) :=
    lt_of_mul_lt_mul_right (((roundDown_brackets n hd).1.trans h).trans_lt (roundDown_brackets n' hd).2) hd.le
  rw [magBits_strictMono.lt_iff_lt, Nat.lt_succ_iff] at hlt
  have hle := (roundMag_mem n d).2
  have hge := (roundMag_mem n' d).1
  rcases hlt.lt_or_eq with hlt | heq
  · omega
  by_cases hup : RoundsUp n d (roundDown n d)
  · have hup' : RoundsUp n' d (roundDown n' d) := by
      rw [heq] at hup
      unfold RoundsUp at hup ⊢
      omega
    rw [roundMag_of_roundsUp hup, roundMag_of_roundsUp hup', heq]
  · rwa [roundMag_of_not_roundsUp hup, heq]

theorem fMag_fOfNat {n : Nat} (h : n ≤ 2 ^ 24) : fMag (fOfNat n) = n * 2 ^ 149 := by
  rw [← natAbs_fVal, (fOfNat_exact h).2]
  omega

theorem fSign_fOfNat (n : Nat) : fSign (fOfNat n) = false := fSign_fPack ((roundMag_le _ _).trans_lt (by omega))

/-- The division of two exact integers is their ratio, rounded once (R13, R14). -/
theorem fDiv_fOfNat {n d : Nat} (hn : n ≤ 2 ^ 24) (hd : d ≤ 2 ^ 24) (hpos : 0 < d) :
    fDiv (fOfNat n) (fOfNat d) = fOfRatio n d := by
  have hnf := (fOfNat_exact hn).1
  have hdf := (fOfNat_exact hd).1
  have hz : isZero (fOfNat d) = false := by
    rw [← Bool.not_eq_true, isZero_iff_fMag, fMag_fOfNat hd]
    omega
  have hdiv : fDiv (fOfNat n) (fOfNat d) =
      fPack false (roundMag (fMag (fOfNat n) * 2 ^ 149) (fMag (fOfNat d))) := by
    simp [fDiv, isNaN_eq_false_of_isFinite hnf, isNaN_eq_false_of_isFinite hdf, isInf_eq_false_of_isFinite hnf,
      isInf_eq_false_of_isFinite hdf, hz, fSign_fOfNat]
  rw [hdiv, fOfRatio, fMag_fOfNat hn, fMag_fOfNat hd]
  exact congrArg (fPack false) (roundMag_congr (by positivity) hpos (by ring))

/-- The fade is `f32(fade_pos / FADE_LEN)`. -/
theorem fadeOf_eq {c : Constants} {e : Engine} (hlen : 1 ≤ c.fadeLen) (hlen' : c.fadeLen ≤ 2 ^ 24)
    (h : e.fadePos ≤ c.fadeLen) : fadeOf c e = fOfRatio e.fadePos c.fadeLen :=
  fDiv_fOfNat (h.trans hlen') hlen' hlen

theorem fBits_fOfRatio (n d : Nat) : fBits (fOfRatio n d) = roundMag (n * 2 ^ 149) d :=
  fBits_fPack ((roundMag_le _ _).trans_lt (by omega))

theorem fLe_fZero_fOfRatio (n d : Nat) : fLe fZero (fOfRatio n d) = true :=
  (fPack_roundMag_nonneg (neg := false) (by simp)).1

/-- Values of at least 0 compare as their magnitude bits do. -/
theorem fLe_iff_fBits {a b : Word} (ha : fLe fZero a = true) (hb : fLe fZero b = true) :
    fLe a b = true ↔ fBits a ≤ fBits b := by
  rw [fLe_iff_fMag ha hb, fMag_eq_magBits, fMag_eq_magBits, magBits_strictMono.le_iff_le]

theorem fOfRatio_mono {n n' d : Nat} (hd : 0 < d) (h : n ≤ n') : fLe (fOfRatio n d) (fOfRatio n' d) = true := by
  rw [fLe_iff_fBits (fLe_fZero_fOfRatio _ _) (fLe_fZero_fOfRatio _ _), fBits_fOfRatio, fBits_fOfRatio]
  exact roundMag_mono hd (Nat.mul_le_mul_right _ h)

theorem fOfRatio_zero (d : Nat) : fOfRatio 0 d = fZero := by
  have hround : roundMag (0 * 2 ^ 149) d = 0 := by simp [roundMag]
  rw [fOfRatio, hround]
  rfl

theorem fOfRatio_self {d : Nat} (hd : 0 < d) : fOfRatio d d = fOne := by
  have hround : roundMag (d * 2 ^ 149) d = 0x3F800000 := by
    rw [mul_comm, ← magBits_one.1, roundMag_exact _ hd]
    rfl
  rw [fOfRatio, hround]
  rfl

/-- A positive ratio with a divisor up to 2^24 is far above the smallest pattern. -/
theorem fOfRatio_eq_fZero_iff {n d : Nat} (hd : 0 < d) (hd' : d ≤ 2 ^ 24) : fOfRatio n d = fZero ↔ n = 0 := by
  refine ⟨fun h => ?_, fun h => h ▸ fOfRatio_zero d⟩
  by_contra hn
  have hone : magBits 1 * d ≤ n * 2 ^ 149 := by
    have hunit : magBits 1 = 1 := by decide
    rw [hunit]
    omega
  have hge := le_roundMag hd (by omega) hone
  rw [← fBits_fOfRatio, h] at hge
  exact absurd hge (by decide)

/-- A ratio below 1 with a divisor up to 2^24 is at most the pattern next below 1.0, `1 - 2^-24`. -/
theorem fOfRatio_eq_fOne_iff {n d : Nat} (hd : 0 < d) (hd' : d ≤ 2 ^ 24) (h : n ≤ d) :
    fOfRatio n d = fOne ↔ n = d := by
  refine ⟨fun hone => ?_, by rintro rfl; exact fOfRatio_self hd⟩
  by_contra hn
  have hle : roundMag (n * 2 ^ 149) d ≤ 0x3F7FFFFF := roundMag_le_of_le hd (by rw [magBits_one.2]; omega)
  rw [← fBits_fOfRatio, hone] at hle
  exact absurd hle (by decide)

/-- Settles O48: the fade is one rounding of `fade_pos / FADE_LEN`, which keeps the order and separates the ends. -/
theorem fadeCoefficientIsMonotoneAndExact : Obligations.FadeCoefficientIsMonotoneAndExact := by
  intro c e f hlen hlen' hef hf
  rw [fadeOf_eq hlen hlen' hf, fadeOf_eq hlen hlen' (hef.trans hf)]
  refine ⟨fOfRatio_mono hlen hef, fLe_fZero_fOfRatio _ _, ?_, fOfRatio_eq_fZero_iff hlen hlen',
    fOfRatio_eq_fOne_iff hlen hlen' hf⟩
  rw [← fOfRatio_self hlen]
  exact fOfRatio_mono hlen hf

end Sys2Proof.Machine
end

section

namespace Sys2Proof.Machine

/-! ### The crossfade runs on its own (43_crossfade_fsm.md R170 to R182)

The state machine, the commit and the two counters read nothing of the audio. So a block's crossfade is the iterate of
one function on the engine with the audio left out. -/

/-- The engine with everything but the crossfade's own fields (R45, the write index of R46 and the targets of R43) at its
reset value. -/
def Engine.control (e : Engine) : Engine :=
  { Engine.reset with tgt := e.tgt, fsm := e.fsm, fadePos := e.fadePos, fillCnt := e.fillCnt, com := e.com, w := e.w }

/-- What a sample does to the crossfade's fields: steps 2 and 9 of R255. -/
def crossfadeStep (p : Params) (c : Constants) (sn : Snapshot) (e : Engine) : Engine := advance c (fsmEngine p c sn e)

theorem fsmEngine_control (p : Params) (c : Constants) (sn : Snapshot) (e : Engine) :
    (fsmEngine p c sn e).control = fsmEngine p c sn e.control := by
  have hforced : forcedFsm sn e.control.com e.control.fsm = forcedFsm sn e.com e.fsm := rfl
  unfold fsmEngine
  rw [hforced]
  cases forcedFsm sn e.com e.fsm with
  | fadeOutDone =>
    simp only [fadeOutDoneAction]
    split <;> rfl
  | fadeOut | fillBuf | fadeIn | cycle => rfl

theorem crossfadeStep_control (p : Params) (c : Constants) (sn : Snapshot) (e : Engine) :
    (crossfadeStep p c sn e).control = crossfadeStep p c sn e.control :=
  congrArg (advance c) (fsmEngine_control p c sn e)

/-- Whatever the audio, a sample takes the crossfade's fields one `crossfadeStep` on (R179, R255). -/
theorem sampleStep_control (p : Params) (c : Constants) (sn : Snapshot) (e : Engine) (m : Memory) (x : Pair Word) :
    (sampleStep p c sn e m x).eng.control = crossfadeStep p c sn e.control := by
  have hsmooth : (smoothEngine p c e).control = e.control := rfl
  have hcontrol : (sampleStep p c sn e m x).eng.control = (advance c (stepControl p c sn e)).control := by
    unfold sampleStep
    rw [stepAudio_eng_eq, lfoEngine_eq]
    rfl
  rw [hcontrol, ← hsmooth, ← crossfadeStep_control]
  rfl

/-- A SAMPLE inside a block takes the crossfade's fields one step on, the block counter one down, and keeps what the
step reads. -/
theorem exec_sample_control {s : State} (x0 x1 : Word) (h : s.blockRemain ≠ 0#16) :
    ∃ t, exec (.sample x0 x1) s = .next t ∧ t.eng.control = crossfadeStep s.params s.const s.snap s.eng.control ∧
      t.params = s.params ∧ t.const = s.const ∧ t.snap = s.snap ∧ t.blockRemain = s.blockRemain - 1#16 := by
  refine ⟨s.sampled x0 x1, ?_, sampleStep_control s.params s.const s.snap s.eng s.mem ⟨x0, x1⟩, rfl, rfl, rfl, rfl⟩
  rw [exec_sample, execSample, if_pos ((State.blk_iff s).mpr h)]

/-- Samples that the block has room for all run, and iterate the crossfade's step. -/
theorem execAll_samples_control (xs : List (Word × Word)) : ∀ {s : State}, xs.length ≤ s.blockRemain.toNat →
    ∃ t, execAll (samples xs) s = .next t ∧
      t.eng.control = (crossfadeStep s.params s.const s.snap)^[xs.length] s.eng.control := by
  induction xs with
  | nil => exact fun {s} _ => ⟨s, rfl, rfl⟩
  | cons x xs ih =>
    intro s hroom
    rw [List.length_cons] at hroom
    have hopen : s.blockRemain ≠ 0#16 := by intro h; simp [h] at hroom
    obtain ⟨t, ht, hcontrol, hp, hc, hsn, hrem⟩ := exec_sample_control x.1 x.2 hopen
    obtain ⟨u, hu, hiter⟩ := ih (s := t) (by rw [hrem]; bv_omega)
    refine ⟨u, (execAll_cons_of_next ht _).trans hu, ?_⟩
    rw [hiter, hp, hc, hsn, hcontrol, List.length_cons, Function.iterate_succ_apply]

/-! ### One step of the crossfade from each state (R173 to R178) -/

/-- The crossfade state with its fade position. -/
def Engine.fadeState (e : Engine) : Fsm × Nat := (e.fsm, e.fadePos)

/-- FADE_OUT runs in this sample: it is held, or a change or a mute forces it (R173). -/
def FadesOut (sn : Snapshot) (e : Engine) : Prop :=
  e.fsm = .fadeOut ∨ (e.fsm ≠ .fadeOutDone ∧ (changed sn e.com || muted sn) = true)

section

variable {p : Params} {c : Constants} {sn : Snapshot} {e : Engine}

theorem forcedFsm_of_fadesOut (h : FadesOut sn e) : forcedFsm sn e.com e.fsm = .fadeOut := by
  rcases h with hf | ⟨hf, hforce⟩
  · rw [hf, forcedFsm]
  · cases hfsm : e.fsm with
    | fadeOut => rfl
    | fadeOutDone => exact absurd hfsm hf
    | fillBuf | fadeIn | cycle => exact if_pos hforce

theorem forcedFsm_of_quiet (hquiet : (changed sn e.com || muted sn) = false) : forcedFsm sn e.com e.fsm = e.fsm := by
  cases e.fsm with
  | fadeOut | fadeOutDone => rfl
  | fillBuf | fadeIn | cycle => exact if_neg (Bool.eq_false_iff.mp hquiet)

/-- One position down, to FADE_OUT_DONE at 0 (R175). -/
theorem fadeState_of_fadesOut (h : FadesOut sn e) :
    (crossfadeStep p c sn e).fadeState = (if e.fadePos ≤ 1 then .fadeOutDone else .fadeOut, e.fadePos - 1) := by
  rw [crossfadeStep, fsmEngine, forcedFsm_of_fadesOut h]
  simp only [← Nat.sub_eq_zero_iff_le]
  rfl

theorem fsmEngine_of_fadeOutDone (hf : e.fsm = .fadeOutDone) : fsmEngine p c sn e = fadeOutDoneAction sn e := by
  have hsame : { e with fsm := .fadeOutDone } = e := by rw [← hf]
  rw [fsmEngine, hf, forcedFsm, hsame]

/-- The commit (R174). -/
theorem crossfadeStep_of_commit (hf : e.fsm = .fadeOutDone) (hmute : muted sn = false) :
    crossfadeStep p c sn e = advance c (commitEngine sn e) := by
  rw [crossfadeStep, fsmEngine_of_fadeOutDone hf, fadeOutDoneAction, if_neg (Bool.eq_false_iff.mp hmute)]

/-- The hold of a muted block (R174). -/
theorem crossfadeStep_of_hold (hf : e.fsm = .fadeOutDone) (hmute : muted sn = true) :
    crossfadeStep p c sn e = advance c e := by
  rw [crossfadeStep, fsmEngine_of_fadeOutDone hf, fadeOutDoneAction, if_pos hmute]

/-- Without a commit the committed snapshot and the targets stay, and one more word is counted (R155, R174). -/
theorem crossfadeStep_of_not_commits (h : commits sn e = false) :
    (crossfadeStep p c sn e).com = e.com ∧ (crossfadeStep p c sn e).tgt = e.tgt ∧
      (crossfadeStep p c sn e).fillCnt = min (e.fillCnt + 1) c.cap := by
  rw [crossfadeStep]
  rcases fsmEngine_cases p c sn e with
    ⟨-, he⟩ | ⟨-, -, -, he⟩ | ⟨-, -, he⟩ | ⟨hf, hmute, -⟩ | ⟨-, -, he⟩ | ⟨-, -, he⟩ | ⟨-, -, he⟩
  case inr.inr.inr.inl => simp [commits, hf, hmute] at h
  all_goals
    rw [he]
    exact ⟨rfl, rfl, rfl⟩

theorem fadeState_of_fillBuf (hquiet : (changed sn e.com || muted sn) = false) (hf : e.fsm = .fillBuf) :
    (crossfadeStep p c sn e).fadeState =
      (if fillThreshold p c e ≤ (e.fillCnt : ℤ) then .fadeIn else .fillBuf, 0) := by
  rw [crossfadeStep, fsmEngine, forcedFsm_of_quiet hquiet, hf]
  rfl

theorem fadeState_of_fadeIn (hquiet : (changed sn e.com || muted sn) = false) (hf : e.fsm = .fadeIn) :
    (crossfadeStep p c sn e).fadeState = (if e.fadePos + 1 = c.fadeLen then .cycle else .fadeIn, e.fadePos + 1) := by
  rw [crossfadeStep, fsmEngine, forcedFsm_of_quiet hquiet, hf]
  rfl

theorem fadeState_of_cycle (hquiet : (changed sn e.com || muted sn) = false) (hf : e.fsm = .cycle) :
    (crossfadeStep p c sn e).fadeState = (.cycle, c.fadeLen) := by
  rw [crossfadeStep, fsmEngine, forcedFsm_of_quiet hquiet, hf]
  rfl

end

/-! ### A mute, and the first two samples (R172 to R175, R180) -/

/-- A muted block iterates the hold. -/
theorem crossfadeStep_iterate_hold {p : Params} {c : Constants} {sn : Snapshot} {e : Engine} (hf : e.fsm = .fadeOutDone)
    (hmute : muted sn = true) (n : Nat) :
    ((crossfadeStep p c sn)^[n] e).fadeState = e.fadeState ∧ ((crossfadeStep p c sn)^[n] e).com = e.com ∧
      ((crossfadeStep p c sn)^[n] e).tgt = e.tgt := by
  induction n with
  | zero => exact ⟨rfl, rfl, rfl⟩
  | succ n ih =>
    obtain ⟨hstate, hcom, htgt⟩ := ih
    have hf' : ((crossfadeStep p c sn)^[n] e).fsm = .fadeOutDone := (congrArg Prod.fst hstate).trans hf
    rw [Function.iterate_succ_apply', crossfadeStep_of_hold hf' hmute]
    exact ⟨hstate, hcom, htgt⟩

/-- Settles O47: the hold iterated, then one step of a fade-out. -/
theorem muteHoldsFadeOutDone : Obligations.MuteHoldsFadeOutDone := by
  refine ⟨fun s xs hf hmute hroom => ?_, fun s x0 x1 hopen h => ?_⟩
  · obtain ⟨t, ht, hcontrol⟩ := execAll_samples_control xs hroom
    obtain ⟨hstate, hcom, htgt⟩ := crossfadeStep_iterate_hold (p := s.params) (c := s.const) (e := s.eng.control) hf
      hmute xs.length
    rw [← hcontrol] at hstate hcom htgt
    exact ⟨t, ht, (congrArg Prod.fst hstate).trans hf, hcom, htgt, congrArg Prod.snd hstate⟩
  · have hfades : FadesOut s.snap s.eng.control := by
      refine h.imp_right fun ⟨hf, hforce⟩ => ⟨?_, by rw [Bool.or_eq_true]; exact hforce.symm⟩
      change s.eng.fsm ≠ .fadeOutDone
      rcases hf with hf | hf | hf <;> simp [hf]
    have hcommits : commits s.snap s.eng.control = false := by
      rcases hfades with hf | ⟨hf, -⟩ <;> simp [commits, hf]
    obtain ⟨t, ht, hcontrol, -⟩ := exec_sample_control x0 x1 hopen
    have hstate := fadeState_of_fadesOut (p := s.params) (c := s.const) hfades
    obtain ⟨hcom, htgt, -⟩ := crossfadeStep_of_not_commits (p := s.params) (c := s.const) hcommits
    rw [← hcontrol] at hstate hcom htgt
    exact ⟨t, ht, congrArg Prod.snd hstate, congrArg Prod.fst hstate, hcom, htgt⟩

/-- Settles O46: with nothing committed FADE_OUT is forced at position 0, and the next sample commits. -/
theorem firstTwoSamplesCommit : Obligations.FirstTwoSamplesCommit := by
  intro s a b hf hpos hcom hmute hcap hroom
  obtain ⟨t, ht, hfirst⟩ := execAll_samples_control [a] (s := s) (by simp only [List.length_singleton]; omega)
  obtain ⟨u, hu, hboth⟩ := execAll_samples_control [a, b] hroom
  have hfades : FadesOut s.snap s.eng.control :=
    .inr ⟨by simp [Engine.control, hf], by simp [Engine.control, changed, hcom]⟩
  have hstate : t.eng.control.fadeState = (.fadeOutDone, 0) := by
    have hpos' : s.eng.control.fadePos = 0 := hpos
    rw [hfirst, List.length_singleton, Function.iterate_one, fadeState_of_fadesOut hfades, hpos']
    rfl
  have hcommit : u.eng.control = advance s.const (commitEngine s.snap t.eng.control) := by
    rw [← crossfadeStep_of_commit (p := s.params) (congrArg Prod.fst hstate) hmute, hboth, hfirst]
    rfl
  have hfill : u.eng.fillCnt = min 1 s.const.cap := congrArg Engine.fillCnt hcommit
  exact ⟨t, u, ht, congrArg Prod.fst hstate, congrArg Prod.snd hstate, hu, congrArg Engine.fsm hcommit,
    congrArg (·.com.valid) hcommit, congrArg (·.com.tempo) hcommit, congrArg (·.com.div) hcommit,
    congrArg (·.com.pp) hcommit, congrArg (·.tgt.d) hcommit, congrArg Engine.w hcommit,
    hfill.trans (min_eq_left hcap)⟩

/-! ### The crossfade of a delay change, sample by sample (R181) -/

section

variable {L T n : Nat}

theorem phaseAt_zero : phaseAt L T 0 = (.cycle, L) := if_pos rfl

theorem phaseAt_fadingOut (h : 0 < n) (h' : n < L) : phaseAt L T n = (.fadeOut, L - n) := by
  rw [phaseAt, if_neg (by omega), if_pos h']

theorem phaseAt_fadeLen (h : 1 ≤ L) : phaseAt L T L = (.fadeOutDone, 0) := by
  rw [phaseAt, if_neg (by omega), if_neg (by omega), if_pos rfl]

theorem phaseAt_filling (h : L < n) (h' : n < L + 1 + T) : phaseAt L T n = (.fillBuf, 0) := by
  rw [phaseAt, if_neg (by omega), if_neg (by omega), if_neg (by omega), if_pos h']

theorem phaseAt_fadingIn (h : L + 1 + T ≤ n) (h' : n < 2 * L + 1 + T) :
    phaseAt L T n = (.fadeIn, n - (L + 1 + T)) := by
  rw [phaseAt, if_neg (by omega), if_neg (by omega), if_neg (by omega), if_neg (by omega), if_pos h']

theorem phaseAt_done (h : 2 * L + 1 + T ≤ n) : phaseAt L T n = (.cycle, L) := by
  rw [phaseAt, if_neg (by omega), if_neg (by omega), if_neg (by omega), if_neg (by omega), if_neg (by omega)]

end

/-- The crossfade after `n` samples from a change first seen in CYCLE: R181's state and position, a change up to the
commit and none from there on, and then the threshold `T` and the words counted since. -/
structure OnSchedule (p : Params) (c : Constants) (sn : Snapshot) (T n : Nat) (e : Engine) : Prop where
  fade : e.fadeState = phaseAt c.fadeLen T n
  change : changed sn e.com = decide (n ≤ c.fadeLen)
  threshold : c.fadeLen < n → fillThreshold p c e = T
  fillCnt : c.fadeLen < n → e.fillCnt = min (n - c.fadeLen) c.cap

/-- The snapshot is no change from itself, committed (R171); a NaN tempo would be one. -/
theorem changed_commitEngine {sn : Snapshot} (hnan : isNaN sn.tempoC = false) (e : Engine) :
    changed sn (commitEngine sn e).com = false := by
  simp [changed, commitEngine, fNe, hnan]

section

variable {p : Params} {c : Constants} {sn : Snapshot} {T n : Nat} {e : Engine}

theorem OnSchedule.quiet (h : OnSchedule p c sn T n e) (hmute : muted sn = false) (hn : c.fadeLen < n) :
    (changed sn e.com || muted sn) = false := by
  rw [h.change, hmute, decide_eq_false hn.not_ge, Bool.or_false]

/-- But at the commit, a sample keeps the schedule once its state and position are the schedule's next. -/
theorem OnSchedule.next_of_not_commits (h : OnSchedule p c sn T n e) (hcommits : commits sn e = false)
    (hn : n ≠ c.fadeLen) (hfade : (crossfadeStep p c sn e).fadeState = phaseAt c.fadeLen T (n + 1)) :
    OnSchedule p c sn T (n + 1) (crossfadeStep p c sn e) := by
  obtain ⟨hcom, htgt, hfill⟩ := crossfadeStep_of_not_commits (p := p) (c := c) hcommits
  refine ⟨hfade, ?_, fun hn' => ?_, fun hn' => ?_⟩
  · rw [hcom, h.change, decide_eq_decide]
    omega
  · rw [fillThreshold, htgt]
    exact h.threshold (by omega)
  · rw [hfill, h.fillCnt (by omega)]
    omega

/-- FADE_OUT, from the change in CYCLE on (R173, R175). -/
theorem OnSchedule.next_of_fadingOut (h : OnSchedule p c sn T n e) (hn : n < c.fadeLen) :
    OnSchedule p c sn T (n + 1) (crossfadeStep p c sn e) := by
  obtain ⟨hne, hpos⟩ : e.fsm ≠ .fadeOutDone ∧ e.fadePos = c.fadeLen - n := by
    rcases n.eq_zero_or_pos with rfl | h0
    · obtain ⟨hfsm, hpos⟩ := Prod.mk.inj (h.fade.trans phaseAt_zero)
      exact ⟨by simp [hfsm], hpos⟩
    · obtain ⟨hfsm, hpos⟩ := Prod.mk.inj (h.fade.trans (phaseAt_fadingOut h0 hn))
      exact ⟨by simp [hfsm], hpos⟩
  have hchange : changed sn e.com = true := by rw [h.change, decide_eq_true hn.le]
  refine h.next_of_not_commits (by simp [commits, hne]) hn.ne ?_
  rw [fadeState_of_fadesOut (.inr ⟨hne, by rw [hchange, Bool.true_or]⟩), hpos]
  rcases (Nat.succ_le_of_lt hn).lt_or_eq with hlt | heq
  · rw [if_neg (by omega), phaseAt_fadingOut n.succ_pos hlt, Nat.sub_sub]
  · rw [if_pos (by omega), ← heq, phaseAt_fadeLen (by omega)]
    congr 1
    omega

/-- The commit (R174). -/
theorem OnSchedule.next_of_fadeOutDone (h : OnSchedule p c sn T c.fadeLen e) (hlen : 1 ≤ c.fadeLen) (hT : 1 ≤ T)
    (hmute : muted sn = false) (hnan : isNaN sn.tempoC = false)
    (hthr : fillThreshold p c (commitEngine sn e) = T) :
    OnSchedule p c sn T (c.fadeLen + 1) (crossfadeStep p c sn e) := by
  obtain ⟨hfsm, hpos⟩ := Prod.mk.inj (h.fade.trans (phaseAt_fadeLen hlen))
  rw [crossfadeStep_of_commit hfsm hmute]
  refine ⟨?_, ?_, fun _ => hthr, fun _ => ?_⟩
  · rw [phaseAt_filling (by omega) (by omega)]
    exact congrArg (Prod.mk Fsm.fillBuf) hpos
  · rw [decide_eq_false (by omega)]
    exact changed_commitEngine hnan e
  · rw [Nat.add_sub_cancel_left]
    rfl

/-- FILL_BUF, until `T` words are counted (R176). -/
theorem OnSchedule.next_of_filling (h : OnSchedule p c sn T n e) (hmute : muted sn = false) (hcap : T ≤ c.cap)
    (hlen : 1 ≤ c.fadeLen) (hn : c.fadeLen < n) (hn' : n < c.fadeLen + 1 + T) :
    OnSchedule p c sn T (n + 1) (crossfadeStep p c sn e) := by
  have hfsm : e.fsm = .fillBuf := congrArg Prod.fst (h.fade.trans (phaseAt_filling hn hn'))
  refine h.next_of_not_commits (by simp [commits, hfsm]) hn.ne' ?_
  rw [fadeState_of_fillBuf (h.quiet hmute hn) hfsm, h.threshold hn, h.fillCnt hn]
  rcases (Nat.succ_le_of_lt hn').lt_or_eq with hlt | heq
  · rw [if_neg (by omega), phaseAt_filling (by omega) hlt]
  · rw [if_pos (by omega), phaseAt_fadingIn (by omega) (by omega)]
    congr 1
    omega

/-- FADE_IN, until the position is FADE_LEN (R177). -/
theorem OnSchedule.next_of_fadingIn (h : OnSchedule p c sn T n e) (hmute : muted sn = false)
    (hn : c.fadeLen + 1 + T ≤ n) (hn' : n < 2 * c.fadeLen + 1 + T) :
    OnSchedule p c sn T (n + 1) (crossfadeStep p c sn e) := by
  obtain ⟨hfsm, hpos⟩ := Prod.mk.inj (h.fade.trans (phaseAt_fadingIn hn hn'))
  refine h.next_of_not_commits (by simp [commits, hfsm]) (by omega) ?_
  rw [fadeState_of_fadeIn (h.quiet hmute (by omega)) hfsm, hpos]
  rcases (Nat.succ_le_of_lt hn').lt_or_eq with hlt | heq
  · rw [if_neg (by omega), phaseAt_fadingIn (by omega) hlt, ← Nat.sub_add_comm hn]
  · rw [if_pos (by omega), phaseAt_done (by omega)]
    congr 1
    omega

/-- CYCLE again (R178). -/
theorem OnSchedule.next_of_done (h : OnSchedule p c sn T n e) (hmute : muted sn = false)
    (hn : 2 * c.fadeLen + 1 + T ≤ n) : OnSchedule p c sn T (n + 1) (crossfadeStep p c sn e) := by
  have hfsm : e.fsm = .cycle := congrArg Prod.fst (h.fade.trans (phaseAt_done hn))
  refine h.next_of_not_commits (by simp [commits, hfsm]) (by omega) ?_
  rw [fadeState_of_cycle (h.quiet hmute (by omega)) hfsm, phaseAt_done (by omega)]

/-- The schedule holds after any number of samples: the threshold of the commit reads the snapshot alone, so any
engine's commit has it. -/
theorem OnSchedule.iterate (h : OnSchedule p c sn T 0 e) (hlen : 1 ≤ c.fadeLen) (hT : 1 ≤ T)
    (hmute : muted sn = false) (hnan : isNaN sn.tempoC = false) (hthr : ∀ e, fillThreshold p c (commitEngine sn e) = T)
    (n : Nat) : OnSchedule p c sn T n ((crossfadeStep p c sn)^[n] e) := by
  have hcap : T ≤ c.cap := by
    have hmin : fillThreshold p c (commitEngine sn e) ≤ c.cap := min_le_left _ _
    rw [hthr] at hmin
    exact_mod_cast hmin
  induction n with
  | zero => exact h
  | succ n ih =>
    rw [Function.iterate_succ_apply']
    rcases lt_trichotomy n c.fadeLen with hlt | rfl | hgt
    · exact ih.next_of_fadingOut hlt
    · exact ih.next_of_fadeOutDone hlen hT hmute hnan (hthr _)
    · rcases lt_or_ge n (c.fadeLen + 1 + T) with hfill | hfill
      · exact ih.next_of_filling hmute hcap hlen hgt hfill
      · rcases lt_or_ge n (2 * c.fadeLen + 1 + T) with hin | hin
        · exact ih.next_of_fadingIn hmute hfill hin
        · exact ih.next_of_done hmute hin

end

/-- Settles O45: the block's crossfade follows its schedule from the change on. -/
theorem delayChangeRunsTheWholeCrossfade : Obligations.DelayChangeRunsTheWholeCrossfade := by
  intro s xs T hf hpos hlen hchange hmute hnan hthr hT hroom
  obtain ⟨t, ht, hcontrol⟩ := execAll_samples_control xs hroom
  have hstart : OnSchedule s.params s.const s.snap T 0 s.eng.control :=
    { fade := by rw [phaseAt_zero, ← hpos]; exact congrArg (Prod.mk · s.eng.fadePos) hf
      change := hchange
      threshold := fun h => absurd h (Nat.not_lt_zero _)
      fillCnt := fun h => absurd h (Nat.not_lt_zero _) }
  have hend := (hstart.iterate hlen hT hmute hnan (fun _ => hthr) xs.length).fade
  rw [← hcontrol] at hend
  exact ⟨t, ht, hend⟩

end Sys2Proof.Machine
end

section

namespace Sys2Proof.Machine

/-! ### The gain laws (44_smoothing.md R194, R195) -/

theorem pctToLin_of_above {v : Word} (h : fGt v fNinetyNine = true) : pctToLin v = fOne := if_pos h

theorem pctToLin_of_between {v : Word} (hhi : fGt v fNinetyNine = false) (hlo : fGt v fZero = true) :
    pctToLin v = fDiv v fHundred := by
  simp [pctToLin, hhi, hlo]

theorem pctToLin_of_not_pos {v : Word} (hhi : fGt v fNinetyNine = false) (hlo : fGt v fZero = false) :
    pctToLin v = fZero := by
  simp [pctToLin, hhi, hlo]

/-- Settles O29: the three cases of the law. -/
theorem percentageLaw : Obligations.PercentageLaw := fun _ =>
  ⟨pctToLin_of_above, pctToLin_of_between, pctToLin_of_not_pos⟩

section

variable {p : Params} {v : Word}

theorem dbToLin_of_below (h : fLt v p.dbFloor = true) : dbToLin p v = fZero := if_pos h

theorem dbToLin_of_above (hlo : fLt v p.dbFloor = false) (hhi : fGt v p.dbCeil = true) :
    dbToLin p v = fPow fTen (fDiv p.dbCeil fTwenty) := by
  simp [dbToLin, hlo, hhi]

theorem dbToLin_of_between (hlo : fLt v p.dbFloor = false) (hhi : fGt v p.dbCeil = false) :
    dbToLin p v = fPow fTen (fDiv v fTwenty) := by
  simp [dbToLin, hlo, hhi]

end

theorem isZero_iff {w : Word} : isZero w = true ↔ w = fZero ∨ w = fNegZero := by
  refine ⟨fun h => ?_, by rintro (rfl | rfl) <;> decide⟩
  have hbits : fBits w = 0 := of_decide_eq_true h
  have hnat := toNat_eq w
  rw [hbits] at hnat
  cases hs : fSign w with
  | false => exact .inl (BitVec.eq_of_toNat_eq (by rw [hnat, hs]; rfl))
  | true => exact .inr (BitVec.eq_of_toNat_eq (by rw [hnat, hs]; rfl))

/-- A twentieth of 0 dB is a zero of the same sign. -/
theorem isZero_fDiv_fTwenty {v : Word} (h : isZero v = true) : isZero (fDiv v fTwenty) = true := by
  rcases isZero_iff.mp h with rfl | rfl <;> decide +kernel

/-- Settles O30: the cases of the law; at 0 dB the exponent is a zero, where POW is 1 (R17). -/
theorem decibelLaw : Obligations.DecibelLaw := by
  intro p v _
  refine ⟨dbToLin_of_below, dbToLin_of_above, dbToLin_of_between, fun hlo hhi hz => ?_⟩
  have hten : isFinitePos fTen = true := by decide +kernel
  rw [dbToLin_of_between hlo hhi]
  exact fPow_of_isZero hten (isZero_fDiv_fTwenty hz)

/-! ### The divider index (44_smoothing.md R205) -/

/-- Settles O31: the clamp's upper bound is the exact `f32(K - 1)`, so its floor is `K - 1` at most. -/
theorem dividerIndexLiesInTable : Obligations.DividerIndexLiesInTable := fun _ _ => dividerIndex_lt_length

/-! ### Who writes the current values and the delay targets (44_smoothing.md R192, R204) -/

/-- Settles O34: a SAMPLE smooths, the resets start the engine afresh, and PROCESS writes targets alone. -/
theorem currentValuesNeverJump : Obligations.CurrentValuesNeverJump := by
  intro i s t h
  cases effect_of_exec h with
  | sampled x0 x1 =>
    obtain ⟨hcur, -⟩ := sampleStep_oscillator s.params s.const s.snap s.eng s.mem ⟨x0, x1⟩
    exact .inr (.inl ⟨⟨x0, x1, rfl⟩, hcur⟩)
  | configured r => exact .inr (.inr ⟨.inl ⟨r, rfl⟩, rfl⟩)
  | activated => exact .inr (.inr ⟨.inr (.inl rfl), rfl⟩)
  | tornDown => exact .inr (.inr ⟨.inr (.inr rfl), rfl⟩)
  | idle | suppressed | written | answered | cleared | opened | openedNaN => exact .inl rfl

theorem commits_iff {sn : Snapshot} {e : Engine} :
    commits sn e = true ↔ e.fsm = .fadeOutDone ∧ muted sn = false := by
  simp [commits]

theorem crossfadeStep_tgt_d (p : Params) (c : Constants) (sn : Snapshot) (e : Engine) :
    (crossfadeStep p c sn e).tgt.d = if commits sn e then sn.dRes else e.tgt.d := by
  split
  · next h =>
    obtain ⟨hfsm, hmute⟩ := commits_iff.mp h
    rw [crossfadeStep_of_commit hfsm hmute]
    rfl
  · next h =>
    obtain ⟨-, htgt, -⟩ := crossfadeStep_of_not_commits (p := p) (c := c) (Bool.eq_false_iff.mpr h)
    rw [htgt]

/-- Of a sample step only the commit writes the delay targets (R174, R204). -/
theorem sampleStep_tgt_d (p : Params) (c : Constants) (sn : Snapshot) (e : Engine) (m : Memory) (x : Pair Word) :
    (sampleStep p c sn e m x).eng.tgt.d = if commits sn e then sn.dRes else e.tgt.d := by
  have hcontrol := congrArg (fun e => e.tgt.d) (sampleStep_control p c sn e m x)
  exact hcontrol.trans (crossfadeStep_tgt_d p c sn e.control)

/-- Settles O35: a SAMPLE that commits takes the resolved delays, and PROCESS keeps the delay targets it finds. -/
theorem onlyCommitWritesDelayTargets : Obligations.OnlyCommitWritesDelayTargets := by
  intro i s t h
  cases effect_of_exec h with
  | sampled x0 x1 =>
    have htgt := sampleStep_tgt_d s.params s.const s.snap s.eng s.mem ⟨x0, x1⟩
    split at htgt
    · next hcommit =>
      obtain ⟨hfsm, hmute⟩ := commits_iff.mp hcommit
      exact .inr (.inl ⟨⟨x0, x1, rfl⟩, hfsm, hmute, htgt⟩)
    · exact .inl htgt
  | configured r => exact .inr (.inr ⟨.inl ⟨r, rfl⟩, rfl⟩)
  | activated => exact .inr (.inr ⟨.inr (.inl rfl), rfl⟩)
  | tornDown => exact .inr (.inr ⟨.inr (.inr rfl), rfl⟩)
  | idle | suppressed | written | answered | cleared | opened | openedNaN => exact .inl rfl

/-! ### A smoother with the coefficient 1 (44_smoothing.md R190, R210) -/

/-- A pattern is its sign and its magnitude bits. -/
theorem fPack_fSign_fBits (w : Word) : fPack (fSign w) (fBits w) = w := by
  have hlt := fBits_lt w
  refine BitVec.eq_of_toNat_eq ?_
  rw [toNat_eq, fSign_fPack hlt, fBits_fPack hlt, ← toNat_eq]

/-- The product of finite values is the rounding of their exact product (R14). -/
theorem fMul_of_isFinite {a b : Word} (ha : isFinite a = true) (hb : isFinite b = true) :
    fMul a b = fPack (fSign a != fSign b) (roundMag (fMag a * fMag b) (2 ^ 149)) := by
  simp [fMul, isNaN_eq_false_of_isFinite ha, isNaN_eq_false_of_isFinite hb, isInf_eq_false_of_isFinite ha,
    isInf_eq_false_of_isFinite hb]

theorem fMul_comm_of_isFinite {a b : Word} (ha : isFinite a = true) (hb : isFinite b = true) :
    fMul a b = fMul b a := by
  rw [fMul_of_isFinite ha hb, fMul_of_isFinite hb ha, bne_comm, Nat.mul_comm]

/-- Multiplying by 1 is exact, down to the bits. -/
theorem fMul_fOne {a : Word} (ha : isFinite a = true) : fMul a fOne = a := by
  obtain ⟨-, hone, hmag⟩ := fOne_value
  have hsign : fSign fOne = false := by decide
  have hbits : fBits a < 0x7F800000 := of_decide_eq_true ha
  rw [fMul_of_isFinite ha hone, hmag, hsign, Bool.bne_false, fMag_eq_magBits, roundMag_exact _ (by positivity),
    Nat.min_eq_left hbits.le, fPack_fSign_fBits]

/-- With K = 1 and OMK = 0 one update answers the target: the target's product is exact, the other one a zero. -/
theorem smooth_fOne {tgt cur : Word} (ht : isFinite tgt = true) (hc : isFinite cur = true) :
    fVal (smooth fOne (fSub fOne fOne) tgt cur) = fVal tgt ∧ isFinite (smooth fOne (fSub fOne fOne) tgt cur) = true := by
  obtain ⟨-, hone, -⟩ := fOne_value
  obtain ⟨hzero, hzeroval⟩ := fZero_value
  obtain ⟨homk, homkval⟩ := fSub_exact hone hone hzero (by rw [hzeroval, sub_self])
  obtain ⟨hprod, hprodval⟩ := fMul_of_fVal_eq_zero homk hc (homkval.trans hzeroval)
  rw [smooth, fMul_fOne ht, fMul_comm_of_isFinite hc homk]
  exact (fAdd_exact ht hprod ht (by rw [hprodval, add_zero])).symm

/-- Settles O54: each smoother of the nine is one `smooth` of its own pair of values and of coefficients. -/
theorem smootherWithUnitCoefficientReachesTarget : Obligations.SmootherWithUnitCoefficientReachesTarget :=
  ⟨fun _ _ => smooth_fOne, fun _ _ _ _ => ⟨rfl, rfl, rfl, rfl, rfl, rfl, rfl, rfl, rfl⟩⟩

end Sys2Proof.Machine
end

section

namespace Sys2Proof.Machine

/-! ### The oscillator offsets and the inversion latch (45_lfo.md R221, R222) -/

theorem fSin_fZero : fSin fZero = fZero := if_pos rfl

section

variable {c : Constants} {e : Engine}

theorem lfoOffsets_of_not_invLat (h : e.invLat = false) :
    lfoOffsets c e = ⟨fMul (lfoAmp c e) (fSin e.phase), fMul (lfoAmp c e) (fSin e.phase)⟩ := by
  simp [lfoOffsets, h]

theorem lfoOffsets_of_invLat (h : e.invLat = true) :
    lfoOffsets c e = ⟨fMul (lfoAmp c e) (fSin e.phase), fNeg (fMul (lfoAmp c e) (fSin e.phase))⟩ := by
  simp [lfoOffsets, h]

/-- At the phase and latch that ACTIVATE leaves (R52) both channels get the amplitude times `SIN(+0.0)`, a +0.0. -/
theorem lfoOffsets_of_phase_zero (hphase : e.phase = fZero) (hlat : e.invLat = false) :
    lfoOffsets c e = ⟨fMul (lfoAmp c e) fZero, fMul (lfoAmp c e) fZero⟩ := by
  rw [lfoOffsets_of_not_invLat hlat, hphase, fSin_fZero]

variable {sn : Snapshot}

theorem lfoEngine_of_wrap (h : fGe (fAdd e.phase (lfoInc c e)) fTwoPi = true) :
    lfoEngine c sn e =
      { e with inc := lfoInc c e, phase := fSub (fAdd e.phase (lfoInc c e)) fTwoPi, invLat := sn.invIn } :=
  if_pos h

theorem lfoEngine_of_not_wrap (h : fGe (fAdd e.phase (lfoInc c e)) fTwoPi = false) :
    lfoEngine c sn e = { e with inc := lfoInc c e, phase := fAdd e.phase (lfoInc c e) } :=
  if_neg (Bool.eq_false_iff.mp h)

end

/-- Settles O59: the offsets by the latch, the engine by whether the advanced phase reaches TWO_PI. -/
theorem oscillatorInversionLatchesAtWrap : Obligations.OscillatorInversionLatchesAtWrap := by
  refine ⟨fun c e => ⟨rfl, fun hlat => ?_, fun hlat => ?_, lfoOffsets_of_phase_zero⟩,
    fun c sn e => ⟨?_, fun hwrap => ?_, fun hwrap => ?_⟩⟩
  · rw [lfoOffsets_of_not_invLat hlat]
  · rw [lfoOffsets_of_invLat hlat]
    rfl
  · rw [lfoEngine_eq]
    rfl
  · rw [lfoEngine_of_wrap hwrap]
    exact ⟨rfl, rfl⟩
  · rw [lfoEngine_of_not_wrap hwrap]
    exact ⟨rfl, rfl⟩

end Sys2Proof.Machine
end

section

namespace Sys2Proof.Machine

/-! ### The limiter (46_mixer_limiter.md R235, R237) -/

theorem fBits_fAbs (x : Word) : fBits (fAbs x) = fBits x := by
  have hmask : (fAbs x).toNat = x.toNat % 2 ^ 31 := Nat.and_two_pow_sub_one_eq_mod x.toNat 31
  rw [fBits, hmask, Nat.mod_mod, fBits]

theorem isNaN_fAbs (x : Word) : isNaN (fAbs x) = isNaN x := by rw [isNaN, fBits_fAbs, isNaN]

section

variable {c : Constants} {env x : Word}

theorem limiterEnv_of_attack (h : fGt (fAbs x) env = true) :
    limiterEnv c env x = fAdd (fMul c.att (fSub env (fAbs x))) (fAbs x) := by
  simp [limiterEnv, h]

theorem limiterEnv_of_release (h : fGt (fAbs x) env = false) :
    limiterEnv c env x = fAdd (fMul c.rel (fSub env (fAbs x))) (fAbs x) := by
  simp [limiterEnv, h]

theorem limiterOut_of_le_one (h : fGt env fOne = false) : limiterOut env x = x :=
  if_neg (Bool.eq_false_iff.mp h)

theorem limiterOut_of_gt_one (h : fGt env fOne = true) : limiterOut env x = fDiv x env := if_pos h

/-- Either NaN reaches the updated envelope through the difference, whichever coefficient multiplies it (R237(e)). -/
theorem isNaN_limiterEnv (h : isNaN env = true ∨ isNaN x = true) : isNaN (limiterEnv c env x) = true := by
  have hdiff : isNaN (fSub env (fAbs x)) = true := by
    rcases h with henv | hx
    · exact isNaN_fSub_left _ henv
    · exact isNaN_fSub_right _ ((isNaN_fAbs x).trans hx)
  exact isNaN_fAdd_left _ (isNaN_fMul_right _ hdiff)

/-- A NaN envelope does not exceed 1, so it passes every tap (R237(e)). -/
theorem limiterOut_of_isNaN (h : isNaN env = true) : limiterOut env x = x :=
  limiterOut_of_le_one (fLt_of_isNaN_right fOne h)

end

/-- Settles O55: the envelope by its coefficient, the tap by whether the updated envelope exceeds 1. -/
theorem limiterLaw : Obligations.LimiterLaw := fun _ _ _ =>
  ⟨limiterEnv_of_attack, limiterEnv_of_release, limiterOut_of_le_one, limiterOut_of_gt_one,
    fun hnan => ⟨isNaN_limiterEnv hnan, limiterOut_of_isNaN (isNaN_limiterEnv hnan)⟩⟩

/-! ### The words the mixer writes (46_mixer_limiter.md R241, R242) -/

section

variable {p : Params} {sn : Snapshot} (cur : Smoothers) (fin tg : Pair Word)

theorem mix_of_normal (h : sn.pp = false) : mix p sn cur fin tg = mixNormal cur fin tg :=
  if_neg (Bool.eq_false_iff.mp h)

theorem mix_of_pingPong (h : sn.pp = true) : mix p sn cur fin tg = mixPingPong p cur fin tg := if_pos h

theorem mixNormal_get (ch : Chan) : (mixNormal cur fin tg).get ch =
    fAdd (fAdd (fMul cur.inp (fin.get ch)) (fMul (tg.get ch) cur.fb)) (fMul (tg.get (otherChan ch)) cur.cf) := by
  cases ch <;> rfl

end

/-- Settles O58: each mode's two words, the normal mode's by the one equation of both channels. -/
theorem mixerLaw : Obligations.MixerLaw := by
  refine fun p sn cur fin tg => ⟨fun hnormal => ?_, fun hpp => ?_⟩
  · rw [mix_of_normal cur fin tg hnormal]
    exact ⟨mixNormal_get cur fin tg .c0, mixNormal_get cur fin tg .c1⟩
  · rw [mix_of_pingPong cur fin tg hpp]
    exact ⟨rfl, rfl⟩

end Sys2Proof.Machine
end

section

namespace Sys2Proof

@[simp] theorem Sites.set_get_self {α : Type} (T : Sites α) (t : Site) : T.set t (T.get t) = T := by cases t <;> rfl

theorem Chan.c1_ne_c0 : Chan.c1 ≠ .c0 := by decide

end Sys2Proof

namespace Sys2Proof.Machine

/-! ### A channel's own part of the engine (47_sample_step.md R256)

The tap stage and the input chain of one channel read and write that channel's envelope and biquads alone. So each is a
function on this part, and stages of different channels commute. -/

/-- One channel's limiter envelope and its four biquads. -/
structure Strip where
  env : Word
  filt : Sites Biquad

/-- Channel `ch`'s part of the engine. -/
def Engine.strip (e : Engine) (ch : Chan) : Strip := ⟨e.env.get ch, perSite (fun t => (e.filt.get t).get ch)⟩

/-- The engine with channel `ch`'s part replaced. -/
def Engine.setStrip (e : Engine) (ch : Chan) (S : Strip) : Engine :=
  { e with env := e.env.set ch S.env, filt := perSite (fun t => (e.filt.get t).set ch (S.filt.get t)) }

/-- A stage of one channel, run on the engine: it replaces the channel's part and returns a word. -/
def Engine.onStrip (e : Engine) (ch : Chan) (φ : Strip → Strip × Word) : Engine × Word :=
  (e.setStrip ch (φ (e.strip ch)).1, (φ (e.strip ch)).2)

@[simp] theorem Engine.strip_env (e : Engine) (ch : Chan) : (e.strip ch).env = e.env.get ch := rfl

@[simp] theorem Engine.strip_filt_get (e : Engine) (ch : Chan) (t : Site) :
    (e.strip ch).filt.get t = (e.filt.get t).get ch := by cases t <;> rfl

@[simp] theorem Engine.strip_setStrip_same (e : Engine) (ch : Chan) (S : Strip) : (e.setStrip ch S).strip ch = S := by
  cases ch <;> rfl

theorem Engine.strip_setStrip_other (e : Engine) {a b : Chan} (S : Strip) (h : b ≠ a) :
    (e.setStrip a S).strip b = e.strip b := by
  simp only [strip, setStrip, perSite, Sites.get, Pair.get_set_other _ _ h]

@[simp] theorem Engine.setStrip_strip (e : Engine) (ch : Chan) : e.setStrip ch (e.strip ch) = e := by cases ch <;> rfl

@[simp] theorem Engine.setStrip_setStrip (e : Engine) (ch : Chan) (S T : Strip) :
    (e.setStrip ch S).setStrip ch T = e.setStrip ch T := by cases ch <;> rfl

/-- Updates of different channels' parts commute. -/
theorem Engine.setStrip_comm (e : Engine) {a b : Chan} (S T : Strip) (h : a ≠ b) :
    (e.setStrip a S).setStrip b T = (e.setStrip b T).setStrip a S := by
  simp only [setStrip, perSite, Sites.get, Pair.set_comm _ _ _ h]

/-- A new envelope is a new part of its channel. -/
theorem Engine.env_set_eq_setStrip (e : Engine) (ch : Chan) (v : Word) :
    { e with env := e.env.set ch v } = e.setStrip ch { e.strip ch with env := v } := by cases ch <;> rfl

/-- A new biquad is a new part of its channel. -/
theorem Engine.setFilt_eq_setStrip (e : Engine) (t : Site) (ch : Chan) (F : Biquad) :
    e.setFilt t ch F = e.setStrip ch { e.strip ch with filt := (e.strip ch).filt.set t F } := by
  cases t <;> cases ch <;> rfl

theorem Engine.onStrip_fst (e : Engine) (ch : Chan) (φ : Strip → Strip × Word) :
    (e.onStrip ch φ).1 = e.setStrip ch (φ (e.strip ch)).1 := rfl

theorem Engine.onStrip_snd (e : Engine) (ch : Chan) (φ : Strip → Strip × Word) :
    (e.onStrip ch φ).2 = (φ (e.strip ch)).2 := rfl

theorem Engine.strip_onStrip_same (e : Engine) (ch : Chan) (φ : Strip → Strip × Word) :
    (e.onStrip ch φ).1.strip ch = (φ (e.strip ch)).1 := e.strip_setStrip_same ch _

/-- A stage of another channel leaves this channel's part alone. -/
theorem Engine.strip_onStrip_other (e : Engine) {a b : Chan} (φ : Strip → Strip × Word) (h : b ≠ a) :
    (e.onStrip a φ).1.strip b = e.strip b := Engine.strip_setStrip_other e _ h

/-- Stages of two different channels may run in either order (R256). -/
theorem Engine.onStrip_comm (e : Engine) {a b : Chan} (φ ψ : Strip → Strip × Word) (h : a ≠ b) :
    ((e.onStrip a φ).1.onStrip b ψ).1 = ((e.onStrip b ψ).1.onStrip a φ).1 ∧
      (e.onStrip a φ).2 = ((e.onStrip b ψ).1.onStrip a φ).2 ∧
      ((e.onStrip a φ).1.onStrip b ψ).2 = (e.onStrip b ψ).2 := by
  have ha : (e.onStrip b ψ).1.strip a = e.strip a := e.strip_onStrip_other ψ h
  have hb : (e.onStrip a φ).1.strip b = e.strip b := e.strip_onStrip_other φ h.symm
  refine ⟨?_, by rw [onStrip_snd, onStrip_snd, ha], by rw [onStrip_snd, onStrip_snd, hb]⟩
  rw [onStrip_fst, hb, (e.onStrip b ψ).1.onStrip_fst, ha]
  exact e.setStrip_comm _ _ h

/-! ### The stages of the sample step as stages of one channel (R255 steps 4 and 5) -/

/-- The word that leaves site `t` with the biquad `F` for the input `u` (R132, R238, R239). -/
def siteWord (c : Constants) (sn : Snapshot) (t : Site) (F : Biquad) (u : Word) : Word :=
  if sn.on.get t then biquadOut (siteCoeffs c sn t) F u else u

/-- The biquad `F` of site `t` after the input `u`; an off site holds it (R138, R239). -/
def siteBiquad (c : Constants) (sn : Snapshot) (t : Site) (F : Biquad) (u : Word) : Biquad :=
  if sn.on.get t then biquadNext F u (siteWord c sn t F u) else F

/-- One filter site on a channel's part. -/
def Strip.site (c : Constants) (sn : Snapshot) (t : Site) (u : Word) (S : Strip) : Strip × Word :=
  ({ S with filt := S.filt.set t (siteBiquad c sn t (S.filt.get t) u) }, siteWord c sn t (S.filt.get t) u)

/-- Two filter sites in a row on a channel's part. -/
def Strip.chain (c : Constants) (sn : Snapshot) (t r : Site) (u : Word) (S : Strip) : Strip × Word :=
  (S.site c sn t u).1.site c sn r (S.site c sn t u).2

/-- The input chain on a channel's part (R238). -/
def Strip.input (c : Constants) (sn : Snapshot) (u : Word) (S : Strip) : Strip × Word := S.chain c sn .ihc .ilc u

/-- The tap stage on a channel's part: limit the raw tap, filter it, gate it with the fade (R235, R239, R240). -/
def Strip.tap (c : Constants) (sn : Snapshot) (fade raw : Word) (S : Strip) : Strip × Word :=
  let env' := limiterEnv c S.env raw
  let t := Strip.chain c sn .fhc .flc (limiterOut env' raw) { S with env := env' }
  (t.1, fMul t.2 fade)

section

variable (c : Constants) (sn : Snapshot) (ch : Chan) (e : Engine)

theorem siteNext_eq_setFilt (t : Site) (u : Word) :
    siteNext c sn t ch e u = e.setFilt t ch (siteBiquad c sn t ((e.filt.get t).get ch) u) := by
  cases hon : sn.on.get t with
  | false =>
    have hself : e.setFilt t ch ((e.filt.get t).get ch) = e := by
      rw [e.setFilt_eq_setStrip, ← e.strip_filt_get, Sites.set_get_self, e.setStrip_strip]
    simp [siteNext_of_off c ch e u hon, siteBiquad, hon, hself]
  | true =>
    rw [siteNext_of_on c ch e u hon, siteBiquad, if_pos hon]
    rfl

theorem site_eq_onStrip (t : Site) (u : Word) :
    (siteNext c sn t ch e u, siteOut c sn t ch e u) = e.onStrip ch (Strip.site c sn t u) := by
  rw [siteNext_eq_setFilt, e.setFilt_eq_setStrip, ← e.strip_filt_get, siteOut, ← e.strip_filt_get]
  rfl

theorem chain_eq_onStrip (t r : Site) (u : Word) : chain c sn t r ch e u = e.onStrip ch (Strip.chain c sn t r u) := by
  obtain ⟨hnext, hout⟩ := Prod.mk.inj (site_eq_onStrip c sn ch e t u)
  rw [chain, site_eq_onStrip, hnext, hout]
  simp [Engine.onStrip, Strip.chain]

theorem inputFilter_eq_onStrip (u : Word) : inputFilter c sn ch e u = e.onStrip ch (Strip.input c sn u) :=
  chain_eq_onStrip c sn ch e .ihc .ilc u

theorem tapStage_eq_onStrip (fade : Word) (m : Memory) (pos : Word) :
    tapStage c sn fade m ch pos e = e.onStrip ch (Strip.tap c sn fade (readInterp c m ch pos)) := by
  rw [tapStage, feedbackFilter, chain_eq_onStrip, e.env_set_eq_setStrip]
  simp [Engine.onStrip, Strip.tap]

end

/-- Settles O36: each stage acts on its own channel's part, and stages of different channels commute. -/
theorem channelOrderDoesNotMatter : Obligations.ChannelOrderDoesNotMatter := by
  intro c sn fade m e pos x
  simp only [tapStage_eq_onStrip, inputFilter_eq_onStrip]
  obtain ⟨htap, htap0, htap1⟩ := e.onStrip_comm (Strip.tap c sn fade (readInterp c m .c0 pos.c0))
    (Strip.tap c sn fade (readInterp c m .c1 pos.c1)) Chan.c1_ne_c0.symm
  obtain ⟨hin, hin0, hin1⟩ := e.onStrip_comm (Strip.input c sn x.c0) (Strip.input c sn x.c1) Chan.c1_ne_c0.symm
  exact ⟨htap, htap0, htap1, hin, hin0, hin1⟩

end Sys2Proof.Machine
end

section

namespace Sys2Proof.Machine

/-! ### A sample step, channel by channel (47_sample_step.md R255, R256) -/

/-- The raw tap of channel `ch`: the buffer at its read position (R152, R153). -/
def rawTap (c : Constants) (m : Memory) (e : Engine) (off : Pair Word) (ch : Chan) : Word :=
  readInterp c m ch (readPosition e.w (e.cur.d.get ch) (off.get ch))

section

variable (p : Params) (c : Constants) (sn : Snapshot) (e : Engine) (m : Memory) (fade : Word) (off x : Pair Word)

/-- Channel `ch` after step 4, and its gated tap. -/
def audioTap (ch : Chan) : Strip × Word := (e.strip ch).tap c sn fade (rawTap c m e off ch)

/-- Channel `ch` after step 5, and its filtered input. -/
def audioInput (ch : Chan) : Strip × Word := (audioTap c sn e m fade off ch).1.input c sn (x.get ch)

/-- The audio part leaves each channel as its own two stages do, whatever the other channel does. -/
theorem stepAudio_strip (ch : Chan) :
    (stepAudio p c sn e m fade off x).eng.strip ch = (audioInput c sn e m fade off x ch).1 := by
  have hadvance (e' : Engine) : (advance c e').strip ch = e'.strip ch := rfl
  simp only [stepAudio, tapStage_eq_onStrip, inputFilter_eq_onStrip, hadvance]
  cases ch with
  | c0 =>
    simp only [Engine.strip_onStrip_same, Engine.strip_onStrip_other _ _ Chan.c1_ne_c0.symm]
    rfl
  | c1 =>
    simp only [Engine.strip_onStrip_same, Engine.strip_onStrip_other _ _ Chan.c1_ne_c0]
    rfl

/-- The outputs mix each input with its channel's gated tap (R243). -/
theorem stepAudio_y : (stepAudio p c sn e m fade off x).y =
    outputs e.cur x (perChan fun ch => (audioTap c sn e m fade off ch).2) := by
  simp only [stepAudio, tapStage_eq_onStrip, Engine.onStrip_snd, e.strip_onStrip_other _ Chan.c1_ne_c0]
  rfl

/-- Each channel gets its word of MIX (R241, R242, R257). -/
theorem stepAudio_mem_eq_mix :
    let v := mix p sn e.cur (perChan fun ch => (audioInput c sn e m fade off x ch).2)
      (perChan fun ch => (audioTap c sn e m fade off ch).2)
    (stepAudio p c sn e m fade off x).mem = bufWrite c (bufWrite c m .c0 e.w v.c0) .c1 e.w v.c1 := by
  simp only [stepAudio, tapStage_eq_onStrip, inputFilter_eq_onStrip, Engine.onStrip_snd, Engine.strip_onStrip_same,
    Engine.strip_onStrip_other _ _ Chan.c1_ne_c0, Engine.strip_onStrip_other _ _ Chan.c1_ne_c0.symm]
  rfl

end

/-- The oscillator changes no channel's part, no current value and not the write index (R221). -/
theorem lfoEngine_audio (c : Constants) (sn : Snapshot) (e : Engine) :
    (lfoEngine c sn e).strip = e.strip ∧ (lfoEngine c sn e).cur = e.cur ∧ (lfoEngine c sn e).w = e.w := by
  rw [lfoEngine_eq]
  exact ⟨rfl, rfl, rfl⟩

/-- Steps 1 and 2 change no channel's part, and the current values only by the smoothers (R174, R191). -/
theorem stepControl_audio (p : Params) (c : Constants) (sn : Snapshot) (e : Engine) :
    (stepControl p c sn e).strip = e.strip ∧ (stepControl p c sn e).cur = smoothAll p c e.tgt e.cur := by
  obtain ⟨hcur, -, -, -, henv, hfilt⟩ := fsmEngine_frame p c sn (smoothEngine p c e)
  refine ⟨?_, hcur⟩
  funext ch
  rw [Engine.strip, stepControl, henv, hfilt]
  rfl

section

variable (p : Params) (c : Constants) (sn : Snapshot) (e : Engine) (m : Memory) (x : Pair Word)

/-- Channel `ch` after step 4 of a whole sample step, and its gated tap: the tap is read in the buffers and at the write
index after the state machine. -/
def sampleTap (ch : Chan) : Strip × Word :=
  (e.strip ch).tap c sn (fadeOf c (stepControl p c sn e))
    (rawTap c (fsmMemory p sn (smoothEngine p c e) m) (stepControl p c sn e) (lfoOffsets c (stepControl p c sn e)) ch)

/-- Channel `ch` after step 5 of a whole sample step, and its filtered input. -/
def sampleInput (ch : Chan) : Strip × Word := (sampleTap p c sn e m ch).1.input c sn (x.get ch)

/-- The oscillator of step 3 does not reach the taps of step 4 but by its offsets. -/
theorem audioTap_lfoEngine :
    audioTap c sn (lfoEngine c sn (stepControl p c sn e)) (fsmMemory p sn (smoothEngine p c e) m)
      (fadeOf c (stepControl p c sn e)) (lfoOffsets c (stepControl p c sn e)) = sampleTap p c sn e m := by
  obtain ⟨hstrip, hcur, hw⟩ := lfoEngine_audio c sn (stepControl p c sn e)
  obtain ⟨hstrip', -⟩ := stepControl_audio p c sn e
  funext ch
  rw [audioTap, rawTap, hstrip, hcur, hw, hstrip']
  rfl

theorem sampleStep_strip (ch : Chan) : (sampleStep p c sn e m x).eng.strip ch = (sampleInput p c sn e m x ch).1 := by
  rw [sampleStep, stepAudio_strip, audioInput, audioTap_lfoEngine, sampleInput]

theorem sampleStep_y : (sampleStep p c sn e m x).y =
    outputs (smoothAll p c e.tgt e.cur) x (perChan fun ch => (sampleTap p c sn e m ch).2) := by
  obtain ⟨-, hcur, -⟩ := lfoEngine_audio c sn (stepControl p c sn e)
  obtain ⟨-, hcur'⟩ := stepControl_audio p c sn e
  rw [sampleStep, stepAudio_y, audioTap_lfoEngine, hcur, hcur']

theorem sampleStep_mem_eq_mix :
    let v := mix p sn (smoothAll p c e.tgt e.cur) (perChan fun ch => (sampleInput p c sn e m x ch).2)
      (perChan fun ch => (sampleTap p c sn e m ch).2)
    let i := (stepControl p c sn e).w
    (sampleStep p c sn e m x).mem =
      bufWrite c (bufWrite c (fsmMemory p sn (smoothEngine p c e) m) .c0 i v.c0) .c1 i v.c1 := by
  obtain ⟨-, hcur, hw⟩ := lfoEngine_audio c sn (stepControl p c sn e)
  obtain ⟨-, hcur'⟩ := stepControl_audio p c sn e
  simp only [sampleStep, stepAudio_mem_eq_mix, audioInput, audioTap_lfoEngine, sampleInput, hcur, hcur', hw]

/-- Beside the channels' parts a sample step leaves what its first three steps leave, and the two counters one on
(R255 step 9). -/
theorem sampleStep_eng_eq :
    (sampleStep p c sn e m x).eng =
      advance c { lfoEngine c sn (stepControl p c sn e) with
        env := (sampleStep p c sn e m x).eng.env
        filt := (sampleStep p c sn e m x).eng.filt } := stepAudio_eng_eq p c sn _ _ _ _ x

end

/-! ### The two buffer writes of a sample step (R150, R257) -/

/-- Each channel reads its own word back. -/
theorem readWord_bufWrite_both {c : Constants} {m : Memory} (i : Nat) (v : Pair Word) (h : m.wf = true) (ch : Chan) :
    (bufWrite c (bufWrite c m .c0 i v.c0) .c1 i v.c1).readWord ch (i % c.cap) = v.get ch := by
  cases ch with
  | c0 =>
    rw [bufWrite, Memory.readWord_writeWord_other _ _ (.inl Chan.c1_ne_c0.symm)]
    exact Memory.readWord_writeWord_same _ _ _ h
  | c1 => exact Memory.readWord_writeWord_same _ _ _ (wf_bufWrite c .c0 i v.c0 h)

/-- No byte outside the word at `i mod C` changes, in either channel. -/
theorem readByte_bufWrite_both {c : Constants} (m : Memory) {i a : Nat} (v : Pair Word) (ch : Chan)
    (h : a < 4 * (i % c.cap) ∨ 4 * (i % c.cap) + 4 ≤ a) :
    (bufWrite c (bufWrite c m .c0 i v.c0) .c1 i v.c1).readByte ch a = m.readByte ch a := by
  rw [bufWrite, Memory.readByte_writeWord_other _ _ (.inr h), bufWrite, Memory.readByte_writeWord_other _ _ (.inr h)]

/-- Without a commit the state machine leaves the buffers (R174). -/
theorem fsmMemory_of_not_commits {sn : Snapshot} {e : Engine} (h : commits sn e = false) (p : Params) (m : Memory) :
    fsmMemory p sn e m = m := if_neg (Bool.eq_false_iff.mp h)

/-- A commit does to the buffers what CLEAR_POLICY says (R156, R174). -/
theorem fsmMemory_of_commits {sn : Snapshot} {e : Engine} (h : commits sn e = true) (p : Params) (m : Memory) :
    fsmMemory p sn e m = commitMemory p m := if_pos h

/-- A SAMPLE inside a block runs (R277). -/
theorem exec_sample_of_open {s : State} (x0 x1 : Word) (h : s.blockRemain ≠ 0#16) :
    exec (.sample x0 x1) s = .next (s.sampled x0 x1) := if_pos ((State.blk_iff s).mpr h)

/-- Settles O33: the engine beside the channels' parts, each channel's part and words by its own two stages, and the two
buffer writes. -/
theorem sampleRunsOneStep : Obligations.SampleRunsOneStep := by
  intro s x0 x1 hopen
  have heng : (s.sampled x0 x1).eng = _ := sampleStep_eng_eq s.params s.const s.snap s.eng s.mem ⟨x0, x1⟩
  have hmem : (s.sampled x0 x1).mem = _ := sampleStep_mem_eq_mix s.params s.const s.snap s.eng s.mem ⟨x0, x1⟩
  have hy : (s.stepOf x0 x1).y = _ := sampleStep_y s.params s.const s.snap s.eng s.mem ⟨x0, x1⟩
  have hstrip (ch : Chan) : (s.sampled x0 x1).eng.strip ch = _ :=
    sampleStep_strip s.params s.const s.snap s.eng s.mem ⟨x0, x1⟩ ch
  have hfilt (ch : Chan) (t : Site) : ((s.sampled x0 x1).eng.filt.get t).get ch =
      (sampleInput s.params s.const s.snap s.eng s.mem ⟨x0, x1⟩ ch).1.filt.get t := by
    rw [← Engine.strip_filt_get, hstrip]
  refine ⟨s.sampled x0 x1, exec_sample_of_open x0 x1 hopen, ?outputs, ?counter, ?cur, ?tgt, ?fsm, ?fadePos, ?com, ?w,
    ?fillCnt, ?phase, ?inc, ?invLat, fun ch => congrArg Strip.env (hstrip ch),
    fun ch => ⟨hfilt ch .ihc, hfilt ch .ilc, hfilt ch .fhc, hfilt ch .flc⟩, fun hwf ch => ?word, fun ch a ha => ?bytes,
    fun hno => fsmMemory_of_not_commits hno _ _, fun hfsm hmute => ?commit, rfl⟩
  case outputs => rw [State.sampled_outq, hy]; rfl
  case counter => rw [State.sampled_blockRemain]; bv_omega
  case cur => exact (sampleStep_oscillator s.params s.const s.snap s.eng s.mem ⟨x0, x1⟩).1
  case tgt | fsm | fadePos | com | w | fillCnt => rw [heng, lfoEngine_eq]; rfl
  case phase | inc | invLat => rw [heng]; rfl
  case word => rw [hmem]; exact readWord_bufWrite_both _ _ (wf_fsmMemory hwf) ch
  case bytes => rw [hmem]; exact readByte_bufWrite_both _ _ ch ha
  case commit =>
    have hcommits : commits s.snap (smoothEngine s.params s.const s.eng) = true := commits_iff.mpr ⟨hfsm, hmute⟩
    have hbuffers := fsmMemory_of_commits hcommits s.params s.mem
    exact ⟨fun hclear => hbuffers.trans (by rw [commitMemory, hclear]),
      fun hkeep => hbuffers.trans (by rw [commitMemory, hkeep])⟩

end Sys2Proof.Machine
end

section

namespace Sys2Proof

/-! ### The words of a transaction (30_encoding.md R103, R104) -/

/-- Fewer words than asked for have arrived. -/
theorem dropWords_eq_none_iff {n : Nat} {ws : List Word} : dropWords n ws = none ↔ ws.length < n := by
  induction n generalizing ws with
  | zero => simp [dropWords]
  | succ n ih =>
    cases ws with
    | nil => simp [dropWords]
    | cons w ws => rw [dropWords, ih, List.length_cons, Nat.add_lt_add_iff_right]

theorem dropWords_append (data rest : List Word) : dropWords data.length (data ++ rest) = some rest := by
  induction data with
  | nil => rfl
  | cons w data ih => exact ih

/-- A command word that decodes waits for the data words of its opcode (R103). -/
theorem withData_eq_wait_iff {opc : Opcode} {idx n : Nat} {ws : List Word} :
    withData opc idx n ws = .wait ↔ ws.length < opc.dataWords := by
  cases opc with
  | config | wparam => cases ws <;> simp [withData, Opcode.dataWords]
  | sample =>
    match ws with
    | [] | [_] | _ :: _ :: _ => simp [withData, Opcode.dataWords]
  | nop | activate | rparam | process | teardown | clrstat => simp [withData, Opcode.dataWords]

/-- A defined opcode with a non-zero must-be-zero field (R102, R104). -/
theorem decodeWord_eq_illegal {cw : Word} {opc : Opcode} (hopc : opcField cw = opc.bits)
    (hmbz : rsvField cw ≠ 0#4 ∨ (opc ≠ .wparam ∧ opc ≠ .rparam ∧ idxField cw ≠ 0#8) ∨
      (opc ≠ .process ∧ nField cw ≠ 0#16)) : decodeWord cw = .illegal opc := by
  rw [decodeWord, hopc, opcodeOf_bits]
  dsimp only
  split_ifs with hrsv hidx hn
  · rfl
  · rfl
  · rfl
  · exact absurd hmbz (by simp only [hrsv, hidx, hn, or_self, not_false_eq_true])

/-- A word with a defined opcode is a command of that opcode or an illegal word of it (R104). -/
theorem decodeWord_of_bits {cw : Word} {opc : Opcode} (hopc : opcField cw = opc.bits) :
    decodeWord cw = .illegal opc ∨ ∃ idx n, decodeWord cw = .cmd opc idx n := by
  rw [decodeWord, hopc, opcodeOf_bits]
  dsimp only
  split_ifs
  · exact .inl rfl
  · exact .inl rfl
  · exact .inl rfl
  · exact .inr ⟨_, _, rfl⟩

theorem decode_cons_of_reserved {cw : Word} (ws : List Word) (h : 9 ≤ (opcField cw).toNat) :
    decode (cw :: ws) = .reserved ws := by
  rw [decode, decodeWord_eq_reserved_iff.mpr h]

theorem decode_cons_of_illegal {cw : Word} {opc : Opcode} {data : List Word} (rest : List Word)
    (h : decodeWord cw = .illegal opc) (hdata : data.length = opc.dataWords) :
    decode (cw :: (data ++ rest)) = .illegal opc rest := by
  rw [decode, h]
  dsimp only
  rw [← hdata, dropWords_append]

/-- Well formed or not, a word with a defined opcode waits for that opcode's data words (R103, R104). -/
theorem decode_cons_eq_wait_iff {cw : Word} {opc : Opcode} (ws : List Word) (hopc : opcField cw = opc.bits) :
    decode (cw :: ws) = .wait ↔ ws.length < opc.dataWords := by
  rcases decodeWord_of_bits hopc with hill | ⟨idx, n, hcmd⟩
  · rw [decode, hill, ← dropWords_eq_none_iff]
    dsimp only
    split <;> simp [*]
  · rw [decode, hcmd]
    exact withData_eq_wait_iff

/-- The port waits for a first word, or for data words that a defined opcode lacks. -/
theorem decode_eq_wait_iff {ws : List Word} : decode ws = .wait ↔
    ws = [] ∨ ∃ cw ds opc, ws = cw :: ds ∧ opcField cw = Opcode.bits opc ∧ ds.length < opc.dataWords := by
  constructor
  · intro h
    cases ws with
    | nil => exact .inl rfl
    | cons cw ds =>
      cases hopc : opcodeOf (opcField cw) with
      | none =>
        rw [decode_cons_of_reserved ds (opcodeOf_eq_none_iff.mp hopc)] at h
        cases h
      | some opc =>
        have hbits := (bits_of_opcodeOf hopc).symm
        exact .inr ⟨cw, ds, opc, rfl, hbits, (decode_cons_eq_wait_iff ds hbits).mp h⟩
  · rintro (rfl | ⟨cw, ds, opc, rfl, hopc, hlt⟩)
    · rfl
    · exact (decode_cons_eq_wait_iff ds hopc).mpr hlt

/-- Every command is written as one word of its opcode and the data words of that opcode (R103). -/
theorem transactionShape (i : Instr) : Laws.TransactionShape.Statement i := by
  cases i with
  | nop => exact Laws.TransactionShape.nop
  | config r => exact Laws.TransactionShape.config r
  | activate => exact Laws.TransactionShape.activate
  | wparam idx v => exact Laws.TransactionShape.wparam idx v
  | rparam idx => exact Laws.TransactionShape.rparam idx
  | process n => exact Laws.TransactionShape.process n
  | sample x0 x1 => exact Laws.TransactionShape.sample x0 x1
  | teardown => exact Laws.TransactionShape.teardown
  | clrstat => exact Laws.TransactionShape.clrstat

/-- The first words of a command, but not all of them, leave the decoder waiting. -/
theorem decode_take_encode {i : Instr} {n : Nat} (h : n < (encode i).length) : decode ((encode i).take n) = .wait := by
  obtain ⟨cw, ds, henc, hlen, hopc, -⟩ := transactionShape i
  rw [henc] at h ⊢
  cases n with
  | zero => rfl
  | succ m =>
    rw [List.take_succ_cons, decode_cons_eq_wait_iff _ hopc, List.length_take]
    rw [List.length_cons] at h
    omega

end Sys2Proof

namespace Sys2Proof.Machine

/-! ### What the port does with words that are no command (48_commands.md R280, 70_reset_and_hazards.md R331) -/

theorem step_of_wait {s : State} (h : decode s.inq = .wait) : step s = .next s := by
  rw [step, State.serve, h]

theorem step_of_reserved {s : State} {rest : List Word} (h : decode s.inq = .reserved rest) :
    step s = .next ((s.withIn rest).fail .illegalCmd 0) := by
  rw [step, State.serve, h]

theorem step_of_illegal {s : State} {opc : Opcode} {rest : List Word} (h : decode s.inq = .illegal opc rest) :
    step s = .next ((s.withIn rest).fail .illegalCmd opc.resultWords) := by
  rw [step, State.serve, h]

/-- A suppressed command records its error, returns zero words and has no other effect (R304, R305). -/
theorem State.fail_eq (s : State) (e : ErrCode) (results : Nat) :
    s.fail e results = { s with
      err := s.err ||| (1#7 <<< (e.code - 1))
      lastErr := BitVec.ofNat 4 e.code
      outq := s.outq ++ List.replicate results 0#32 } := rfl

/-- A suppressed command with no result words leaves the result queue. -/
theorem State.fail_zero_eq (s : State) (e : ErrCode) :
    s.fail e 0 = { s with err := s.err ||| (1#7 <<< (e.code - 1)), lastErr := BitVec.ofNat 4 e.code } := by
  simp only [State.fail_eq, List.replicate_zero, List.append_nil]

/-- Settles O4: a reserved word decodes to no opcode, and a non-zero must-be-zero field to an illegal word of its
opcode. -/
theorem malformedWordsRaiseIllegalCmd : Obligations.MalformedWordsRaiseIllegalCmd := by
  refine ⟨fun s cw rest hinq hopc => ?reserved, fun s cw opc data rest hinq hopc hdata hmbz => ?illegal⟩
  case reserved =>
    rw [step_of_reserved (hinq ▸ decode_cons_of_reserved rest hopc), State.fail_zero_eq]
    rfl
  case illegal =>
    rw [step_of_illegal (hinq ▸ decode_cons_of_illegal rest (decodeWord_eq_illegal hopc hmbz) hdata), State.fail_eq]
    rfl

/-- Settles O5: the decoder waits exactly for the words that are missing. -/
theorem stepWaitsForWholeTransaction : Obligations.StepWaitsForWholeTransaction :=
  ⟨fun _ => step_of_wait, fun _ => decode_eq_wait_iff,
    fun _ _ _ _ hinq hlt => step_of_wait (hinq ▸ decode_take_encode hlt)⟩

end Sys2Proof.Machine
end

section

namespace Sys2Proof.Machine

/-! ### A command fails with its first error, or has its effect (48_commands.md R270 to R281) -/

/-- What a command leaves when its check list finds no error (R271 to R279). -/
def State.allowed (s : State) : Instr → State
  | .nop => s
  | .config rate => s.configured rate
  | .activate => s.activated
  | .wparam idx v => (pendIndex idx).elim s fun k => s.writePend k v
  | .rparam idx => s.emit (s.readReg idx).toList
  | .process n => s.processed n
  | .sample x0 x1 => s.sampled x0 x1
  | .teardown => s.tornDown
  | .clrstat => { s with err := 0#7, lastErr := 0#4 }

@[simp] theorem State.allowed_rparam (s : State) (idx : Nat) :
    s.allowed (.rparam idx) = s.emit (s.readReg idx).toList := rfl
@[simp] theorem State.allowed_process (s : State) (n : Nat) : s.allowed (.process n) = s.processed n := rfl

theorem State.blk_eq_false_iff {s : State} : s.blk = false ↔ s.blockRemain = 0#16 := by simp [State.blk]

theorem pendIndex_of_lt {idx : Nat} (h : idx < 26) : pendIndex idx = some ⟨idx, h⟩ := dif_pos h

theorem pendIndex_of_ge {idx : Nat} (h : 26 ≤ idx) : pendIndex idx = none := dif_neg (by omega)

@[simp] theorem State.allowed_wparam (s : State) (k : Fin 26) (v : Word) :
    s.allowed (.wparam k v) = s.writePend k v := by
  rw [State.allowed, pendIndex_of_lt k.isLt]
  rfl

/-- An index names no register exactly when R275's check finds BAD_INDEX. -/
theorem State.readReg_eq_none_iff {s : State} {idx : Nat} :
    s.readReg idx = none ↔ ¬ (idx ≤ 25 ∨ (0x40 ≤ idx ∧ idx ≤ 0x46)) := by
  rw [State.readReg]
  rcases Nat.lt_or_ge idx 26 with hlt | hge
  · simp only [pendIndex_of_lt hlt, reduceCtorEq, false_iff, not_not]
    omega
  · simp only [pendIndex_of_ge hge]
    split_ifs <;> simp only [true_iff, false_iff] <;> omega

theorem exec_activate (s : State) : exec .activate s = execActivate s := rfl

theorem exec_teardown (s : State) : exec .teardown s = execTeardown s := rfl

/-- R281 in one equation. -/
theorem exec_eq (i : Instr) (s : State) :
    exec i s = .next ((firstError s i).elim (s.allowed i) fun e => s.fail e i.opcode.resultWords) := by
  cases i with
  | nop => rfl
  | clrstat => rfl
  | wparam idx v =>
    rw [exec_wparam, execWparam, firstError, State.allowed]
    rcases Nat.lt_or_ge idx 26 with hlt | hge
    · rw [pendIndex_of_lt hlt, if_neg (by omega)]
      rfl
    · rw [pendIndex_of_ge hge, if_pos (by omega)]
      rfl
  | rparam idx =>
    rw [exec_rparam, execRparam, firstError, State.allowed_rparam]
    cases hreg : s.readReg idx with
    | none => rw [if_neg (State.readReg_eq_none_iff.mp hreg)]; rfl
    | some v =>
      have hidx : idx ≤ 25 ∨ (0x40 ≤ idx ∧ idx ≤ 0x46) := by
        by_contra hno
        rw [State.readReg_eq_none_iff.mpr hno] at hreg
        cases hreg
      rw [if_pos hidx]; rfl
  | config rate =>
    rw [exec_config, execConfig]
    simp only [firstError, ← State.blk_iff]
    split_ifs <;> rfl
  | activate =>
    rw [exec_activate, execActivate]
    simp only [firstError, ← State.blk_iff]
    split_ifs <;> rfl
  | process n =>
    rw [exec_process, execProcess, State.allowed_process, State.processed]
    simp only [firstError, ← State.blk_iff, Bool.not_eq_true']
    split_ifs <;> rfl
  | sample x0 x1 =>
    rw [exec_sample, execSample]
    simp only [firstError, ← State.blk_eq_false_iff]
    cases s.blk <;> rfl
  | teardown =>
    rw [exec_teardown, execTeardown]
    simp only [firstError, ← State.blk_iff]
    split_ifs <;> rfl

theorem exec_of_firstError {s : State} {i : Instr} {e : ErrCode} (h : firstError s i = some e) :
    exec i s = .next (s.fail e i.opcode.resultWords) := by
  rw [exec_eq, h]
  rfl

theorem exec_of_allowed {s : State} {i : Instr} (h : firstError s i = none) : exec i s = .next (s.allowed i) := by
  rw [exec_eq, h]
  rfl

theorem bankHasNaN_eq_true_iff {b : Bank} : bankHasNaN b = true ↔ ∃ k : Fin 26, isNaN b[k] = true := by
  rw [bankHasNaN, List.any_eq_true]
  constructor
  · rintro ⟨v, hv, hnan⟩
    obtain ⟨k, hk, rfl⟩ := Vector.getElem_of_mem (Vector.mem_toList_iff.mp hv)
    exact ⟨⟨k, hk⟩, hnan⟩
  · rintro ⟨k, hnan⟩
    exact ⟨b[k], Vector.mem_toList_iff.mpr (Vector.getElem_mem k.isLt), hnan⟩

theorem bankHasNaN_eq_false_iff {b : Bank} : bankHasNaN b = false ↔ ∀ k : Fin 26, isNaN b[k] = false := by
  rw [← Bool.not_eq_true, bankHasNaN_eq_true_iff, not_exists]
  simp only [Bool.not_eq_true]

/-- PROCESS changes the error fields only to record a NaN (R303). -/
theorem State.processed_eq (s : State) (n : Nat) :
    s.processed n = { s.blockOpened n with
      err := if bankHasNaN s.pend then setErrBit s.err .paramNan else s.err
      lastErr := if bankHasNaN s.pend then 7#4 else s.lastErr } := by
  rw [State.processed]
  split <;> rfl

/-- A command that passes its checks keeps the error fields, but for CLRSTAT and the NaN that PROCESS finds (R279,
R303). -/
theorem State.allowed_errors {s : State} {i : Instr} (hclr : i ≠ .clrstat)
    (hnan : ∀ n, i = .process n → bankHasNaN s.pend = false) :
    (s.allowed i).err = s.err ∧ (s.allowed i).lastErr = s.lastErr := by
  cases i with
  | clrstat => exact absurd rfl hclr
  | process n =>
    simp only [State.allowed_process, State.processed_eq, hnan n rfl, Bool.false_eq_true, if_false, and_self]
  | wparam idx v =>
    rw [State.allowed]
    cases pendIndex idx <;> exact ⟨rfl, rfl⟩
  | nop | config | activate | rparam | sample | teardown => exact ⟨rfl, rfl⟩

/-- Settles O14: both halves are the equation of `exec`. -/
theorem legalityTable : Obligations.LegalityTable := by
  refine ⟨fun s i e _ h => exec_of_firstError h, fun s i _ h hclr hnan => ⟨_, exec_of_allowed h, ?_⟩⟩
  exact State.allowed_errors hclr fun n hn => bankHasNaN_eq_false_iff.mpr (hnan n hn)

/-- Settles O1. -/
theorem nopChangesNothing : Obligations.NopChangesNothing := fun _ => exec_of_allowed rfl

/-! ### Every step and every run answers a next state (60_exceptions.md R300) -/

/-- Settles O6: the port waits, suppresses a word that is no command, or runs a command. -/
theorem everyStepAnswersNext : Obligations.EveryStepAnswersNext := by
  intro s
  cases h : decode s.inq with
  | wait => exact ⟨_, step_of_wait h⟩
  | reserved rest => exact ⟨_, step_of_reserved h⟩
  | illegal opc rest => exact ⟨_, step_of_illegal h⟩
  | cmd i rest => exact ⟨_, (step_of_decode_cmd h).trans (exec_eq i _)⟩

theorem run_core_succ {s t : State} (h : step s = .next t) (k : Nat) :
    Host.Core.run Sys2Proof.core (k + 1) s = Host.Core.run Sys2Proof.core k t := by
  have hcore : Sys2Proof.core.step s = .next t := h
  simp only [Host.Core.run, hcore]

/-- Settles O44, by induction on the number of steps. -/
theorem everyRunIsSafe : Obligations.EveryRunIsSafe := by
  intro k
  induction k with
  | zero => exact fun s => ⟨s, rfl⟩
  | succ k ih =>
    intro s
    obtain ⟨t, hstep⟩ := everyStepAnswersNext s
    rw [SafeRun, run_core_succ hstep]
    exact ih t

/-! ### Recording an error (60_exceptions.md R301, R304) -/

theorem ErrCode.code_pos (e : ErrCode) : 1 ≤ e.code := by cases e <;> decide

theorem ErrCode.code_le (e : ErrCode) : e.code ≤ 7 := by cases e <;> decide

theorem toNat_ofNat_code (e : ErrCode) : (BitVec.ofNat 4 e.code).toNat = e.code := by
  have := e.code_le
  rw [BitVec.toNat_ofNat, Nat.mod_eq_of_lt (by omega)]

theorem ofNat_code_ne_zero (e : ErrCode) : BitVec.ofNat 4 e.code ≠ 0#4 := by cases e <;> decide

/-- The sticky bits after an error is recorded: those before, and its own. -/
theorem getLsbD_setErrBit (err : BitVec 7) (e : ErrCode) (k : Nat) :
    (setErrBit err e).getLsbD k = (err.getLsbD k || decide (k = e.code - 1)) := by
  have := e.code_pos
  have := e.code_le
  rw [setErrBit, BitVec.getLsbD_or, BitVec.getLsbD_shiftLeft, BitVec.getLsbD_one]
  congr 1
  rw [Bool.eq_iff_iff]
  simp only [Bool.and_eq_true, Bool.not_eq_true', decide_eq_true_eq, decide_eq_false_iff_not]
  omega

theorem setErrBit_ne_zero (err : BitVec 7) (e : ErrCode) : setErrBit err e ≠ 0#7 := by
  intro h
  have hbit := getLsbD_setErrBit err e (e.code - 1)
  rw [h] at hbit
  simp at hbit

end Sys2Proof.Machine
end

section

namespace Sys2Proof.Machine

/-! ### The error fields of STATUS, and who clears them (10_state.md R39, R40; 60_exceptions.md R301, R304, R310) -/

/-- A bit of STATUS that shows neither ERR nor LAST_ERR does not change when only those two do (R39). -/
theorem State.getLsbD_status_congr {s : State} (err : BitVec 7) (lastErr : BitVec 4) {k : Nat}
    (herr : ¬ (8 ≤ k ∧ k ≤ 14)) (hlast : ¬ (16 ≤ k ∧ k ≤ 19)) :
    ({ s with err := err, lastErr := lastErr } : State).status.getLsbD k = s.status.getLsbD k := by
  simp only [State.status, BitVec.getLsbD_append]
  split_ifs
  any_goals rfl
  · exact absurd ⟨by omega, by omega⟩ herr
  · exact absurd ⟨by omega, by omega⟩ hlast

/-- The bits of ERR in the STATUS word (R39). -/
theorem State.getLsbD_status_err (s : State) {k : Nat} (h : k < 7) : s.status.getLsbD (8 + k) = s.err.getLsbD k := by
  obtain ⟨-, herr, -, -⟩ := s.status_fields
  rw [← herr, BitVec.getLsbD_extractLsb']
  simp [h]

/-- Settles O11: the two fields that change lie at bits 8 to 14 and 16 to 19 of STATUS, and of the first one bit. -/
theorem raiseRecordsStickyBitAndLastErr : Obligations.RaiseRecordsStickyBitAndLastErr := by
  intro s e
  have hpos := e.code_pos
  have hle := e.code_le
  obtain ⟨-, -, hlast, -⟩ := (s.raise e).status_fields
  refine ⟨?sticky, hlast, fun k hk hk' => ?others, rfl⟩
  case sticky =>
    have h := (s.raise e).getLsbD_status_err (k := e.code - 1) (by omega)
    rw [show 7 + e.code = 8 + (e.code - 1) by omega, h, State.raise_err, getLsbD_setErrBit]
    simp
  case others =>
    by_cases herr : 8 ≤ k ∧ k ≤ 14
    · obtain ⟨j, rfl⟩ : ∃ j, k = 8 + j := ⟨k - 8, by omega⟩
      have hne : j ≠ e.code - 1 := by omega
      rw [State.getLsbD_status_err _ (by omega), State.getLsbD_status_err _ (by omega), State.raise_err,
        getLsbD_setErrBit, decide_eq_false hne, Bool.or_false]
    · exact State.getLsbD_status_congr _ _ herr hk'

/-- The mask 0x77 keeps the fields FSM, BLK, ACT and CFG of a STATUS word, here named `f`, `b`, `a` and `c` (R39). -/
theorem status_fields_and_mask (l : BitVec 4) (e : BitVec 7) (f : BitVec 3) (b a c : BitVec 1) :
    (0#12 ++ l ++ 0#1 ++ e ++ 0#1 ++ f ++ 0#1 ++ b ++ a ++ c) &&& 0x00000077#_ =
      0#12 ++ 0#4 ++ 0#1 ++ 0#7 ++ 0#1 ++ f ++ 0#1 ++ b ++ a ++ c := by
  have hmask : 0x00000077#_ = 0#12 ++ 0#4 ++ 0#1 ++ 0#7 ++ 0#1 ++ BitVec.allOnes 3 ++ 0#1 ++ BitVec.allOnes 1 ++
      BitVec.allOnes 1 ++ BitVec.allOnes 1 := rfl
  rw [hmask]
  simp only [BitVec.and_append, BitVec.and_zero, BitVec.and_allOnes]

/-- Without its error fields the STATUS word shows CFG, ACT, BLK and FSM (R39, R40). -/
theorem State.status_errors_cleared (s : State) :
    ({ s with err := 0#7, lastErr := 0#4 } : State).status = s.status &&& 0x00000077#32 :=
  (status_fields_and_mask s.lastErr s.err _ _ _ _).symm

/-- Settles O15: the mask 0x77 is what STATUS shows with its error fields 0. -/
theorem clrstatClearsErrorFieldsOnly : Obligations.ClrstatClearsErrorFieldsOnly := by
  intro s
  have hexec : exec .clrstat s = .next { s with err := 0#7, lastErr := 0#4 } := exec_of_allowed rfl
  refine ⟨hexec, fun t ht => ?_⟩
  rw [hexec] at ht
  cases ht
  exact s.status_errors_cleared

/-- What a command or a malformed word can do to the error fields: keep them, record one error, or, as CLRSTAT alone
does, clear them (R304, R310). -/
theorem Effect.errors {s t : State} {i : Instr} (h : Effect s i t) :
    (t.err = s.err ∧ t.lastErr = s.lastErr) ∨
      (∃ e : ErrCode, t.err = setErrBit s.err e ∧ t.lastErr = BitVec.ofNat 4 e.code) ∨
      (i = .clrstat ∧ t.err = 0#7 ∧ t.lastErr = 0#4) := by
  cases h with
  | suppressed _ e => exact .inr (.inl ⟨e, rfl, rfl⟩)
  | openedNaN => exact .inr (.inl ⟨.paramNan, rfl, rfl⟩)
  | cleared => exact .inr (.inr ⟨rfl, rfl, rfl⟩)
  | idle | written | answered | opened | sampled | configured | activated | tornDown => exact .inl ⟨rfl, rfl⟩

/-- The error invariant reads the error fields alone. -/
theorem State.ErrInv.congr {s t : State} (h : s.ErrInv) (herr : t.err = s.err) (hlast : t.lastErr = s.lastErr) :
    t.ErrInv := by
  obtain ⟨hcode, hsticky, hnone⟩ := h
  constructor <;> simp only [herr, hlast] <;> assumption

/-- The error invariant holds wherever no error is recorded. -/
theorem State.errInv_of_clear {t : State} (herr : t.err = 0#7) (hlast : t.lastErr = 0#4) : t.ErrInv where
  code := by rw [hlast]; decide
  sticky h := absurd hlast h
  none_iff := iff_of_true hlast herr

/-- Recording an error establishes the error invariant, whatever the error fields held before. -/
theorem State.errInv_of_recorded {t : State} {err : BitVec 7} {e : ErrCode} (herr : t.err = setErrBit err e)
    (hlast : t.lastErr = BitVec.ofNat 4 e.code) : t.ErrInv where
  code := by rw [hlast, toNat_ofNat_code]; exact e.code_le
  sticky _ := by rw [herr, hlast, toNat_ofNat_code, getLsbD_setErrBit]; simp
  none_iff := by
    rw [herr, hlast]
    exact iff_of_false (ofNat_code_ne_zero e) (setErrBit_ne_zero err e)

theorem State.ErrInv.effect {s t : State} {i : Instr} (hs : s.ErrInv) (h : Effect s i t) : t.ErrInv := by
  rcases h.errors with ⟨herr, hlast⟩ | ⟨e, herr, hlast⟩ | ⟨-, herr, hlast⟩
  · exact hs.congr herr hlast
  · exact State.errInv_of_recorded herr hlast
  · exact State.errInv_of_clear herr hlast

/-- Settles O42: each command keeps the invariant, and the port's words are no part of it. -/
theorem stepKeepsErrorInvariant : Obligations.StepKeepsErrorInvariant := fun _ _ hs hstep =>
  step_preserves (fun _ _ h => h.congr rfl rfl) (fun _ _ _ h heff => h.effect heff) hs hstep

/-- Settles O43: no error is recorded at power-on. -/
theorem powerOnMeetsErrorInvariant : Obligations.PowerOnMeetsErrorInvariant := fun _ => State.errInv_of_clear rfl rfl

/-- The errors of `s` are still shown in `t`: no sticky bit is lost, and a recorded LAST_ERR is not cleared (R310). -/
def State.ErrorsStay (s t : State) : Prop :=
  (∀ k, s.err.getLsbD k = true → t.err.getLsbD k = true) ∧ (s.lastErr ≠ 0#4 → t.lastErr ≠ 0#4)

theorem State.errorsStay_of_kept {s t : State} (herr : t.err = s.err) (hlast : t.lastErr = s.lastErr) :
    s.ErrorsStay t := ⟨fun _ h => herr ▸ h, fun h => hlast ▸ h⟩

theorem State.errorsStay_of_recorded {s t : State} {e : ErrCode} (herr : t.err = setErrBit s.err e)
    (hlast : t.lastErr = BitVec.ofNat 4 e.code) : s.ErrorsStay t := by
  refine ⟨fun k hk => ?_, fun _ => hlast ▸ ofNat_code_ne_zero e⟩
  rw [herr, getLsbD_setErrBit, hk, Bool.true_or]

theorem Effect.errorsStay {s t : State} {i : Instr} (h : Effect s i t) (hi : i ≠ .clrstat) : s.ErrorsStay t := by
  rcases h.errors with ⟨herr, hlast⟩ | ⟨e, herr, hlast⟩ | ⟨hclr, -, -⟩
  · exact State.errorsStay_of_kept herr hlast
  · exact State.errorsStay_of_recorded herr hlast
  · exact absurd hclr hi

/-- A step that does not take a CLRSTAT from the port keeps the errors shown. -/
theorem errorsStay_of_step {s t : State} (h : step s = .next t)
    (hport : ∀ rest, decode s.inq ≠ .cmd .clrstat rest) : s.ErrorsStay t := by
  cases hdec : decode s.inq with
  | wait =>
    rw [step_of_wait hdec] at h
    cases h
    exact State.errorsStay_of_kept rfl rfl
  | reserved rest =>
    rw [step_of_reserved hdec] at h
    cases h
    exact State.errorsStay_of_recorded rfl rfl
  | illegal opc rest =>
    rw [step_of_illegal hdec] at h
    cases h
    exact State.errorsStay_of_recorded rfl rfl
  | cmd i rest =>
    rw [step_of_decode_cmd hdec] at h
    have hi : i ≠ .clrstat := fun hclr => hport rest (hclr ▸ hdec)
    exact (effect_of_exec h).errorsStay hi

/-- Settles O13: of the ways a step can end only CLRSTAT clears the error fields, and an unsuppressed CONFIG,
ACTIVATE or TEARDOWN leaves them. -/
theorem onlyClrstatClearsErrors : Obligations.OnlyClrstatClearsErrors := by
  refine ⟨fun s t h hport => errorsStay_of_step h hport, fun s t i h hok hi => ?_⟩
  rw [exec_of_allowed hok] at h
  cases h
  rcases hi with ⟨r, rfl⟩ | rfl | rfl <;> exact ⟨rfl, rfl⟩

end Sys2Proof.Machine
end

section

namespace Sys2Proof.Machine

/-! ### The registers a host writes and reads (48_commands.md R274, R275; 20_memory.md R86) -/

theorem getElem_bankZero (k : Fin 26) : Bank.zero[k] = 0#32 := by simp [Bank.zero]

@[simp] theorem State.readReg_pend (s : State) (k : Fin 26) : s.readReg k = some s.pend[k] := by
  rw [State.readReg, pendIndex_of_lt k.isLt]

theorem exec_wparam_pend (s : State) (k : Fin 26) (v : Word) : exec (.wparam k v) s = .next (s.writePend k v) := by
  have hok : firstError s (.wparam k v) = none := if_neg (by omega)
  rw [exec_of_allowed hok, State.allowed_wparam]

/-- RPARAM of an index that names a register returns that register's word (R275). -/
theorem exec_rparam_of_readReg {s : State} {idx : Nat} {v : Word} (h : s.readReg idx = some v) :
    exec (.rparam idx) s = .next { s with outq := s.outq ++ [v] } := by
  rw [exec_rparam, execRparam, h]
  rfl

/-- Settles O22: the index is in range, so the write of one register is all that happens. -/
theorem wparamWritesOnePendingRegister : Obligations.WparamWritesOnePendingRegister := by
  intro s i v
  refine ⟨_, exec_wparam_pend s i v, ?_, fun k hk => ?_, rfl, fun _ _ => rfl⟩
  · rw [State.writePend_pend]
    exact Vector.getElem_set_self i.isLt
  · rw [State.writePend_pend]
    exact Vector.getElem_set_ne i.isLt k.isLt fun h => hk (Fin.ext h.symm)

/-- Settles O23: each index is looked up in the register map, and outside it BAD_INDEX is the first error. -/
theorem rparamReturnsTheRegister : Obligations.RparamReturnsTheRegister := by
  intro s
  have hremain : s.readReg 0x44 = some (BitVec.ofNat 32 s.blockRemain.toNat) :=
    congrArg some (BitVec.ofNat_toNat 32 s.blockRemain).symm
  refine ⟨fun i => exec_rparam_of_readReg (s.readReg_pend i), exec_rparam_of_readReg rfl, exec_rparam_of_readReg rfl,
    exec_rparam_of_readReg rfl, exec_rparam_of_readReg rfl, exec_rparam_of_readReg hremain,
    exec_rparam_of_readReg rfl, exec_rparam_of_readReg rfl, fun idx hidx => ?_⟩
  have herr : firstError s (.rparam idx) = some .badIndex := if_neg (by omega)
  exact exec_of_firstError herr

/-- Settles O16: every word that the map shows is 0 at power-on, but for FSM = FILL_BUF in STATUS. -/
theorem powerOnRegisters : Obligations.PowerOnRegisters := by
  refine ⟨rfl, fun idx hidx => ?_, fun idx hlo hhi hne => ?_, rfl, rfl, rfl, rfl, rfl, rfl, rfl⟩
  · exact (State.reset.readReg_pend ⟨idx, hidx⟩).trans (congrArg some (getElem_bankZero _))
  · have hidx : idx = 0x40 ∨ idx = 0x42 ∨ idx = 0x43 ∨ idx = 0x44 ∨ idx = 0x45 ∨ idx = 0x46 := by omega
    rcases hidx with rfl | rfl | rfl | rfl | rfl | rfl <;> rfl

/-! ### What CONFIG, ACTIVATE and TEARDOWN leave (48_commands.md R272, R273, R278) -/

/-- Settles O18: the rate passes the check list, and the configured state is read field by field. -/
theorem configResetsEverythingButErrors : Obligations.ConfigResetsEverythingButErrors := by
  intro s r hclosed hrate
  have hok : firstError s (.config r) = none := by simp [firstError, hclosed, hrate]
  exact ⟨_, exec_of_allowed hok, rfl, rfl, Memory.readWord_cleared, Memory.readByte_cleared, rfl, rfl,
    getElem_bankZero, getElem_bankZero, rfl, rfl, rfl, rfl, rfl, rfl, rfl, rfl, rfl, rfl⟩

/-- Settles O20: the configured block passes the check list. -/
theorem activateResetsEngineKeepsParameters : Obligations.ActivateResetsEngineKeepsParameters := by
  intro s hclosed hcfg
  have hok : firstError s .activate = none := by simp [firstError, hclosed, hcfg]
  refine ⟨exec_of_allowed hok, fun t ht => ?_⟩
  rw [exec_of_allowed hok] at ht
  cases ht
  exact ⟨Memory.readWord_cleared, rfl, rfl, rfl, rfl⟩

/-- Settles O21: a closed block passes the check list. -/
theorem teardownReleasesConfiguration : Obligations.TeardownReleasesConfiguration := by
  intro s hclosed
  have hok : firstError s .teardown = none := by simp [firstError, hclosed]
  exact ⟨_, exec_of_allowed hok, rfl, rfl, rfl, rfl, rfl, rfl, rfl, rfl, rfl, rfl, rfl, rfl, rfl, rfl⟩

/-! ### The snapshot that PROCESS takes (48_commands.md R276, 10_state.md R32, R36) -/

/-- The snapshot takes each pending register, +0.0 for a NaN (R36). -/
theorem getElem_snapshotBank (b : Bank) (k : Fin 26) :
    (snapshotBank b)[k] = if isNaN b[k] then 0#32 else b[k] := by
  simp only [snapshotBank, Fin.getElem_fin, Vector.getElem_map, substNaN, fZero]

/-- FEEDBACK and CROSSFEED are read by the law that the build chooses (R196). -/
theorem feedbackLaw_percent {p : Params} (h : p.fbLaw = .percent) (v : Word) : feedbackLaw p v = pctToLin v := by
  rw [feedbackLaw, h]

theorem feedbackLaw_db {p : Params} (h : p.fbLaw = .db) (v : Word) : feedbackLaw p v = dbToLin p v := by
  rw [feedbackLaw, h]

/-- Settles O26: the block is opened on the snapshot, and only the error fields depend on whether it holds a NaN. -/
theorem processTakesTheSnapshot : Obligations.ProcessTakesTheSnapshot := by
  intro s n hclosed hcfg hact hn
  have hcount : (BitVec.ofNat 16 n).toNat = n := (BitVec.toNat_ofNat n 16).trans (Nat.mod_eq_of_lt hn)
  refine ⟨_, (exec_process_of_ready n hclosed hcfg hact).trans (congrArg _ (s.processed_eq n)),
    getElem_snapshotBank s.pend, rfl, rfl, hcount, rfl, rfl, rfl, rfl, rfl, rfl, rfl, rfl,
    fun hnan => ?_, fun hnan => ?_, fun _ _ => rfl, rfl⟩
  · have hbank : bankHasNaN s.pend = true := bankHasNaN_eq_true_iff.mpr hnan
    exact ⟨if_pos hbank, if_pos hbank⟩
  · have hbank : ¬ bankHasNaN s.pend = true := by simp [bankHasNaN_eq_false_iff.mpr hnan]
    exact ⟨if_neg hbank, if_neg hbank⟩

/-- Settles O27: each field of the decoding reads its own register of the snapshot. -/
theorem processDecodesEachRegister : Obligations.ProcessDecodesEachRegister := by
  intro s n hclosed hcfg hact p a
  have ha : a = fun k => (snapshotBank s.pend)[k] := funext fun k => (getElem_snapshotBank s.pend k).symm
  clear_value a
  subst ha
  refine ⟨_, (exec_process_of_ready n hclosed hcfg hact).trans (congrArg _ (s.processed_eq n)), fun _ => rfl, rfl,
    rfl, rfl, rfl, fun h => ⟨feedbackLaw_percent h _, feedbackLaw_percent h _⟩,
    fun h => ⟨feedbackLaw_db h _, feedbackLaw_db h _⟩, ?_⟩
  and_intros <;> rfl

end Sys2Proof.Machine
end
